-- ==== Sys2Proof/Word.lean ====
section
/-! DEFINITION. The bit-vector widths the spec names (00_scope.md R8, R9). -/

namespace Sys2Proof

/-- A host-visible register, an IPv4 address, a mask, a next hop, a command word (R8). -/
abbrev Word := BitVec 32

/-- A 16-bit big-endian word of a header (R122). -/
abbrev Half := BitVec 16

/-- One byte of the packet buffer (R36). -/
abbrev Byte := BitVec 8

/-- The word address on the host bus port: byte-offset bits [ADDR_BITS-1:2] (R62). ADDR_BITS is at most 16,
reached at PBUF_BYTES = 61440, so 14 bits carry every legal port. -/
abbrev BusAddr := BitVec 14

end Sys2Proof
end

