-- ==== Sys2Proof/Config.lean ====
section
/-! DEFINITION. What an implementation of the block fixes (00_scope.md R7) and the values the spec leaves free. -/

namespace Sys2Proof

/-- The implementation parameters of R7 (PBUF_BYTES, LPM_ENTRIES) and RIPC_BASE of 20_memory.md R65. They are
held in the state, where nothing writes them, so that a statement about every state is one about every
configuration (log 6). -/
structure Params where
  /-- PBUF_BYTES: the size of the packet buffer in bytes. -/
  pbufBytes  : Nat
  /-- LPM_ENTRIES: the number of slots of the route table. -/
  lpmEntries : Nat
  /-- RIPC_BASE: where the platform places the block. -/
  ripcBase   : Nat
  deriving DecidableEq, Repr

/-- The defaults of R7; RIPC_BASE has none in the spec (DESIGN CHOICE: 0, log 6). -/
def Params.defaults : Params := { pbufBytes := 2048, lpmEntries := 64, ripcBase := 0 }

/-- ADDR_BITS = ceil(log2(0x1000 + PBUF_BYTES)) (R7). -/
def Params.addrBits (p : Params) : Nat := Nat.log2 (0x1000 + p.pbufBytes - 1) + 1

/-- The platform's address of the register at byte offset `off` (R65). -/
def Params.hostAddr (p : Params) (off : Nat) : Nat := p.ripcBase + off

/-- MSG_MAX: MSG entry slots, and entries in a RIP message (R7). -/
def msgMax : Nat := 25

/-- ENTRY_BYTES: bytes of a RIP entry on the wire (R7). -/
def entryBytes : Nat := 20

/-- RIP_HDR_BYTES: bytes of the RIP header (R7). -/
def ripHdrBytes : Nat := 4

/-- UDP_HDR_BYTES: bytes skipped between the IP header and the RIP header (R7, R101; PRESUMED by the spec
from general knowledge, log 15). -/
def udpHdrBytes : Nat := 8

/-- METRIC_INF: the unreachable metric (R7). -/
def metricInf : Nat := 16

/-- What the n-th host read of a register that is unspecified while BUSY = 1 returns (20_memory.md R67, U2):
a free value, about which nothing can be proved (log 2). -/
opaque Config.busyRead : Nat → BitVec 32

end Sys2Proof
end

