-- ==== Sys2Proof/Syntax.lean ====
section
/-! DEFINITION. The commands of the block (one constructor per row of the opcode table), the host's register map
as names, and the host's bus transactions and assembly lines. -/

namespace Sys2Proof

/-- The twelve commands of 30_encoding.md R82. No command word has an operand field (R80, R83). -/
inductive Instr where
  | nop            -- R232
  | csumCompute    -- R125
  | csumVerify     -- R128
  | disassemble    -- R140
  | assemble       -- R150
  | lpmInsert      -- R172
  | lpmDelete      -- R180
  | lpmLookup      -- R185
  | lpmFind        -- R190
  | lpmRead        -- R195
  | lpmClear       -- R200
  | forward        -- R210
  deriving DecidableEq, Repr

/-- The four registers of one MSG entry (10_state.md R34). -/
inductive MsgField where
  | addr | mask | nexthop | metric
  deriving DecidableEq, Repr

/-- The host-visible registers of 10_state.md R20. -/
inductive Reg where
  | id | params | cmd | status | arg
  | res0 | res1 | res2 | res3
  | rtPrefix | rtLen | rtIface | rtNexthop | rtMetric
  | msgCmd | msgCount
  /-- MSG_ADDR[i], MSG_MASK[i], MSG_NEXTHOP[i] or MSG_METRIC[i]. -/
  | msg (i : Fin 25) (f : MsgField)
  /-- PBUF word k (20_memory.md R61). -/
  | pbufWord (k : Nat)
  deriving DecidableEq, Repr

/-- One bus transaction of the host, or its polling loop. -/
inductive HostOp where
  /-- A 32-bit read of the word at a bus address (R62). -/
  | rd (a : BusAddr)
  /-- A 32-bit write (R62). -/
  | wr (a : BusAddr) (w : Word)
  /-- The loop of 30_encoding.md R111: read STATUS until bit 0 is 0. -/
  | wait
  deriving DecidableEq, Repr

/-- Who moves next: the host, the engine, or the reset pin (00_scope.md R14, 70_reset_and_hazards.md R280). -/
inductive Turn where
  | host | engine | reset
  deriving DecidableEq, Repr

/-- The register operand of an assembly line: a name, or a byte offset `@0x…` (R110). -/
inductive Target where
  | reg (r : Reg)
  | at (off : Nat)
  deriving DecidableEq, Repr

/-- One line of host assembly (R110 to R113). -/
inductive HostLine where
  | wr (t : Target) (v : Word)
  | rd (t : Target)
  | cmd (i : Instr)
  | wait
  | pbuf (off : Nat) (ws : List Word)
  deriving DecidableEq, Repr

end Sys2Proof
end

