-- ==== Sys2Proof/WellFormed.lean ====
section
/-! DEFINITION. Which parameters, commands and host lines are legal. -/

namespace Sys2Proof

/-- The constraints of 00_scope.md R7: PBUF_BYTES is a multiple of 4 in 532..61440, LPM_ENTRIES is in 1..255. -/
def Params.wf (p : Params) : Bool :=
  p.pbufBytes % 4 == 0 && decide (532 ≤ p.pbufBytes) && decide (p.pbufBytes ≤ 61440)
    && decide (1 ≤ p.lpmEntries) && decide (p.lpmEntries ≤ 255)

/-- A command has no operand field, so there is none to be ill-formed: every command is well-formed (R80). -/
def Instr.wf (i : Instr) : Bool :=
  match i with
  | .nop | .csumCompute | .csumVerify | .disassemble | .assemble | .lpmInsert | .lpmDelete | .lpmLookup
  | .lpmFind | .lpmRead | .lpmClear | .forward => true

/-- A register operand the bus can carry: a PBUF word inside the window (20_memory.md R61), or a byte offset
that is a multiple of 4 below 2^ADDR_BITS (R62, R65). -/
def Target.wf (p : Params) (t : Target) : Bool :=
  match t with
  | .reg (.pbufWord k) => decide (4 * k < p.pbufBytes)
  | .reg _ => true
  | .at off => off % 4 == 0 && decide (off < 2 ^ p.addrBits)

/-- A legal host line: its operand is one the bus can carry, and `pbuf` starts at a multiple of 4 and stays
inside the window (R110, R112). -/
def HostLine.wf (p : Params) (l : HostLine) : Bool :=
  match l with
  | .wr t _ => t.wf p
  | .rd t => t.wf p
  | .cmd i => i.wf
  | .wait => true
  | .pbuf off ws => off % 4 == 0 && decide (off + 4 * ws.length ≤ p.pbufBytes)

end Sys2Proof
end

