-- ==== Sys2Proof/Decode.lean ====
section
/-! DEFINITION. The decoder and encoder of command words (30_encoding.md R80 to R82, R113) and of bus offsets
(the register map, 10_state.md R20). -/

namespace Sys2Proof

/-- Why a command word is ILLEGAL (R84(a) and (b)). -/
inductive DecodeReject where
  /-- Bits [31:8] are not zero (R84(a)). -/
  | reservedBits
  /-- Bits [7:0] are in no row of the opcode map (R84(b)). -/
  | unlistedOpcode
  deriving DecidableEq, Repr

/-- The opcode map of R82, row by row. -/
def opcodeMap : List (Byte × Instr) :=
  [ (0x00#8, .nop), (0x01#8, .csumCompute), (0x02#8, .csumVerify),
    (0x10#8, .disassemble), (0x11#8, .assemble),
    (0x20#8, .lpmInsert), (0x21#8, .lpmDelete), (0x22#8, .lpmLookup), (0x23#8, .lpmFind),
    (0x24#8, .lpmRead), (0x25#8, .lpmClear),
    (0x30#8, .forward) ]

/-- The field OPCODE, bits [7:0] (R80). -/
def opcodeField (w : Word) : Byte := w.extractLsb' 0 8

/-- The field RSV, bits [31:8] (R80). -/
def rsvField (w : Word) : BitVec 24 := w.extractLsb' 8 24

/-- Decoding, total on all 2^32 words (R81): RSV is checked first, then the opcode map. -/
def decode (w : Word) : Except DecodeReject Instr :=
  if rsvField w ≠ 0#24 then .error .reservedBits
  else
    match opcodeMap.find? (fun row => row.1 == opcodeField w) with
    | some row => .ok row.2
    | none => .error .unlistedOpcode

/-- The opcode of a command (R82). -/
def Instr.opcode (i : Instr) : Byte :=
  match i with
  | .nop => 0x00#8
  | .csumCompute => 0x01#8
  | .csumVerify => 0x02#8
  | .disassemble => 0x10#8
  | .assemble => 0x11#8
  | .lpmInsert => 0x20#8
  | .lpmDelete => 0x21#8
  | .lpmLookup => 0x22#8
  | .lpmFind => 0x23#8
  | .lpmRead => 0x24#8
  | .lpmClear => 0x25#8
  | .forward => 0x30#8

/-- The command word of a command: zext_32(OPCODE) (R82, R113). -/
def encode (i : Instr) : Word := i.opcode.setWidth 32

/-- The instruction the decoder reads from a word of `nbits` bits; a command word is 32 bits, stored as one
number, so its bits are numbered as the opcode table numbers them (R80). -/
def decodeTableWord (nbits w : Nat) : Option Instr :=
  (decode (BitVec.ofNat 32 (w % 2 ^ nbits))).toOption

/-! ### The register map -/

/-- The offset of a field inside its MSG entry (10_state.md R34). -/
def MsgField.offset (f : MsgField) : Nat :=
  match f with
  | .addr => 0
  | .mask => 4
  | .nexthop => 8
  | .metric => 12

/-- The byte offset of a register (R20). -/
def Reg.offset (r : Reg) : Nat :=
  match r with
  | .id => 0x000
  | .params => 0x004
  | .cmd => 0x008
  | .status => 0x00C
  | .arg => 0x010
  | .res0 => 0x018
  | .res1 => 0x01C
  | .res2 => 0x020
  | .res3 => 0x024
  | .rtPrefix => 0x030
  | .rtLen => 0x034
  | .rtIface => 0x038
  | .rtNexthop => 0x03C
  | .rtMetric => 0x040
  | .msgCmd => 0x080
  | .msgCount => 0x084
  | .msg i f => 0x100 + 16 * i.val + f.offset
  | .pbufWord k => 0x1000 + 4 * k

/-- The registers below 0x100 (R20, R65). -/
def controlRegs : List Reg :=
  [ .id, .params, .cmd, .status, .arg, .res0, .res1, .res2, .res3,
    .rtPrefix, .rtLen, .rtIface, .rtNexthop, .rtMetric, .msgCmd, .msgCount ]

/-- The four fields of an entry, in the order of their offsets. -/
def msgFields : List MsgField := [.addr, .mask, .nexthop, .metric]

/-- The register at a byte offset, `none` where the offset is unmapped (R20, R46(c), R65): the control registers,
the MSG entries at 0x100..0x28F, the PBUF window of PBUF_BYTES bytes at 0x1000. -/
def regAt (p : Params) (off : Nat) : Option Reg :=
  if off % 4 ≠ 0 then none
  else if off < 0x100 then controlRegs.find? (fun r => r.offset == off)
  else if h : off < 0x290 then
    (msgFields.find? (fun f => f.offset == off % 16)).map
      (fun f => Reg.msg ⟨(off - 0x100) / 16, by omega⟩ f)
  else if 0x1000 ≤ off ∧ off < 0x1000 + p.pbufBytes then some (.pbufWord ((off - 0x1000) / 4))
  else none

/-- The byte offset a bus address names: bits [1:0] do not exist on the port (20_memory.md R62). -/
def BusAddr.offset (a : BusAddr) : Nat := 4 * a.toNat

/-- The bus address of a byte offset (R62). An offset that no port carries has no bus address in the spec: one of 65536
or more, or one that is not a multiple of 4. This function keeps offset bits [15:2] of it, so that it names a lower
offset (0x10010 names 0x010, 0x011 names 0x010): DESIGN CHOICE, unsafe, log 19. -/
def busAddr (off : Nat) : BusAddr := BitVec.ofNat 14 (off / 4)

end Sys2Proof
end

