-- ==== Sys2Proof/Machine/State.lean ====
section
/-! DEFINITION. The state of the block as plain data (10_state.md), the reasons a step can stop, and reset. -/

namespace Sys2Proof.Machine

/-- STATUS.CODE: the result codes of 30_encoding.md R90. No other value is ever produced. -/
inductive Code where
  | ok | reject | notFound | deleteMiss | tableFull | badArg | range | badIhl | badCsum | ttlExpired | illegal
  deriving DecidableEq, Repr

/-- The pending command PEND once a CMD write is accepted: a command, or ILLEGAL (R43, R230, R81). -/
inductive Pending where
  | command (i : Instr)
  | illegal
  deriving DecidableEq, Repr

/-- One MSG entry (R35): each field holds the numeric value of its big-endian wire field. -/
structure MsgEntry where
  addr    : Word
  mask    : Word
  nexthop : Word
  metric  : Word
  deriving DecidableEq, Repr

/-- An entry whose four fields are 0 (R45). -/
def MsgEntry.zero : MsgEntry := { addr := 0#32, mask := 0#32, nexthop := 0#32, metric := 0#32 }

/-- One slot of the route table T (R40). -/
structure Slot where
  valid   : Bool
  pfx     : Word
  len     : BitVec 6
  iface   : Byte
  nexthop : Word
  metric  : BitVec 5
  deriving DecidableEq, Repr

/-- A free slot: VALID = 0 and every field 0 (R45, R41 I3). -/
def Slot.free : Slot :=
  { valid := false, pfx := 0#32, len := 0#6, iface := 0#8, nexthop := 0#32, metric := 0#5 }

/-- The packet buffer PBUF: the bytes written since reset, by rising address. A byte that is not listed has
never been written (R36, R37) and reads as no value (R66; log 1). -/
abbrev Memory := List Host.Cell

/-- The canonical form: addresses strictly rising. An unlisted byte has no value, so no entry can equal it. -/
abbrev Memory.wf (m : Memory) : Prop := m.Pairwise (fun c d => c.1 < d.1)

/-- Everything the spec gives the block, and the two agents' own data (R14). -/
structure State where
  /-- PBUF_BYTES, LPM_ENTRIES, RIPC_BASE (R7, R65); no step writes them (log 6). -/
  params    : Params
  /-- PEND (R43). STATUS.BUSY = 1 exactly when it is set. -/
  pend      : Option Pending
  /-- STATUS.DONE (R24). -/
  done      : Bool
  /-- STATUS.OVERRUN (R24). -/
  overrun   : Bool
  /-- STATUS.CODE (R24, R90). -/
  code      : Code
  /-- ARG (R25). -/
  arg       : Word
  /-- RES0 (R26). -/
  res0      : Word
  /-- RES1 (R26). -/
  res1      : Word
  /-- RES2 (R26). -/
  res2      : Word
  /-- RES3 (R26). -/
  res3      : Word
  /-- RT_PREFIX (R27). -/
  rtPrefix  : Word
  /-- RT_LEN.LEN (R28). -/
  rtLen     : BitVec 6
  /-- RT_IFACE.IFACE (R29). -/
  rtIface   : Byte
  /-- RT_NEXTHOP (R30). -/
  rtNexthop : Word
  /-- RT_METRIC.METRIC (R31). -/
  rtMetric  : BitVec 5
  /-- MSG_CMD.CMD (R32). -/
  msgCmd    : Byte
  /-- MSG_COUNT.COUNT (R33). -/
  msgCount  : BitVec 5
  /-- MSG.E[0..24] (R34, R35). -/
  msgE      : Vector MsgEntry 25
  /-- T[0..LPM_ENTRIES-1] (R40). -/
  table     : List Slot
  /-- PBUF and, as the addresses it lists, PW (R36, R37). -/
  pbuf      : Memory
  /-- hb_rdata: what the last completed bus read returned (R62; log 5). -/
  hbRdata   : Word
  /-- The MODEL's own: the host's remaining program (R14, R110; log 4). -/
  program   : List HostOp
  /-- The MODEL's own: who moves next (R256, U3; log 3). -/
  turns     : List Turn
  /-- The MODEL's own: how many unspecified values have been drawn (R67; log 2). -/
  draws     : Nat
  deriving DecidableEq, Repr

/-- The reasons a step stops. Neither is hardware behaviour (R10, R66). -/
inductive Fault where
  /-- ModelFault(UnwrittenPbufRead): a host read of a PBUF word while BUSY = 0 (R66(a); while BUSY = 1 such a read
  draws a free value: DESIGN CHOICE, log 18), or a command whose read set (R66(b)),
  holds a byte nothing has written since reset. Raised by bus reads, CSUM_COMPUTE, CSUM_VERIFY, DISASSEMBLE and
  FORWARD. Safe: the chip goes on with whatever the SRAM holds. -/
  | unwrittenPbufRead
  /-- A bus transaction at an offset at or above 2^ADDR_BITS, which the port cannot carry (R62, R65). Raised by
  the host's transactions. Safe. -/
  | noSuchAddress
  deriving DecidableEq, Repr

/-- The reasons a command has no meaning. -/
inductive Refusal where
  /-- An instruction of the opcode table without a meaning in this model; no arm of exec answers it. Safe. -/
  | notModelled (mnemonic : String)
  deriving DecidableEq, Repr

/-- The state after reset (R45, R281), at the default parameters (R7), with no host program and no schedule. -/
def State.reset : State where
  params    := Params.defaults
  pend      := none
  done      := false
  overrun   := false
  code      := .ok
  arg       := 0#32
  res0      := 0#32
  res1      := 0#32
  res2      := 0#32
  res3      := 0#32
  rtPrefix  := 0#32
  rtLen     := 0#6
  rtIface   := 0#8
  rtNexthop := 0#32
  rtMetric  := 0#5
  msgCmd    := 0#8
  msgCount  := 0#5
  msgE      := Vector.replicate 25 MsgEntry.zero
  table     := List.replicate Params.defaults.lpmEntries Slot.free
  pbuf      := []
  hbRdata   := 0#32
  program   := []
  turns     := []
  draws     := 0

end Sys2Proof.Machine
end

