-- ==== Sys2Proof/Machine/Ops.lean ====
section
/-! DEFINITION. The named operations every meaning is built from: packet-buffer bytes (00_scope.md R10,
20_memory.md R60, R66), acceptance and completion of a command (44_control.md R230, R233), the reset pin
(70_reset_and_hazards.md R280). The block takes no exception: every error is a completion with a non-OK code
(60_exceptions.md R250), so `finish` is the one operation that ends a command. -/

namespace Sys2Proof.Machine

/-- The result of one step or of one command. -/
abbrev Result := Host.Outcome State Fault Refusal

/-! ### The packet buffer -/

/-- The byte at an address, `none` where nothing has been written since reset (R66). -/
def readByte : Memory → Nat → Option Byte
  | [], _ => none
  | (b, v) :: m, a => if a = b then some v else readByte m a

/-- Writes one byte, keeping the addresses rising. -/
def writeByte : Memory → Nat → Byte → Memory
  | [], a, v => [(a, v)]
  | (b, u) :: m, a, v =>
    if a < b then (a, v) :: (b, u) :: m
    else if a = b then (a, v) :: m
    else (b, u) :: writeByte m a v

/-- The `n` bytes from address `a`, lowest address first; `none` if any of them is unwritten (R66). -/
def readBytes (m : Memory) (a : Nat) : Nat → Option (List Byte)
  | 0 => some []
  | n + 1 =>
    match readByte m a, readBytes m (a + 1) n with
    | some b, some bs => some (b :: bs)
    | _, _ => none

/-- Writes bytes at rising addresses from `a`. -/
def writeBytes : Memory → Nat → List Byte → Memory
  | m, _, [] => m
  | m, a, b :: bs => writeBytes (writeByte m a b) (a + 1) bs

/-- The big-endian value of bytes: the first is the most significant (R10, R60). -/
def beWord (bs : List Byte) : Word := bs.foldl (fun acc b => (acc <<< 8) ||| b.setWidth 32) 0#32

/-- The `n` low bytes of a value, most significant first (R10). -/
def beBytes : Nat → Word → List Byte
  | 0, _ => []
  | n + 1, v => v.extractLsb' (8 * n) 8 :: beBytes n v

/-- MemRead(a, n) of R10: `none` if one of the bytes is unwritten. -/
def memRead (m : Memory) (a n : Nat) : Option Word := (readBytes m a n).map beWord

/-- MemWrite(a, n, v) of R10: the most significant byte goes to the lowest address. -/
def memWrite (m : Memory) (a n : Nat) (v : Word) : Memory := writeBytes m a (beBytes n v)

/-- PW[i], the written-byte shadow (10_state.md R37). -/
def State.pw (s : State) (i : Nat) : Bool := (readByte s.pbuf i).isSome

/-! ### The command lifecycle -/

/-- STATUS.BUSY: 1 exactly when PEND is set (10_state.md R43). -/
def State.busy (s : State) : Bool := s.pend.isSome

/-- What an accepted command word makes pending: its command, or ILLEGAL (30_encoding.md R81). -/
def pendingOf (w : Word) : Pending :=
  match decode w with
  | .ok i => .command i
  | .error _ => .illegal

/-- Acceptance of a CMD write while BUSY = 0 (R230). CODE and RES0..RES3 keep their values. -/
def State.accept (s : State) (w : Word) : State :=
  { s with pend := some (pendingOf w), done := false }

/-- Completion (R233): RES0..RES3 and CODE are written, BUSY is cleared with PEND, DONE is set, OVERRUN is kept. -/
def State.complete (s : State) (c : Code) (r0 r1 r2 r3 : Word) : State :=
  { s with res0 := r0, res1 := r1, res2 := r2, res3 := r3, code := c, done := true, pend := none }

/-- `finish(CODE, r0, r1, r2, r3)` (R10, R233). -/
def finish (s : State) (c : Code) (r0 r1 r2 r3 : Word) : Result := .next (s.complete c r0 r1 r2 r3)

/-- A completion with a non-OK code whose four results are 0 (30_encoding.md R83). -/
def finishError (s : State) (c : Code) : Result := finish s c 0#32 0#32 0#32 0#32

/-- A step with the reset pin asserted (R280): every state element of the block takes its reset value, a pending
command is abandoned, PBUF becomes unwritten. The host's program, the schedule and the draw counter are not the
block's and stay (log 10). -/
def State.resetPin (s : State) : State :=
  { State.reset with
    params  := s.params
    table   := List.replicate s.params.lpmEntries Slot.free
    program := s.program
    turns   := s.turns
    draws   := s.draws }

end Sys2Proof.Machine
end

