-- ==== Sys2Proof/Machine/Flags.lean ====
section
/-! DEFINITION. STATUS, the block's only flag register (10_state.md R24), the numbers of the result codes and
reject reasons (30_encoding.md R90, R91), and the packed words of PARAMS (R22) and LPM_READ (R92). -/

namespace Sys2Proof.Machine

/-- The number of a result code (R90). -/
def Code.num (c : Code) : Byte :=
  match c with
  | .ok => 0x00#8
  | .reject => 0x01#8
  | .notFound => 0x02#8
  | .deleteMiss => 0x03#8
  | .tableFull => 0x04#8
  | .badArg => 0x05#8
  | .range => 0x06#8
  | .badIhl => 0x07#8
  | .badCsum => 0x08#8
  | .ttlExpired => 0x09#8
  | .illegal => 0xFF#8

/-- Why DISASSEMBLE rejects a packet (R91). -/
inductive RejectReason where
  | short | ihl | size | oversize | command | version | reserved | family | tag | mask | metric
  deriving DecidableEq, Repr

/-- The number of a reject reason in RES0 (R91). -/
def RejectReason.num (r : RejectReason) : Word :=
  match r with
  | .short => 1#32
  | .ihl => 2#32
  | .size => 3#32
  | .oversize => 4#32
  | .command => 5#32
  | .version => 6#32
  | .reserved => 7#32
  | .family => 8#32
  | .tag => 9#32
  | .mask => 10#32
  | .metric => 11#32

/-- A one-bit field. -/
def flagBit (b : Bool) : BitVec 1 := BitVec.ofBool b

/-- The STATUS word (R24): [0] BUSY, [1] DONE, [2] OVERRUN, [15:8] CODE, the rest 0. -/
def State.statusWord (s : State) : Word :=
  0#16 ++ s.code.num ++ 0#5 ++ flagBit s.overrun ++ flagBit s.done ++ flagBit s.busy

/-- The PARAMS word (R22): MSG_MAX[7:0] ++ LPM_ENTRIES[7:0] ++ PBUF_BYTES[15:0]. -/
def Params.word (p : Params) : Word :=
  BitVec.ofNat 8 msgMax ++ BitVec.ofNat 8 p.lpmEntries ++ BitVec.ofNat 16 p.pbufBytes

/-- The ID word (R21), the ASCII bytes "RIP2". -/
def idWord : Word := 0x52495032#32

/-- The packed word of a slot (R92): [31] VALID, [20:16] METRIC, [15:8] IFACE, [5:0] LEN, the rest 0. -/
def Slot.packed (t : Slot) : Word :=
  flagBit t.valid ++ 0#10 ++ t.metric ++ t.iface ++ 0#2 ++ t.len

/-- A verdict bit as a result word: 1 or 0. -/
def boolWord (b : Bool) : Word := if b then 1#32 else 0#32

end Sys2Proof.Machine
end

