-- ==== Sys2Proof/Machine/Operands.lean ====
section
/-! DEFINITION. How a command reads its operands: mask arithmetic (00_scope.md R11), bytes of a packet, the IPv4
header region and its one's-complement sum (40_checksum.md R120 to R122), the route table's searches
(42_lpm_table.md R170, R171, R174, R185). -/

namespace Sys2Proof.Machine

/-! ### Masks (R11) -/

/-- maskOf(l), defined by R11 for l ≤ 32; above 32 this function answers all ones (log 8). -/
def maskOf (l : Nat) : Word := if l = 0 then 0#32 else 0xFFFFFFFF#32 <<< (32 - l)

/-- isCidr(m): inv & (inv + 1) = 0 where inv = ~m (R11). -/
def isCidr (m : Word) : Bool := (~~~m &&& (~~~m + 1#32)) == 0#32

/-- The number of one bits of `m` from bit `n - 1` down to the first zero. -/
def leadingOnes (m : Word) : Nat → Nat
  | 0 => 0
  | n + 1 => if m.getLsbD n then leadingOnes m n + 1 else 0

/-- lenOf(m): the number of leading one bits from bit 31 down (R11). The block never applies it; the host's
route-update decisions do (92_eei_decisions.md D38). -/
def lenOf (m : Word) : Nat := leadingOnes m 32

/-! ### Bytes of a packet -/

/-- Byte `i` of a packet. Every use is inside the packet. -/
def byteAt (bs : List Byte) (i : Nat) : Byte := bs.getD i 0#8

/-- be16(i) or be32(i) of a packet (R10): the big-endian value of the `n` bytes from offset `i`. -/
def beAt (bs : List Byte) (i n : Nat) : Word := beWord ((bs.drop i).take n)

/-- ihl = PBUF[0][3:0] (R120). -/
def ihlOf (b : Byte) : Nat := (b.extractLsb' 0 4).toNat

/-! ### The header region (R120, R121) -/

/-- What a command that works on the IPv4 header finds at PBUF[0]. -/
inductive HeaderOperand where
  /-- A byte of the read set is unwritten (20_memory.md R66(b)). -/
  | unwritten
  /-- ihl < 5 (R121). -/
  | badIhl
  /-- PBUF[0 .. 4·ihl-1]. -/
  | bytes (hdr : List Byte)
  deriving DecidableEq, Repr

/-- The header operand of CSUM_COMPUTE, CSUM_VERIFY and FORWARD. The read set is PBUF[0] when ihl < 5, else
PBUF[0 .. 4·ihl-1] (R121). -/
def headerOperand (m : Memory) : HeaderOperand :=
  match readByte m 0 with
  | none => .unwritten
  | some b =>
    if ihlOf b < 5 then .badIhl
    else
      match readBytes m 0 (4 * ihlOf b) with
      | none => .unwritten
      | some hdr => .bytes hdr

/-! ### The one's-complement sum (R122) -/

/-- Whether bytes 10–11 are summed as stored or as 0. -/
inductive CsumField where
  | keep | zero
  deriving DecidableEq, Repr

/-- The 16-bit big-endian words of an even-length region. -/
def halves : List Byte → List Half
  | a :: b :: bs => (a ++ b) :: halves bs
  | _ => []

/-- The words that are summed: word 5, bytes 10–11, is the checksum field. -/
def summedHalves (z : CsumField) (hdr : List Byte) : List Half :=
  match z with
  | .keep => halves hdr
  | .zero => (halves hdr).set 5 0#16

/-- The unbounded sum of R122. -/
def rawSum (z : CsumField) (hdr : List Byte) : Nat := ((summedHalves z hdr).map BitVec.toNat).sum

/-- One fold of the carry-out into the low 16 bits, repeated at most `n` times. -/
def foldCarry : Nat → Nat → Nat
  | 0, s => s
  | n + 1, s => if s > 0xFFFF then foldCarry n (s % 0x10000 + s / 0x10000) else s

/-- fold16 of R11. The number of folds is bounded by s >> 16, plus one, so the loop has ended by then. -/
def fold16 (s : Nat) : Nat := foldCarry (s / 0x10000 + 1) s

/-- hsum(z): 16 bits (R122). -/
def hsum (z : CsumField) (hdr : List Byte) : Nat := fold16 (rawSum z hdr)

/-- csum(z) = ~hsum(z) (R122). -/
def csum (z : CsumField) (hdr : List Byte) : Half := ~~~(BitVec.ofNat 16 (hsum z hdr))

/-- The stored checksum, be16(10) (R128). -/
def savedCsum (hdr : List Byte) : Half := (beAt hdr 10 2).setWidth 16

/-! ### The route table -/

/-- Slot `t` matches address `a` (42_lpm_table.md R170). -/
def Slot.covers (t : Slot) (a : Word) : Bool := t.valid && (a &&& maskOf t.len.toNat) == t.pfx

/-- Slot `t` holds the key (p, l) (R171). -/
def Slot.hasKey (t : Slot) (p : Word) (l : BitVec 6) : Bool := t.valid && t.pfx == p && t.len == l

/-- findKey(p, l): the slot with that key (R171). -/
def findKey (tbl : List Slot) (p : Word) (l : BitVec 6) : Option Nat :=
  tbl.findIdx? (fun t => t.hasKey p l)

/-- The lowest slot with VALID = 0 (R174). -/
def freeSlot (tbl : List Slot) : Option Nat := tbl.findIdx? (fun t => !t.valid)

/-- Slot `t` is strictly longer than the best match so far, or there is none yet (R185). -/
def longerThan (t : Slot) (best : Option (Nat × Slot)) : Bool :=
  match best with
  | none => true
  | some b => decide (b.2.len.toNat < t.len.toNat)

/-- The scan of LPM_LOOKUP from slot `k` on (R185): `best` is replaced only by a strictly greater length, so
the lowest slot wins a tie (R186). -/
def scanLongest (a : Word) : List Slot → Nat → Option (Nat × Slot) → Option (Nat × Slot)
  | [], _, best => best
  | t :: ts, k, best => scanLongest a ts (k + 1) (if t.covers a && longerThan t best then some (k, t) else best)

/-- The slot LPM_LOOKUP answers, with its number (R185). -/
def longestMatch (tbl : List Slot) (a : Word) : Option (Nat × Slot) := scanLongest a tbl 0 none

/-- Slot `s` of T; every use is at a slot number below LPM_ENTRIES. -/
def slotAt (tbl : List Slot) (k : Nat) : Slot := tbl.getD k Slot.free

/-- legal(p, l, m) of R173. -/
def legalRoute (p : Word) (l : BitVec 6) (m : BitVec 5) : Bool :=
  decide (l.toNat ≤ 32) && (p &&& ~~~(maskOf l.toNat)) == 0#32
    && decide (1 ≤ m.toNat) && decide (m.toNat ≤ metricInf)

/-- A slot number as a result word. -/
def slotWord (k : Nat) : Word := BitVec.ofNat 32 k

end Sys2Proof.Machine
end

