-- ==== Sys2Proof/Machine/Bus.lean ====
section
/-! DEFINITION. The host's bus transactions on the register map (10_state.md R20 to R46, 20_memory.md R61 to R68). -/

namespace Sys2Proof.Machine

/-- A field of a MSG entry (R34). -/
def MsgEntry.get (x : MsgEntry) (f : MsgField) : Word :=
  match f with
  | .addr => x.addr
  | .mask => x.mask
  | .nexthop => x.nexthop
  | .metric => x.metric

/-- A MSG entry with one field written (R34). -/
def MsgEntry.put (x : MsgEntry) (f : MsgField) (w : Word) : MsgEntry :=
  match f with
  | .addr => { x with addr := w }
  | .mask => { x with mask := w }
  | .nexthop => { x with nexthop := w }
  | .metric => { x with metric := w }

/-- What a register reads as while BUSY = 0 (R20 to R34, R46(d), R61): reserved bits are 0, CMD reads 0; `none` for
a PBUF word with an unwritten byte (R66(a), which this model applies while BUSY = 0 only, log 18). -/
def readReg (s : State) (r : Reg) : Option Word :=
  match r with
  | .id => some idWord
  | .params => some (Params.word s.params)
  | .cmd => some 0#32
  | .status => some s.statusWord
  | .arg => some s.arg
  | .res0 => some s.res0
  | .res1 => some s.res1
  | .res2 => some s.res2
  | .res3 => some s.res3
  | .rtPrefix => some s.rtPrefix
  | .rtLen => some (s.rtLen.setWidth 32)
  | .rtIface => some (s.rtIface.setWidth 32)
  | .rtNexthop => some s.rtNexthop
  | .rtMetric => some (s.rtMetric.setWidth 32)
  | .msgCmd => some (s.msgCmd.setWidth 32)
  | .msgCount => some (s.msgCount.setWidth 32)
  | .msg i f => some ((s.msgE.get i).get f)
  | .pbufWord k => memRead s.pbuf (4 * k) 4

/-- Whether a read of the register is defined while BUSY = 1 (R67): ID, PARAMS, STATUS, and CMD, which reads 0. -/
def definedWhileBusy (r : Reg) : Bool :=
  match r with
  | .id | .params | .cmd | .status => true
  | .arg | .res0 | .res1 | .res2 | .res3 | .rtPrefix | .rtLen | .rtIface | .rtNexthop | .rtMetric
  | .msgCmd | .msgCount | .msg _ _ | .pbufWord _ => false

/-- The effect of a host write on a register while BUSY = 0 (R21 to R34, R46, R61): read-only registers ignore it,
fields truncate it, CMD accepts a command (R230), STATUS bit 2 clears OVERRUN (R24), MSG_COUNT ignores a value
above 25 (R33). -/
def writeReg (s : State) (r : Reg) (w : Word) : State :=
  match r with
  | .id | .params | .res0 | .res1 | .res2 | .res3 => s
  | .cmd => s.accept w
  | .status => if w.getLsbD 2 then { s with overrun := false } else s
  | .arg => { s with arg := w }
  | .rtPrefix => { s with rtPrefix := w }
  | .rtLen => { s with rtLen := w.extractLsb' 0 6 }
  | .rtIface => { s with rtIface := w.extractLsb' 0 8 }
  | .rtNexthop => { s with rtNexthop := w }
  | .rtMetric => { s with rtMetric := w.extractLsb' 0 5 }
  | .msgCmd => { s with msgCmd := w.extractLsb' 0 8 }
  | .msgCount => if w.toNat ≤ msgMax then { s with msgCount := w.extractLsb' 0 5 } else s
  | .msg i f => { s with msgE := s.msgE.set i ((s.msgE.get i).put f w) }
  | .pbufWord k => { s with pbuf := memWrite s.pbuf (4 * k) 4 w }

/-- A bus read completes with this data (R62). -/
def State.returns (s : State) (v : Word) : State := { s with hbRdata := v }

/-- A read that returns an unspecified value: a fresh draw (R67, U2). -/
def State.drawn (s : State) : State :=
  { s with hbRdata := Config.busyRead s.draws, draws := s.draws + 1 }

/-- A host read of a byte offset (R46, R66(a), R67). An unmapped offset reads 0, whatever BUSY is. While BUSY = 1 a read
of a PBUF word with an unwritten byte falls under both R66(a), a fault, and R67 (with R293), a fresh draw, and no text
of the spec ranks them: the model draws (DESIGN CHOICE, safe: the value is left free, log 18). -/
def busRead (s : State) (off : Nat) : Result :=
  if off ≥ 2 ^ s.params.addrBits then .fault .noSuchAddress
  else
    match regAt s.params off with
    | none => .next (s.returns 0#32)
    | some r =>
      if s.busy && !definedWhileBusy r then .next s.drawn
      else
        match readReg s r with
        | none => .fault .unwrittenPbufRead
        | some v => .next (s.returns v)

/-- A host write at a byte offset (R46, R68). While BUSY = 1 it is dropped and sets OVERRUN, at any offset. -/
def busWrite (s : State) (off : Nat) (w : Word) : Result :=
  if off ≥ 2 ^ s.params.addrBits then .fault .noSuchAddress
  else if s.busy then .next { s with overrun := true }
  else
    match regAt s.params off with
    | none => .next s
    | some r => .next (writeReg s r w)

/-- The host's step: its next transaction. `wait` reads STATUS and stays while bit 0 is 1 (30_encoding.md R111).
With no transaction left the bus is idle. -/
def hostStep (s : State) : Result :=
  match s.program with
  | [] => .next s
  | .rd a :: ops => busRead { s with program := ops } (BusAddr.offset a)
  | .wr a w :: ops => busWrite { s with program := ops } (BusAddr.offset a) w
  | .wait :: ops =>
    if s.statusWord.getLsbD 0 then .next (s.returns s.statusWord)
    else .next ({ s with program := ops }.returns s.statusWord)

end Sys2Proof.Machine
end

