-- ==== Sys2Proof/Machine/Checksum.lean ====
section
/-! DEFINITION. The IPv4 header checksum unit (40_checksum.md). -/

namespace Sys2Proof.Machine

/-- CSUM_COMPUTE (R125): the checksum of the header region as it stands, bytes 10–11 summed as stored. -/
def execCsumCompute (s : State) : Result :=
  match headerOperand s.pbuf with
  | .unwritten => .fault .unwrittenPbufRead
  | .badIhl => finishError s .badIhl
  | .bytes hdr => finish s .ok ((csum .keep hdr).setWidth 32) 0#32 0#32 0#32

/-- CSUM_VERIFY (R128): recompute with the field as 0 and compare with the stored field. PBUF is not written. -/
def execCsumVerify (s : State) : Result :=
  match headerOperand s.pbuf with
  | .unwritten => .fault .unwrittenPbufRead
  | .badIhl => finishError s .badIhl
  | .bytes hdr =>
    let saved := savedCsum hdr
    let c := csum .zero hdr
    finish s .ok (boolWord (c == saved)) (c.setWidth 32) (saved.setWidth 32) 0#32

end Sys2Proof.Machine
end

