-- ==== Sys2Proof/Machine/Codec.lean ====
section
/-! DEFINITION. The RIP packet codec (41_codec.md): DISASSEMBLE and ASSEMBLE over the wire formats of
30_encoding.md R102 to R104. -/

namespace Sys2Proof.Machine

/-! ### DISASSEMBLE -/

/-- The family an entry carries under a RIP command: 2 in a Response, else 0 (R140, R152). -/
def familyOf (cmd : Byte) : Word := if cmd = 2#8 then 2#32 else 0#32

/-- The metric check of R140: exactly 16 in a Request, 1..16 in a Response. -/
def metricBad (cmd : Byte) (met : Word) : Bool :=
  (cmd == 1#8 && decide (met.toNat ≠ metricInf))
    || (cmd == 2#8 && (decide (met.toNat < 1) || decide (met.toNat > metricInf)))

/-- One RIP entry at packet offset `e` (30_encoding.md R103), with the checks in the order family, tag, mask,
metric (R142) and the address and next hop masked (R143). -/
def parseEntry (cmd : Byte) (bs : List Byte) (e : Nat) : Except RejectReason MsgEntry :=
  let m := beAt bs (e + 8) 4
  let met := beAt bs (e + 16) 4
  if beAt bs e 2 ≠ familyOf cmd then .error .family
  else if beAt bs (e + 2) 2 ≠ 0#32 then .error .tag
  else if !isCidr m then .error .mask
  else if metricBad cmd met then .error .metric
  else .ok { addr := beAt bs (e + 4) 4 &&& m, mask := m, nexthop := beAt bs (e + 12) 4 &&& m, metric := met }

/-- The `n` entries from entry number `j`, at offset `e`; the first failing entry decides (R142). -/
def parseEntries (cmd : Byte) (bs : List Byte) : Nat → Nat → Nat → Except (RejectReason × Nat) (List MsgEntry)
  | 0, _, _ => .ok []
  | n + 1, j, e =>
    match parseEntry cmd bs e with
    | .error r => .error (r, j)
    | .ok x =>
      match parseEntries cmd bs n (j + 1) (e + entryBytes) with
      | .error rj => .error rj
      | .ok xs => .ok (x :: xs)

/-- The RIP header offset h = 4·ihl + 8 (R104, R140). -/
def ripOffset (bs : List Byte) : Nat := 4 * ihlOf (byteAt bs 0) + udpHdrBytes

/-- The checks of R140 on a packet of at least 20 bytes, in the order of R142: the RIP command and the entries,
or the first failing check with its entry index. -/
def parsePacket (bs : List Byte) : Except (RejectReason × Nat) (Byte × List MsgEntry) :=
  let h := ripOffset bs
  let body := h + ripHdrBytes
  let cmd := byteAt bs h
  if ihlOf (byteAt bs 0) < 5 then .error (.ihl, 0)
  else if bs.length < body then .error (.short, 0)
  else if (bs.length - body) % entryBytes ≠ 0 then .error (.size, 0)
  else if (bs.length - body) / entryBytes > msgMax then .error (.oversize, 0)
  else if cmd ≠ 1#8 ∧ cmd ≠ 2#8 then .error (.command, 0)
  else if byteAt bs (h + 1) ≠ 2#8 then .error (.version, 0)
  else if byteAt bs (h + 2) ≠ 0#8 ∨ byteAt bs (h + 3) ≠ 0#8 then .error (.reserved, 0)
  else
    match parseEntries cmd bs ((bs.length - body) / entryBytes) 0 body with
    | .error rj => .error rj
    | .ok es => .ok (cmd, es)

/-- MSG.E[j] <- the entries, from index `j` on; the other entries keep their values (R144). -/
def storeEntries (v : Vector MsgEntry 25) : Nat → List MsgEntry → Vector MsgEntry 25
  | _, [] => v
  | j, x :: xs => storeEntries (v.setIfInBounds j x) (j + 1) xs

/-- reject(r, j) of R140. -/
def finishReject (s : State) (r : RejectReason) (j : Nat) : Result :=
  finish s .reject r.num (BitVec.ofNat 32 j) 0#32 0#32

/-- DISASSEMBLE (R140 to R146). The read set is PBUF[0..LEN-1] when 20 ≤ LEN ≤ PBUF_BYTES (R141): it is read
whole before any check of the packet's contents (log 11). MSG is written only on OK (R144). -/
def execDisassemble (s : State) : Result :=
  if s.arg.toNat > s.params.pbufBytes then finishError s .range
  else if s.arg.toNat < 20 then finishReject s .short 0
  else
    match readBytes s.pbuf 0 s.arg.toNat with
    | none => .fault .unwrittenPbufRead
    | some bs =>
      match parsePacket bs with
      | .error (r, j) => finishReject s r j
      | .ok (cmd, es) =>
        finish { s with msgCmd := cmd, msgCount := BitVec.ofNat 5 es.length, msgE := storeEntries s.msgE 0 es }
          .ok (BitVec.ofNat 32 es.length) 0#32 0#32 0#32

/-! ### ASSEMBLE -/

/-- The 20 bytes of one entry (30_encoding.md R103, R150): family, zero tag, then the four fields as held. -/
def entryWire (cmd : Byte) (x : MsgEntry) : List Byte :=
  beBytes 2 (familyOf cmd) ++ beBytes 2 0#32 ++ beBytes 4 x.addr ++ beBytes 4 x.mask
    ++ beBytes 4 x.nexthop ++ beBytes 4 x.metric

/-- The RIP payload of MSG (R150): command byte as held, version 2, two zero bytes, MSG.E[0..COUNT-1]. -/
def payload (s : State) : List Byte :=
  [s.msgCmd, 2#8, 0#8, 0#8] ++ ((s.msgE.toList.take s.msgCount.toNat).map (entryWire s.msgCmd)).flatten

/-- size = 4 + 20·n (R150). -/
def payloadSize (s : State) : Nat := ripHdrBytes + entryBytes * s.msgCount.toNat

/-- ASSEMBLE (R150 to R153). The writes of R150 go to adjacent rising offsets, so they are one run of bytes; the
bound is checked in unbounded arithmetic (R151). -/
def execAssemble (s : State) : Result :=
  if s.arg.toNat + payloadSize s > s.params.pbufBytes then finishError s .range
  else
    finish { s with pbuf := writeBytes s.pbuf s.arg.toNat (payload s) }
      .ok (BitVec.ofNat 32 (payloadSize s)) 0#32 0#32 0#32

end Sys2Proof.Machine
end

