-- ==== Sys2Proof/Machine/Control.lean ====
section
/-! DEFINITION. NOP and ILLEGAL (44_control.md R232, R234). -/

namespace Sys2Proof.Machine

/-- NOP (R232): completes with no effect. -/
def execNop (s : State) : Result := finish s .ok 0#32 0#32 0#32 0#32

/-- ILLEGAL (R234): a pending word that decodes to no command completes with CODE = ILLEGAL. -/
def execIllegal (s : State) : Result := finishError s .illegal

end Sys2Proof.Machine
end

