-- ==== Sys2Proof/Machine/Forward.lean ====
section
/-! DEFINITION. The forwarding rewrite engine (43_forward.md). -/

namespace Sys2Proof.Machine

/-- FORWARD (R210 to R213): IHL, then checksum, then TTL are checked (R211); then TTL is decremented and the
checksum recomputed in full over the header with the new TTL (R212). -/
def execForward (s : State) : Result :=
  match headerOperand s.pbuf with
  | .unwritten => .fault .unwrittenPbufRead
  | .badIhl => finishError s .badIhl
  | .bytes hdr =>
    let ttl := byteAt hdr 8
    if csum .zero hdr ≠ savedCsum hdr then finishError s .badCsum
    else if ttl = 0#8 then finishError s .ttlExpired
    else
      let t2 := ttl - 1#8
      let c2 := csum .zero (hdr.set 8 t2)
      finish { s with pbuf := memWrite (memWrite s.pbuf 8 1 (t2.setWidth 32)) 10 2 (c2.setWidth 32) }
        .ok (t2.setWidth 32) (c2.setWidth 32) (boolWord (t2 == 0#8)) 0#32

end Sys2Proof.Machine
end

