-- ==== Sys2Proof/Machine/Table.lean ====
section
/-! DEFINITION. The longest-prefix-match routing table (42_lpm_table.md). -/

namespace Sys2Proof.Machine

/-- A staged route as the contents of a new slot (R172). -/
def State.stagedSlot (s : State) : Slot :=
  { valid := true, pfx := s.rtPrefix, len := s.rtLen, iface := s.rtIface, nexthop := s.rtNexthop,
    metric := s.rtMetric }

/-- A replace writes IFACE, NEXTHOP and METRIC and leaves VALID, PREFIX and LEN (R175). -/
def State.replaceIn (s : State) (t : Slot) : Slot :=
  { t with iface := s.rtIface, nexthop := s.rtNexthop, metric := s.rtMetric }

/-- LPM_INSERT (R172 to R176): replace in place, else the lowest free slot, else TABLE_FULL. -/
def execLpmInsert (s : State) : Result :=
  if !legalRoute s.rtPrefix s.rtLen s.rtMetric then finishError s .badArg
  else
    match findKey s.table s.rtPrefix s.rtLen with
    | some k =>
      finish { s with table := s.table.set k (s.replaceIn (slotAt s.table k)) } .ok (slotWord k) 1#32 0#32 0#32
    | none =>
      match freeSlot s.table with
      | none => finishError s .tableFull
      | some f => finish { s with table := s.table.set f s.stagedSlot } .ok (slotWord f) 0#32 0#32 0#32

/-- LPM_DELETE (R180): the slot with the key becomes free. -/
def execLpmDelete (s : State) : Result :=
  match findKey s.table s.rtPrefix s.rtLen with
  | none => finishError s .deleteMiss
  | some k => finish { s with table := s.table.set k Slot.free } .ok (slotWord k) 0#32 0#32 0#32

/-- LPM_LOOKUP (R185, R186). -/
def execLpmLookup (s : State) : Result :=
  match longestMatch s.table s.arg with
  | none => finishError s .notFound
  | some (k, t) => finish s .ok t.nexthop (t.iface.setWidth 32) (slotWord k) (t.len.setWidth 32)

/-- LPM_FIND (R190). -/
def execLpmFind (s : State) : Result :=
  match findKey s.table s.rtPrefix s.rtLen with
  | none => finishError s .notFound
  | some k =>
    let t := slotAt s.table k
    finish s .ok t.nexthop (t.iface.setWidth 32) (slotWord k) (t.metric.setWidth 32)

/-- LPM_READ (R195, 30_encoding.md R92). -/
def execLpmRead (s : State) : Result :=
  if s.arg.toNat ≥ s.params.lpmEntries then finishError s .badArg
  else
    let t := slotAt s.table s.arg.toNat
    finish s .ok t.pfx t.nexthop t.packed 0#32

/-- LPM_CLEAR (R200): T as after reset. -/
def execLpmClear (s : State) : Result :=
  finish { s with table := s.table.map (fun _ => Slot.free) } .ok 0#32 0#32 0#32 0#32

end Sys2Proof.Machine
end

