-- ==== Sys2Proof/Machine/Dispatch.lean ====
section
/-! DEFINITION. The engine's execution of one command (44_control.md R231): one arm per command. -/

namespace Sys2Proof.Machine

def exec (i : Instr) (s : State) : Host.Outcome State Fault Refusal :=
  match i with
  | .nop => Sys2Proof.Machine.execNop s
  | .csumCompute => Sys2Proof.Machine.execCsumCompute s
  | .csumVerify => Sys2Proof.Machine.execCsumVerify s
  | .disassemble => Sys2Proof.Machine.execDisassemble s
  | .assemble => Sys2Proof.Machine.execAssemble s
  | .lpmInsert => Sys2Proof.Machine.execLpmInsert s
  | .lpmDelete => Sys2Proof.Machine.execLpmDelete s
  | .lpmLookup => Sys2Proof.Machine.execLpmLookup s
  | .lpmFind => Sys2Proof.Machine.execLpmFind s
  | .lpmRead => Sys2Proof.Machine.execLpmRead s
  | .lpmClear => Sys2Proof.Machine.execLpmClear s
  | .forward => Sys2Proof.Machine.execForward s

end Sys2Proof.Machine
end

