-- ==== Sys2Proof/Machine/Engine.lean ====
section
/-! DEFINITION. The engine's step (44_control.md R231) and who moves (60_exceptions.md R256). -/

namespace Sys2Proof.Machine

/-- The engine executes the whole rule of the pending command (R231); with none pending it has no step, and
nothing changes. -/
def engineStep (s : State) : Result :=
  match s.pend with
  | none => .next s
  | some .illegal => execIllegal s
  | some (.command i) => exec i s

/-- The next move: the head of the schedule; with no schedule, a pending command completes before the host moves
on (the fairness of R235; log 3). -/
def move (s : State) : Result :=
  match s.turns with
  | [] => if s.busy then engineStep s else hostStep s
  | .host :: ts => hostStep { s with turns := ts }
  | .engine :: ts => engineStep { s with turns := ts }
  | .reset :: ts => .next { s with turns := ts }.resetPin

/-- The state in which a command word has been accepted and the engine moves next: PEND is where the block fetches
its next command from (R72, R230; log 9). -/
def placeCommand (s : State) (w : Word) : State :=
  { s.accept w with turns := .engine :: s.turns }

end Sys2Proof.Machine
end

