-- ==== Sys2Proof/Machine/Step.lean ====
section
/-! DEFINITION. One step of the machine: one bus transaction, one whole command, or one assertion of reset
(00_scope.md R6). -/

namespace Sys2Proof.Machine

/-- One step (R6, R14). -/
def step (s : State) : Host.Outcome State Fault Refusal := move s

/-- The state with a command word of `nbits` bits pending and the engine to move: the very next step runs it. -/
def State.withFetchWord (s : State) (nbits w : Nat) : State :=
  placeCommand s (BitVec.ofNat 32 (w % 2 ^ nbits))

end Sys2Proof.Machine
end

