-- ==== Sys2Proof/Machine/Assembly.lean ====
section
/-! DEFINITION. Host assembly: each line as the bus transactions it stands for (30_encoding.md R110 to R113). -/

namespace Sys2Proof.Machine

/-- The bus address of a line's register operand (R110). An operand that `Target.wf` refuses because no port carries it
is cut as `busAddr` says (log 19). -/
def targetAddr (t : Target) : BusAddr :=
  match t with
  | .reg r => busAddr r.offset
  | .at off => busAddr off

/-- `pbuf off: w0 w1 …`: PBUF word writes in order (R112). An offset that no port carries is cut as `busAddr` says
(log 19). -/
def pbufOps : Nat → List Word → List HostOp
  | _, [] => []
  | off, w :: ws => .wr (busAddr (0x1000 + off)) w :: pbufOps (off + 4) ws

/-- The transactions of one line (R110, R111, R112, R113). A line that `HostLine.wf` refuses is expanded all the same
(log 19). -/
def expandLine (l : HostLine) : List HostOp :=
  match l with
  | .wr t v => [.wr (targetAddr t) v]
  | .rd t => [.rd (targetAddr t)]
  | .cmd i => [.wr (busAddr Reg.cmd.offset) (encode i)]
  | .wait => [.wait]
  | .pbuf off ws => pbufOps off ws

/-- A host program (R110). -/
def expand (ls : List HostLine) : List HostOp := (ls.map expandLine).flatten

end Sys2Proof.Machine
end

