-- ==== Sys2Proof/Safety.lean ====
section
/-! DEFINITION. The terms claims are stated in: the outcomes of one move, the invariants the spec gives the
state, and fields of a packet as numbers. -/

namespace Sys2Proof.Machine

/-! ### Outcomes -/

/-- The next state, where there is one. -/
def nextOf (r : Result) : Option State :=
  match r with
  | .next t => some t
  | .fault _ => none
  | .refused _ => none

/-- The fault, where there is one. -/
def faultOf (r : Result) : Option Fault :=
  match r with
  | .next _ => none
  | .fault f => some f
  | .refused _ => none

/-! ### One move of each agent, from any state

The state gets the move as its next one; the step uses it up, so a state that a move leaves unchanged is `s`. A byte
offset that no port carries is cut as `busAddr` says (log 19). -/

/-- The host's next transaction is a read of the byte offset, and the host moves (20_memory.md R62). -/
def hostReads (s : State) (off : Nat) : Result :=
  step { s with turns := .host :: s.turns, program := .rd (busAddr off) :: s.program }

/-- The host's next transaction is a write of `w` at the byte offset, and the host moves. -/
def hostWrites (s : State) (off : Nat) (w : Word) : Result :=
  step { s with turns := .host :: s.turns, program := .wr (busAddr off) w :: s.program }

/-- The engine moves (44_control.md R231). -/
def engineMoves (s : State) : Result := step { s with turns := .engine :: s.turns }

/-- The reset pin is asserted for one step (70_reset_and_hazards.md R280). -/
def resetMoves (s : State) : Result := step { s with turns := .reset :: s.turns }

/-- `k` moves of the host, whatever its program holds; `none` if one of them faults. -/
def hostMoves : Nat → State → Option State
  | 0, s => some s
  | k + 1, s => (nextOf (step { s with turns := .host :: s.turns })).bind (hostMoves k)

/-! ### Bytes and fields of the packet buffer, as numbers -/

/-- PBUF[a] as a number; every use is at a written byte. -/
def byteNum (m : Memory) (a : Nat) : Nat := ((readByte m a).getD 0#8).toNat

/-- be16(a) (00_scope.md R10). -/
def num16 (m : Memory) (a : Nat) : Nat := byteNum m a * 256 + byteNum m (a + 1)

/-- be32(a) (R10). -/
def num32 (m : Memory) (a : Nat) : Nat := num16 m a * 65536 + num16 m (a + 2)

/-- Bytes `a .. a + n - 1` have all been written (R66). -/
abbrev Written (m : Memory) (a n : Nat) : Prop := ∀ i, i < n → (readByte m (a + i)).isSome

/-- ihl of the header at PBUF[0] (40_checksum.md R120). -/
def ihlNum (m : Memory) : Nat := byteNum m 0 % 16

/-- The header at PBUF[0] is one the checksum unit accepts: written, with ihl ≥ 5 (R121). -/
abbrev HeaderReady (m : Memory) : Prop := 5 ≤ ihlNum m ∧ Written m 0 (4 * ihlNum m)

/-- The sum of the first `n` 16-bit words of the header, as stored (R122, z = keep). -/
def wordSum (m : Memory) : Nat → Nat
  | 0 => 0
  | n + 1 => wordSum m n + num16 m (2 * n)

/-- The unbounded sum of the header's words as stored: 2·ihl of them (R122). -/
def headerSum (m : Memory) : Nat := wordSum m (2 * ihlNum m)

/-- The header verifies (R128): the stored field is not 0xFFFF and the sum of all words is 0 modulo 0xFFFF, which is
what equality of the stored with the recomputed checksum means in numbers (R123). -/
abbrev HeaderValid (m : Memory) : Prop :=
  HeaderReady m ∧ num16 m 10 < 65535 ∧ headerSum m % 65535 = 0

/-- How many bytes from PBUF[0] a command's read set holds (20_memory.md R66(b)): the header region for the header
commands (40_checksum.md R121), LEN bytes for DISASSEMBLE (41_codec.md R141), none for the others. -/
def readSetSize (i : Instr) (s : State) : Nat :=
  match i with
  | .csumCompute | .csumVerify | .forward => if ihlNum s.pbuf < 5 then 1 else 4 * ihlNum s.pbuf
  | .disassemble => if 20 ≤ s.arg.toNat ∧ s.arg.toNat ≤ s.params.pbufBytes then s.arg.toNat else 0
  | .nop | .assemble | .lpmInsert | .lpmDelete | .lpmLookup | .lpmFind | .lpmRead | .lpmClear => 0

/-! ### Well-formed RIP entries (30_encoding.md R103) -/

/-- A CIDR mask: maskOf(l) for some l in 0..32 (R11). -/
abbrev CidrMask (m : Word) : Prop := ∃ l, l ≤ 32 ∧ m = maskOf l

/-- The family of a RIP command's entries: 2 in a Response, else 0 (R103, R152). -/
def familyNum (cmd : Nat) : Nat := if cmd = 2 then 2 else 0

/-- The metric a RIP command allows: exactly 16 in a Request, 1..16 in a Response (R140). -/
abbrev MetricLegal (cmd met : Nat) : Prop :=
  (cmd = 1 → met = 16) ∧ (cmd = 2 → 1 ≤ met ∧ met ≤ 16)

/-- The entry at PBUF[e..e+19] passes the checks of R140 under the RIP command `cmd`. -/
abbrev EntryLegal (m : Memory) (cmd e : Nat) : Prop :=
  num16 m e = familyNum cmd ∧ num16 m (e + 2) = 0
    ∧ CidrMask (BitVec.ofNat 32 (num32 m (e + 8))) ∧ MetricLegal cmd (num32 m (e + 16))

/-- The offset of entry `j` (R103): e = h + 4 + 20·j. -/
def entryStart (m : Memory) (j : Nat) : Nat := 4 * ihlNum m + 8 + 4 + 20 * j

/-- The MSG entry the block decodes from PBUF[e..e+19] (R140, R143). -/
def entryOf (m : Memory) (e : Nat) : MsgEntry :=
  { addr    := BitVec.ofNat 32 (num32 m (e + 4)) &&& BitVec.ofNat 32 (num32 m (e + 8))
    mask    := BitVec.ofNat 32 (num32 m (e + 8))
    nexthop := BitVec.ofNat 32 (num32 m (e + 12)) &&& BitVec.ofNat 32 (num32 m (e + 8))
    metric  := BitVec.ofNat 32 (num32 m (e + 16)) }

/-- h = 4·ihl + 8, the offset of the RIP header (R104). -/
abbrev ripStart (m : Memory) : Nat := 4 * ihlNum m + 8

/-- PBUF[0..L-1] is a packet with a legal frame and RIP header, `n` entries and RIP command `cmd` (R104, R140):
LEN = 4·ihl + 12 + 20·n, n ≤ 25, every byte written. -/
abbrev FrameLegal (m : Memory) (len cmd n : Nat) : Prop :=
  5 ≤ ihlNum m ∧ len = ripStart m + 4 + 20 * n ∧ n ≤ 25 ∧ Written m 0 len
    ∧ byteNum m (ripStart m) = cmd ∧ (cmd = 1 ∨ cmd = 2)
    ∧ byteNum m (ripStart m + 1) = 2 ∧ byteNum m (ripStart m + 2) = 0 ∧ byteNum m (ripStart m + 3) = 0

/-- A MSG entry that is well-formed under a RIP command (41_codec.md R153, R155): a CIDR mask, no address or
next-hop bit outside it, a legal metric. -/
abbrev MsgEntryLegal (cmd : Nat) (x : MsgEntry) : Prop :=
  CidrMask x.mask ∧ x.addr &&& ~~~x.mask = 0#32 ∧ x.nexthop &&& ~~~x.mask = 0#32 ∧ MetricLegal cmd x.metric.toNat

/-! ### Matches in the route table -/

/-- Slot `t` matches address `a` (42_lpm_table.md R170). -/
abbrev SlotMatches (t : Slot) (a : Word) : Prop := t.valid = true ∧ a &&& maskOf t.len.toNat = t.pfx

/-- Slot `t` holds the key (p, l) (R171). -/
abbrev SlotHolds (t : Slot) (p : Word) (l : BitVec 6) : Prop := t.valid = true ∧ t.pfx = p ∧ t.len = l

/-- The staged route is legal (R173). -/
abbrev RouteLegal (s : State) : Prop :=
  s.rtLen.toNat ≤ 32 ∧ s.rtPrefix &&& ~~~(maskOf s.rtLen.toNat) = 0#32
    ∧ 1 ≤ s.rtMetric.toNat ∧ s.rtMetric.toNat ≤ 16

/-! ### The invariants of the state -/

/-- I1 of 10_state.md R41. -/
abbrev Slot.legal (t : Slot) : Prop :=
  t.len.toNat ≤ 32 ∧ t.pfx &&& ~~~(maskOf t.len.toNat) = 0#32 ∧ 1 ≤ t.metric.toNat ∧ t.metric.toNat ≤ 16

/-- Two slots do not both hold the same key (I2 of R41). -/
abbrev Slot.differs (t u : Slot) : Prop :=
  t.valid = true → u.valid = true → ¬ (t.pfx = u.pfx ∧ t.len = u.len)

/-- The invariants every step keeps. -/
structure State.Inv (s : State) : Prop where
  /-- The parameters are legal (00_scope.md R7). -/
  params_wf : s.params.wf = true
  /-- COUNT ∈ 0..25 (10_state.md R33). -/
  count_le : s.msgCount.toNat ≤ 25
  /-- PBUF is in canonical form. -/
  pbuf_wf : Memory.wf s.pbuf
  /-- Every listed byte is one of PBUF[0..PBUF_BYTES-1] (R36). -/
  pbuf_bound : ∀ c ∈ s.pbuf, c.1 < s.params.pbufBytes
  /-- T has LPM_ENTRIES slots (R40). -/
  table_len : s.table.length = s.params.lpmEntries
  /-- I1 of R41. -/
  table_legal : ∀ t ∈ s.table, t.valid = true → t.legal
  /-- I2 of R41. -/
  table_unique : s.table.Pairwise Slot.differs
  /-- I3 of R41. -/
  table_free : ∀ t ∈ s.table, t.valid = false → t = Slot.free

/-- A safe move: the machine goes on. -/
def Safe (s : State) : Prop := ∃ t, step s = .next t

end Sys2Proof.Machine
end

