-- ==== Sys2Proof/Certificates/Slice0/Obligations.lean ====
section
/-! DEFINITION. Statements about the block, from the spec's numbered rules. `hostReads`, `hostWrites`, `engineMoves`
and `resetMoves` are one step from any state with that move next. A next state written out says of hb_rdata what the
model says, which keeps it between reads: that is the model's choice (log 5), as are `program` (log 4), `turns` (log 3)
and `draws` (log 2), the model's own fields. -/

open Sys2Proof Sys2Proof.Machine

/-! ### The command lifecycle (44_control.md, 30_encoding.md) -/

/-- R233: completion writes RES0..RES3 and CODE, sets DONE, clears BUSY with PEND and keeps OVERRUN; every command
ends in one completion, of the state with at most its own writes to PBUF, MSG and T, and a non-OK completion is of
the state it started from. -/
def Obligations.EveryCommandEndsInOneCompletion : Prop :=
  (∀ (s : State) (c : Code) (r0 r1 r2 r3 : Word),
    finish s c r0 r1 r2 r3 = .next { s with res0 := r0, res1 := r1, res2 := r2, res3 := r3, code := c,
                                            done := true, pend := none })
  ∧ ∀ (i : Instr) (s t : State), exec i s = .next t →
    ∃ (u : State) (c : Code) (r0 r1 r2 r3 : Word),
      finish u c r0 r1 r2 r3 = .next t ∧ (c ≠ .ok → u = s)
      ∧ u = { s with pbuf := u.pbuf, msgCmd := u.msgCmd, msgCount := u.msgCount, msgE := u.msgE,
                     table := u.table }

/-- A step runs the decoded instruction: a word that decodes to `i`, written to CMD while BUSY = 0, makes `i`
pending, and the engine's next move is exec of `i`, whether the schedule names the engine or is empty (that an empty
schedule lets the engine move first is the model's choice, log 3). -/
def Obligations.StepRunsDecodedCommand : Prop :=
  ∀ (s : State) (w : Word) (i : Instr), decode w = .ok i →
    (s.busy = false → hostWrites s 0x008 w = .next { s with pend := some (.command i), done := false })
    ∧ ∀ t : State, t.pend = some (.command i) →
      engineMoves t = exec i t
      ∧ (∀ ts, t.turns = .engine :: ts → step t = exec i { t with turns := ts })
      ∧ (t.turns = [] → step t = exec i t)

/-- R230, R23: a CMD write while BUSY = 0 sets PEND to what the word decodes to, sets BUSY, clears DONE and changes
nothing else; while BUSY = 1 it is dropped and sets OVERRUN. CMD reads 0. -/
def Obligations.CmdWriteIsAcceptedOnlyWhenIdle : Prop :=
  ∀ (s : State) (w : Word),
    (s.busy = false →
      (∀ i, decode w = .ok i →
        hostWrites s 0x008 w = .next { s with pend := some (.command i), done := false })
      ∧ (∀ e, decode w = .error e →
        hostWrites s 0x008 w = .next { s with pend := some .illegal, done := false }))
    ∧ (s.busy = true → hostWrites s 0x008 w = .next { s with overrun := true })
    ∧ hostReads s 0x008 = .next { s with hbRdata := 0#32 }

/-- R81: the decoder is total: a word with a non-zero bit in [31:8] is ILLEGAL, a word whose opcode the map lists
is that command, every other word is ILLEGAL; and an ILLEGAL command completes with CODE = ILLEGAL. -/
def Obligations.DecodeIsExactlyTheOpcodeMap : Prop :=
  (∀ (w : Word) (i : Instr), decode w = .ok i ↔ w = encode i)
  ∧ (∀ w : Word, decode w = .error .reservedBits ↔ 256 ≤ w.toNat)
  ∧ (∀ w : Word, decode w = .error .unlistedOpcode ↔ w.toNat < 256 ∧ ∀ i : Instr, w ≠ encode i)
  ∧ ∀ s : State, s.pend = some .illegal →
    engineMoves s = .next { s with res0 := 0#32, res1 := 0#32, res2 := 0#32, res3 := 0#32, code := .illegal,
                                   done := true, pend := none }

/-- A few words (R82): the words of the twelve commands, decoded and encoded, and nine words that are none of them, the
ends of the gaps in the opcode map among them. The whole map is `DecodeIsExactlyTheOpcodeMap`. -/
def Obligations.OpcodeMapWords : Prop :=
  [0x00000000#32, 0x00000001#32, 0x00000002#32, 0x00000010#32, 0x00000011#32, 0x00000020#32, 0x00000021#32,
    0x00000022#32, 0x00000023#32, 0x00000024#32, 0x00000025#32, 0x00000030#32].map (fun w => (decode w).toOption)
    = [some .nop, some .csumCompute, some .csumVerify, some .disassemble, some .assemble, some .lpmInsert,
       some .lpmDelete, some .lpmLookup, some .lpmFind, some .lpmRead, some .lpmClear, some .forward]
  ∧ [Instr.nop, .csumCompute, .csumVerify, .disassemble, .assemble, .lpmInsert, .lpmDelete, .lpmLookup, .lpmFind,
      .lpmRead, .lpmClear, .forward].map encode
    = [0x00000000#32, 0x00000001#32, 0x00000002#32, 0x00000010#32, 0x00000011#32, 0x00000020#32, 0x00000021#32,
       0x00000022#32, 0x00000023#32, 0x00000024#32, 0x00000025#32, 0x00000030#32]
  ∧ [0x00000003#32, 0x0000000F#32, 0x00000012#32, 0x0000001F#32, 0x00000026#32, 0x0000002F#32, 0x00000031#32,
      0x000000FF#32, 0x00000110#32].map (fun w => (decode w).toOption)
    = [none, none, none, none, none, none, none, none, none]

/-- R234: an accepted ILLEGAL word completes with RES0..RES3 = 0 and CODE 0xFF and changes no other state; every word that
is no command's is such a word, 0x00000110, 0x000000FF and 0x00000003 among them, and STATUS then reads 0x0000FF02 where OVERRUN is 0. -/
def Obligations.IllegalCompletesWithCodeIllegal : Prop :=
  (∀ s : State, s.pend = some .illegal →
    engineMoves s = .next { s with res0 := 0#32, res1 := 0#32, res2 := 0#32, res3 := 0#32, code := .illegal,
                                   done := true, pend := none })
  ∧ (∀ w : Word, (∀ i : Instr, w ≠ encode i) → pendingOf w = .illegal)
  ∧ (pendingOf 0x00000110#32 = .illegal ∧ pendingOf 0x000000FF#32 = .illegal ∧ pendingOf 0x00000003#32 = .illegal)
  ∧ ∀ s t : State, s.pend = some .illegal → s.overrun = false → engineMoves s = .next t →
    hostReads t 0x00C = .next { t with hbRdata := 0x0000FF02#32 }

/-- R232: NOP completes with CODE = OK and RES0..RES3 = 0 and has no other effect; it keeps OVERRUN. -/
def Obligations.NopOnlyCompletes : Prop :=
  ∀ s : State,
    exec .nop s = .next { s with res0 := 0#32, res1 := 0#32, res2 := 0#32, res3 := 0#32, code := .ok,
                                 done := true, pend := none }
    ∧ ∀ t, exec .nop s = .next t →
      hostReads t 0x00C = .next { t with hbRdata := if s.overrun then 0x00000006#32 else 0x00000002#32 }

/-- The frame of every command: operands (ARG, RT_*), OVERRUN and the parameters are unchanged; MSG is changed by
DISASSEMBLE only, T by LPM_INSERT, LPM_DELETE and LPM_CLEAR only, and every byte of PBUF reads as before except after
ASSEMBLE and FORWARD. That hb_rdata is unchanged is the model's choice (log 5), and the host's program, the schedule and
the draw counter, unchanged too, are the model's own fields (logs 4, 3 and 2). -/
def Obligations.CommandsKeepWhatTheyDoNotName : Prop :=
  ∀ (i : Instr) (s t : State), exec i s = .next t →
    t.arg = s.arg ∧ t.rtPrefix = s.rtPrefix ∧ t.rtLen = s.rtLen ∧ t.rtIface = s.rtIface
    ∧ t.rtNexthop = s.rtNexthop ∧ t.rtMetric = s.rtMetric ∧ t.overrun = s.overrun ∧ t.params = s.params
    ∧ t.hbRdata = s.hbRdata ∧ t.program = s.program ∧ t.turns = s.turns ∧ t.draws = s.draws
    ∧ (i ≠ .disassemble → t.msgCmd = s.msgCmd ∧ t.msgCount = s.msgCount ∧ t.msgE = s.msgE)
    ∧ (i ≠ .lpmInsert → i ≠ .lpmDelete → i ≠ .lpmClear → t.table = s.table)
    ∧ (i ≠ .assemble → i ≠ .forward → ∀ a, readByte t.pbuf a = readByte s.pbuf a)

/-- The frame of the two commands that store: ASSEMBLE changes no byte outside PBUF[ARG .. ARG + size - 1], FORWARD no
byte but 8, 10 and 11. -/
def Obligations.StoringCommandsTouchOnlyTheirBytes : Prop :=
  (∀ s t : State, s.msgCount.toNat ≤ 25 → exec .assemble s = .next t →
    ∀ a, ¬ (s.arg.toNat ≤ a ∧ a < s.arg.toNat + payloadSize s) → readByte t.pbuf a = readByte s.pbuf a)
  ∧ ∀ s t : State, exec .forward s = .next t →
    ∀ a, a ≠ 8 → a ≠ 10 → a ≠ 11 → readByte t.pbuf a = readByte s.pbuf a

/-- The outcome of a command is fixed at acceptance (R231, R68): however many moves the host makes while the command is
pending, the engine's move then has the same outcome as at once, but for OVERRUN, hb_rdata (log 5) and the model's own
`program` and `draws` (logs 4 and 2). -/
def Obligations.OutcomeIsFixedAtAcceptance : Prop :=
  ∀ (k : Nat) (s u : State), s.busy = true → hostMoves k s = some u →
    (∀ t, engineMoves s = .next t →
      engineMoves u = .next { t with overrun := u.overrun, hbRdata := u.hbRdata, program := u.program,
                                     draws := u.draws })
    ∧ ∀ f, engineMoves s = .fault f → engineMoves u = .fault f

/-- Progress (R235): with no schedule left, a pending command completes in the next step, unless its read set holds an
unwritten byte. The order with no schedule is the model's choice (log 3). -/
def Obligations.PendingCommandCompletes : Prop :=
  ∀ s : State, s.turns = [] → s.busy = true →
    (∃ t, step s = .next t ∧ t.busy = false ∧ t.done = true)
    ∨ (step s = .fault .unwrittenPbufRead ∧ ∃ i, s.pend = some (.command i) ∧ ¬ Written s.pbuf 0 (readSetSize i s))

/-- R111: `wait` reads STATUS and repeats while bit 0 is 1; after it bits [15:8] are the CODE of the last command; with
no schedule left it ends two steps after a pending command that does not fault (the schedule is the model's, log 3). -/
def Obligations.WaitPollsUntilIdle : Prop :=
  ∀ (s : State) (ops : List HostOp), s.program = .wait :: ops →
    (s.busy = true → hostStep s = .next { s with hbRdata := s.statusWord } ∧ s.statusWord.getLsbD 0 = true)
    ∧ (s.busy = false →
      hostStep s = .next { s with hbRdata := s.statusWord, program := ops }
      ∧ s.statusWord.getLsbD 0 = false ∧ s.statusWord.extractLsb' 8 8 = s.code.num)
    ∧ (s.busy = true → s.turns = [] → ∀ t, step s = .next t →
      ∃ u, step t = .next u ∧ u.program = ops ∧ u.hbRdata.extractLsb' 8 8 = t.code.num)

/-! ### The register map and the bus (10_state.md, 20_memory.md) -/

/-- The register map (R20): every register the parameters admit is found at its own offset, which is a multiple of 4
below 2^ADDR_BITS and survives the port's word address; and what is found at an offset is a register the parameters
admit and has that offset, so every other offset, those past the PBUF window among them, is unmapped (R65). -/
def Obligations.RegisterMapRoundTrip : Prop :=
  ∀ p : Params, p.wf = true →
    (∀ r : Reg, (Target.reg r).wf p = true →
      regAt p r.offset = some r ∧ r.offset % 4 = 0 ∧ r.offset < 2 ^ p.addrBits
      ∧ BusAddr.offset (busAddr r.offset) = r.offset)
    ∧ ∀ (off : Nat) (r : Reg), regAt p off = some r → (Target.reg r).wf p = true ∧ r.offset = off

/-- R21: ID reads 0x52495032 in every state, a host write to it is ignored, and it is the same after reset. -/
def Obligations.IdRegisterIsConstant : Prop :=
  ∀ s : State,
    hostReads s 0x000 = .next { s with hbRdata := 0x52495032#32 }
    ∧ (s.busy = false → ∀ w, hostWrites s 0x000 w = .next s)
    ∧ ∀ t, resetMoves s = .next t → hostReads t 0x000 = .next { t with hbRdata := 0x52495032#32 }

/-- R22: PARAMS reads MSG_MAX ++ LPM_ENTRIES ++ PBUF_BYTES, 0x19400800 at the defaults, and ignores a host write. -/
def Obligations.ParamsRegisterReads : Prop :=
  (∀ s : State, s.params.wf = true →
    (∃ w : Word, hostReads s 0x004 = .next { s with hbRdata := w }
      ∧ w.toNat = 25 * 2 ^ 24 + s.params.lpmEntries * 2 ^ 16 + s.params.pbufBytes
      ∧ (s.params.lpmEntries = 64 → s.params.pbufBytes = 2048 → w = 0x19400800#32)))
  ∧ ∀ s : State, s.busy = false → ∀ w, hostWrites s 0x004 w = .next s

/-- STATUS (R24): the read returns BUSY, DONE, OVERRUN and CODE in their places and 0 in the reserved bits, in every
state; a host write while BUSY = 0 clears OVERRUN when data bit 2 is 1 and changes nothing else. -/
def Obligations.StatusRegisterFields : Prop :=
  ∀ s : State,
    (∃ w : Word, hostReads s 0x00C = .next { s with hbRdata := w }
      ∧ w.toNat = s.code.num.toNat * 256 + s.overrun.toNat * 4 + s.done.toNat * 2 + s.busy.toNat)
    ∧ (s.busy = false → ∀ w : Word,
      hostWrites s 0x00C w = .next { s with overrun := if w.getLsbD 2 then false else s.overrun })

/-- R255: a host write while BUSY = 1 is dropped and sets OVERRUN; only a STATUS write with bit 2 = 1 while idle, or
reset, clears it; and it does not affect the execution of any command. -/
def Obligations.OverrunRecordsDroppedWrites : Prop :=
  (∀ (s : State) (off : Nat) (w : Word), s.params.wf = true → s.busy = true → off % 4 = 0 →
    off < 2 ^ s.params.addrBits → hostWrites s off w = .next { s with overrun := true })
  ∧ (∀ s t : State, step s = .next t → s.overrun = true → t.overrun = false →
    (∃ ts, s.turns = .reset :: ts)
    ∨ (s.busy = false ∧ ∃ a w ops, s.program = .wr a w :: ops ∧ BusAddr.offset a = 0x00C ∧ w.getLsbD 2 = true))
  ∧ ∀ (i : Instr) (s : State) (b : Bool),
    (∀ t, exec i s = .next t → exec i { s with overrun := b } = .next { t with overrun := b })
    ∧ ∀ f, exec i s = .fault f → exec i { s with overrun := b } = .fault f

/-- R27, R28, R29, R31 (and RT_NEXTHOP, a whole word): a host write to a route staging register stores its field's low bits, a read returns them
with the other bits 0, and each is 0 after reset; LPM_INSERT rejects a staged length above 32, metric 0 and metrics
above 16. -/
def Obligations.RouteStagingRegisters : Prop :=
  (∀ (s : State) (w : Word), s.busy = false →
    hostWrites s 0x030 w = .next { s with rtPrefix := w }
    ∧ hostWrites s 0x034 w = .next { s with rtLen := BitVec.ofNat 6 w.toNat }
    ∧ hostWrites s 0x038 w = .next { s with rtIface := BitVec.ofNat 8 w.toNat }
    ∧ hostWrites s 0x03C w = .next { s with rtNexthop := w }
    ∧ hostWrites s 0x040 w = .next { s with rtMetric := BitVec.ofNat 5 w.toNat })
  ∧ (∀ s : State, s.busy = false →
    hostReads s 0x030 = .next { s with hbRdata := s.rtPrefix }
    ∧ hostReads s 0x034 = .next { s with hbRdata := BitVec.ofNat 32 s.rtLen.toNat }
    ∧ hostReads s 0x038 = .next { s with hbRdata := BitVec.ofNat 32 s.rtIface.toNat }
    ∧ hostReads s 0x03C = .next { s with hbRdata := s.rtNexthop }
    ∧ hostReads s 0x040 = .next { s with hbRdata := BitVec.ofNat 32 s.rtMetric.toNat })
  ∧ (∀ s t : State, resetMoves s = .next t →
    t.rtPrefix = 0#32 ∧ t.rtLen = 0#6 ∧ t.rtIface = 0#8 ∧ t.rtNexthop = 0#32 ∧ t.rtMetric = 0#5)
  ∧ ∀ s : State, (32 < s.rtLen.toNat ∨ s.rtMetric.toNat = 0 ∨ 16 < s.rtMetric.toNat) →
    exec .lpmInsert s = finish s .badArg 0#32 0#32 0#32 0#32

/-- R33: a host write to MSG_COUNT stores a value of at most 25 and ignores a greater one; a read returns COUNT; COUNT
is 0 after reset; and every step keeps COUNT in 0..25. -/
def Obligations.MsgCountStaysInRange : Prop :=
  (∀ (s : State) (w : Word), s.busy = false →
    (w.toNat ≤ 25 → hostWrites s 0x084 w = .next { s with msgCount := BitVec.ofNat 5 w.toNat })
    ∧ (25 < w.toNat → hostWrites s 0x084 w = .next s)
    ∧ hostReads s 0x084 = .next { s with hbRdata := BitVec.ofNat 32 s.msgCount.toNat })
  ∧ (∀ s t : State, resetMoves s = .next t → t.msgCount = 0#5)
  ∧ ∀ s t : State, s.msgCount.toNat ≤ 25 → step s = .next t → t.msgCount.toNat ≤ 25

/-- R34: MSG_ADDR[i], MSG_MASK[i], MSG_NEXTHOP[i] and MSG_METRIC[i], at 0x100 + 16i and the next three words, each store
all 32 bits of a host write in their own field of MSG.E[i] and nowhere else, read it back, and are 0 after reset. -/
def Obligations.MsgEntryRegistersHoldWords : Prop :=
  (∀ (s : State) (i : Fin 25) (w : Word), s.busy = false →
    hostWrites s (0x100 + 16 * i.val) w = .next { s with msgE := s.msgE.set i { s.msgE.get i with addr := w } }
    ∧ hostWrites s (0x104 + 16 * i.val) w = .next { s with msgE := s.msgE.set i { s.msgE.get i with mask := w } }
    ∧ hostWrites s (0x108 + 16 * i.val) w
        = .next { s with msgE := s.msgE.set i { s.msgE.get i with nexthop := w } }
    ∧ hostWrites s (0x10C + 16 * i.val) w
        = .next { s with msgE := s.msgE.set i { s.msgE.get i with metric := w } }
    ∧ hostReads s (0x100 + 16 * i.val) = .next { s with hbRdata := (s.msgE.get i).addr }
    ∧ hostReads s (0x104 + 16 * i.val) = .next { s with hbRdata := (s.msgE.get i).mask }
    ∧ hostReads s (0x108 + 16 * i.val) = .next { s with hbRdata := (s.msgE.get i).nexthop }
    ∧ hostReads s (0x10C + 16 * i.val) = .next { s with hbRdata := (s.msgE.get i).metric })
  ∧ ∀ (s t : State) (i : Fin 25), resetMoves s = .next t →
    t.msgE.get i = { addr := 0#32, mask := 0#32, nexthop := 0#32, metric := 0#32 }

/-- R32: MSG_CMD stores the low 8 bits of a host write and reads them back; DISASSEMBLE writes only 1 or 2 to it;
ASSEMBLE copies it to the wire as it stands; it is 0 after reset. -/
def Obligations.MsgCmdHoldsAnyByte : Prop :=
  (∀ (s : State) (w : Word), s.busy = false →
    hostWrites s 0x080 w = .next { s with msgCmd := BitVec.ofNat 8 w.toNat }
    ∧ hostReads s 0x080 = .next { s with hbRdata := BitVec.ofNat 32 s.msgCmd.toNat })
  ∧ (∀ s t : State, exec .disassemble s = .next t → t.msgCmd = s.msgCmd ∨ t.msgCmd = 1#8 ∨ t.msgCmd = 2#8)
  ∧ (∀ s t : State, exec .assemble s = .next t → t.code = .ok → readByte t.pbuf s.arg.toNat = some s.msgCmd)
  ∧ ∀ s t : State, resetMoves s = .next t → t.msgCmd = 0#8

/-- R61: PBUF word k at 0x1000 + 4k: a host write puts w[31:24] at PBUF[4k] down to w[7:0] at PBUF[4k+3], sets their PW
and changes no other byte; a read returns the four bytes with PBUF[4k] in bits [31:24]. -/
def Obligations.PbufWordWindow : Prop :=
  ∀ (s : State) (k : Nat), s.params.wf = true → 4 * k < s.params.pbufBytes → s.busy = false →
    (∀ w : Word, ∃ t, hostWrites s (0x1000 + 4 * k) w = .next t ∧ t = { s with pbuf := t.pbuf }
      ∧ readByte t.pbuf (4 * k) = some (w.extractLsb' 24 8)
      ∧ readByte t.pbuf (4 * k + 1) = some (w.extractLsb' 16 8)
      ∧ readByte t.pbuf (4 * k + 2) = some (w.extractLsb' 8 8)
      ∧ readByte t.pbuf (4 * k + 3) = some (w.extractLsb' 0 8)
      ∧ (∀ i, i < 4 → t.pw (4 * k + i) = true)
      ∧ (∀ a, ¬ (4 * k ≤ a ∧ a < 4 * k + 4) → readByte t.pbuf a = readByte s.pbuf a)
      ∧ hostReads t (0x1000 + 4 * k) = .next { t with hbRdata := w })
    ∧ (Written s.pbuf (4 * k) 4 →
      hostReads s (0x1000 + 4 * k) = .next { s with hbRdata := BitVec.ofNat 32 (num32 s.pbuf (4 * k)) })

/-- R66: while BUSY = 0 a host read of a PBUF word with an unwritten byte faults (while BUSY = 1 such a read falls under
R67 too, see `ReadsWhileBusy` and log 18); a command faults exactly when its read set holds an
unwritten byte, and otherwise has a next state. -/
def Obligations.UnwrittenBytesFault : Prop :=
  (∀ (s : State) (k : Nat), s.params.wf = true → 4 * k < s.params.pbufBytes → s.busy = false →
    (∃ i, i < 4 ∧ s.pw (4 * k + i) = false) → hostReads s (0x1000 + 4 * k) = .fault .unwrittenPbufRead)
  ∧ ∀ (i : Instr) (s : State),
    (¬ Written s.pbuf 0 (readSetSize i s) → exec i s = .fault .unwrittenPbufRead)
    ∧ (Written s.pbuf 0 (readSetSize i s) → ∃ t, exec i s = .next t)

/-- Reads while BUSY = 1 (R67): ID, PARAMS, STATUS and CMD read as ever, an unmapped offset reads 0, and a read of any
other register completes with some value and changes nothing else but the model's draw counter (log 2). That a read of a
PBUF word with an unwritten byte does so too, and does not fault as R66(a) has it, is the model's choice (log 18). -/
def Obligations.ReadsWhileBusy : Prop :=
  ∀ s : State, s.params.wf = true → s.busy = true →
    hostReads s 0x000 = .next { s with hbRdata := idWord }
    ∧ hostReads s 0x004 = .next { s with hbRdata := Params.word s.params }
    ∧ hostReads s 0x008 = .next { s with hbRdata := 0#32 }
    ∧ hostReads s 0x00C = .next { s with hbRdata := s.statusWord }
    ∧ (∀ off, off % 4 = 0 → off < 2 ^ s.params.addrBits → regAt s.params off = none →
      hostReads s off = .next { s with hbRdata := 0#32 })
    ∧ ∀ r : Reg, (Target.reg r).wf s.params = true → r ≠ .id → r ≠ .params → r ≠ .cmd → r ≠ .status →
      ∃ v, hostReads s r.offset = .next { s with hbRdata := v, draws := s.draws + 1 }

/-- R68: while BUSY = 1 a host write to any offset the port carries is dropped: it sets OVERRUN and changes no other
state. -/
def Obligations.WritesWhileBusyAreDropped : Prop :=
  ∀ (s : State) (off : Nat) (w : Word), s.params.wf = true → s.busy = true → off % 4 = 0 →
    off < 2 ^ s.params.addrBits → hostWrites s off w = .next { s with overrun := true }

/-- Access rules (R46) while BUSY = 0: writes to the read-only registers and to unmapped offsets are ignored, an
unmapped offset reads 0, and a 32-bit read-write register (ARG) reads what was last written. -/
def Obligations.CommonAccessRules : Prop :=
  ∀ s : State, s.params.wf = true → s.busy = false →
    (∀ w, hostWrites s 0x000 w = .next s ∧ hostWrites s 0x004 w = .next s ∧ hostWrites s 0x018 w = .next s
      ∧ hostWrites s 0x01C w = .next s ∧ hostWrites s 0x020 w = .next s ∧ hostWrites s 0x024 w = .next s)
    ∧ (∀ off, off % 4 = 0 → off < 2 ^ s.params.addrBits → regAt s.params off = none →
      hostReads s off = .next { s with hbRdata := 0#32 } ∧ ∀ w, hostWrites s off w = .next s)
    ∧ (hostReads s 0x018 = .next { s with hbRdata := s.res0 } ∧ hostReads s 0x01C = .next { s with hbRdata := s.res1 }
      ∧ hostReads s 0x020 = .next { s with hbRdata := s.res2 }
      ∧ hostReads s 0x024 = .next { s with hbRdata := s.res3 })
    ∧ ∀ w, hostWrites s 0x010 w = .next { s with arg := w }
      ∧ hostReads { s with arg := w } 0x010 = .next { s with arg := w, hbRdata := w }

/-- Reads have no side effects (R64(c)): while BUSY = 0 a completed read changes hb_rdata only, and repeating it returns
the same value. An offset that no port carries stands for a lower one here (log 19, the model's choice). -/
def Obligations.ReadsHaveNoSideEffects : Prop :=
  ∀ (s t : State) (off : Nat), s.busy = false → hostReads s off = .next t →
    t = { s with hbRdata := t.hbRdata } ∧ hostReads t off = .next t

/-- The written-byte shadow (R37): no step but reset makes a PW bit false again, and reset makes every one false. -/
def Obligations.WrittenBytesStayWritten : Prop :=
  (∀ s t : State, step s = .next t → (∀ ts, s.turns ≠ .reset :: ts) → ∀ i, s.pw i = true → t.pw i = true)
  ∧ ∀ (s t : State) (i : Nat), resetMoves s = .next t → t.pw i = false

/-- R112: running the line `pbuf off: w0 w1 …` from an idle state writes the words into PBUF from byte offset `off` on, in
order, and leaves every other byte and every other field as it was. -/
def Obligations.PbufLineWritesWords : Prop :=
  ∀ (s : State) (off : Nat) (ws : List Word), s.params.wf = true → s.busy = false →
    (HostLine.pbuf off ws).wf s.params = true →
    ∃ t, hostMoves ws.length { s with program := expandLine (.pbuf off ws) ++ s.program } = some t
      ∧ t = { s with pbuf := t.pbuf }
      ∧ (∀ j w, ws[j]? = some w → memRead t.pbuf (off + 4 * j) 4 = some w)
      ∧ ∀ a, ¬ (off ≤ a ∧ a < off + 4 * ws.length) → readByte t.pbuf a = readByte s.pbuf a

/-! ### The checksum unit (40_checksum.md) -/

/-- The laws of the fold (R123): fold16(s) is 0 exactly when s is, else it is the representative of s mod 0xFFFF in
1..0xFFFF. -/
def Obligations.CarryFoldIsTheResidue : Prop :=
  ∀ n : Nat, (fold16 n = 0 ↔ n = 0) ∧ fold16 n ≤ 65535 ∧ fold16 n % 65535 = n % 65535

/-- CSUM_COMPUTE (R125, R123): on a ready header it completes with the one value below 0xFFFF that makes the sum of all
words, as stored, 0 modulo 0xFFFF, and writes nothing but the completion. -/
def Obligations.CsumComputeResult : Prop :=
  ∀ s : State, HeaderReady s.pbuf →
    ∃ c, c < 65535 ∧ (headerSum s.pbuf + c) % 65535 = 0
      ∧ exec .csumCompute s = finish s .ok (BitVec.ofNat 32 c) 0#32 0#32 0#32

/-- CSUM_VERIFY (R128, R123): on a ready header it completes with RES1 the value that makes the sum of the words other
than bytes 10–11 be 0 modulo 0xFFFF, RES2 the stored field, RES0 = 1 exactly when the two are equal, and writes nothing
else. -/
def Obligations.CsumVerifyResult : Prop :=
  ∀ s : State, HeaderReady s.pbuf →
    ∃ c, c < 65535 ∧ (headerSum s.pbuf - num16 s.pbuf 10 + c) % 65535 = 0
      ∧ exec .csumVerify s = finish s .ok (if c = num16 s.pbuf 10 then 1#32 else 0#32) (BitVec.ofNat 32 c)
          (BitVec.ofNat 32 (num16 s.pbuf 10)) 0#32

/-- R121: with ihl < 5 a checksum command (and FORWARD) finishes with BAD_IHL and writes nothing; otherwise its region is
PBUF[0..4·ihl-1], inside byte 59 and inside PBUF, and an unwritten byte there faults. -/
def Obligations.HeaderRegionBounds : Prop :=
  ∀ (i : Instr) (s : State), (i = .csumCompute ∨ i = .csumVerify ∨ i = .forward) →
    (∀ b, readByte s.pbuf 0 = some b → b.toNat % 16 < 5 → exec i s = finish s .badIhl 0#32 0#32 0#32 0#32)
    ∧ (readByte s.pbuf 0 = none → exec i s = .fault .unwrittenPbufRead)
    ∧ (5 ≤ ihlNum s.pbuf → ¬ Written s.pbuf 0 (4 * ihlNum s.pbuf) → exec i s = .fault .unwrittenPbufRead)
    ∧ (4 * ihlNum s.pbuf ≤ 60 ∧ (s.params.wf = true → 4 * ihlNum s.pbuf ≤ s.params.pbufBytes))

/-- R130(a): for any ready header, writing 0 to bytes 10–11, running CSUM_COMPUTE and storing its RES0 in bytes 10–11
makes CSUM_VERIFY report valid. -/
def Obligations.ComputedChecksumVerifies : Prop :=
  ∀ s : State, HeaderReady s.pbuf →
    ∃ t u, exec .csumCompute { s with pbuf := memWrite s.pbuf 10 2 0#32 } = .next t
      ∧ exec .csumVerify { s with pbuf := memWrite s.pbuf 10 2 t.res0 } = .next u
      ∧ t.code = .ok ∧ u.code = .ok ∧ u.res0 = 1#32

/-- R130(b): changing any one byte of a header that verifies, other than bytes 10 and 11 and the IHL nibble of byte 0,
makes CSUM_VERIFY report a mismatch. -/
def Obligations.CorruptedByteFailsVerify : Prop :=
  ∀ (s : State) (a : Nat) (v : Byte), HeaderValid s.pbuf → a < 4 * ihlNum s.pbuf → a ≠ 10 → a ≠ 11 →
    readByte s.pbuf a ≠ some v → (a = 0 → v.toNat % 16 = ihlNum s.pbuf) →
    ∃ t, exec .csumVerify { s with pbuf := writeByte s.pbuf a v } = .next t ∧ t.code = .ok ∧ t.res0 = 0#32

/-! ### The codec (41_codec.md) -/

/-- DISASSEMBLE accepts (R140, R143, R144): a packet in PBUF[0..ARG-1] with a legal frame, n ≤ 25 entries and every entry
legal completes with OK and RES0 = n; MSG_CMD, MSG_COUNT and MSG.E[0..n-1] are the decoded, masked message; the other
entries and everything else are unchanged. -/
def Obligations.DisassembleDecodesLegalPackets : Prop :=
  ∀ (s : State) (cmd n : Nat), s.arg.toNat ≤ s.params.pbufBytes → FrameLegal s.pbuf s.arg.toNat cmd n →
    (∀ j, j < n → EntryLegal s.pbuf cmd (entryStart s.pbuf j)) →
    ∃ t, exec .disassemble s = .next t
      ∧ finish { s with msgCmd := BitVec.ofNat 8 cmd, msgCount := BitVec.ofNat 5 n, msgE := t.msgE } .ok
          (BitVec.ofNat 32 n) 0#32 0#32 0#32 = .next t
      ∧ ∀ j : Fin 25, t.msgE.get j = if j.val < n then entryOf s.pbuf (entryStart s.pbuf j.val) else s.msgE.get j

/-- DISASSEMBLE accepts nothing else (R140, R142, R146): when it completes with OK, the packet had a legal frame and
legal entries, as many as RES0 says. -/
def Obligations.DisassembleAcceptsOnlyLegalPackets : Prop :=
  ∀ s t : State, exec .disassemble s = .next t → t.code = .ok →
    ∃ cmd n, FrameLegal s.pbuf s.arg.toNat cmd n ∧ s.arg.toNat ≤ s.params.pbufBytes
      ∧ (∀ j, j < n → EntryLegal s.pbuf cmd (entryStart s.pbuf j))
      ∧ t.msgCmd.toNat = cmd ∧ t.msgCount.toNat = n ∧ t.res0.toNat = n

/-- The framing and header verdicts of DISASSEMBLE in their order (R140, R142, R256): the first failing check decides,
and the completion changes nothing else. RANGE and LEN < 20 read no byte. -/
def Obligations.DisassembleHeaderVerdicts : Prop :=
  ∀ s : State,
    let len := s.arg.toNat
    let h := ripStart s.pbuf
    let rejects := fun (n : Nat) => exec .disassemble s = finish s .reject (BitVec.ofNat 32 n) 0#32 0#32 0#32
    (s.params.pbufBytes < len → exec .disassemble s = finish s .range 0#32 0#32 0#32 0#32)
    ∧ (len ≤ s.params.pbufBytes →
      (len < 20 → rejects 1)
      ∧ (20 ≤ len → Written s.pbuf 0 len →
        (ihlNum s.pbuf < 5 → rejects 2)
        ∧ (5 ≤ ihlNum s.pbuf →
          (len < h + 4 → rejects 1)
          ∧ (h + 4 ≤ len →
            ((len - (h + 4)) % 20 ≠ 0 → rejects 3)
            ∧ ((len - (h + 4)) % 20 = 0 →
              (25 < (len - (h + 4)) / 20 → rejects 4)
              ∧ ((len - (h + 4)) / 20 ≤ 25 →
                (byteNum s.pbuf h ≠ 1 ∧ byteNum s.pbuf h ≠ 2 → rejects 5)
                ∧ (byteNum s.pbuf h = 1 ∨ byteNum s.pbuf h = 2 →
                  (byteNum s.pbuf (h + 1) ≠ 2 → rejects 6)
                  ∧ (byteNum s.pbuf (h + 1) = 2 →
                    byteNum s.pbuf (h + 2) ≠ 0 ∨ byteNum s.pbuf (h + 3) ≠ 0 → rejects 7))))))))

/-- The entry verdicts of DISASSEMBLE (R142, R91): in a packet with a legal frame whose entries before j are legal, the
first failing check of entry j, in the order family, tag, mask, metric, is the reason in RES0, with j in RES1; nothing
else changes. A mask with a hole is such a failure (R156). -/
def Obligations.DisassembleEntryVerdicts : Prop :=
  ∀ (s : State) (cmd n j : Nat), s.arg.toNat ≤ s.params.pbufBytes → FrameLegal s.pbuf s.arg.toNat cmd n → j < n →
    (∀ i, i < j → EntryLegal s.pbuf cmd (entryStart s.pbuf i)) →
    let e := entryStart s.pbuf j
    let rejects := fun (r : Nat) =>
      exec .disassemble s = finish s .reject (BitVec.ofNat 32 r) (BitVec.ofNat 32 j) 0#32 0#32
    (num16 s.pbuf e ≠ familyNum cmd → rejects 8)
    ∧ (num16 s.pbuf e = familyNum cmd →
      (num16 s.pbuf (e + 2) ≠ 0 → rejects 9)
      ∧ (num16 s.pbuf (e + 2) = 0 →
        (¬ CidrMask (BitVec.ofNat 32 (num32 s.pbuf (e + 8))) → rejects 10)
        ∧ (CidrMask (BitVec.ofNat 32 (num32 s.pbuf (e + 8))) →
          ¬ MetricLegal cmd (num32 s.pbuf (e + 16)) → rejects 11)))

/-- R144: on REJECT or RANGE, MSG keeps its values; on OK only MSG_CMD, MSG_COUNT and MSG.E[0..n-1] are written, and
MSG.E[n..24] keep theirs. -/
def Obligations.DisassembleCommitsAtomically : Prop :=
  ∀ s t : State, exec .disassemble s = .next t →
    (t.code = .reject ∨ t.code = .range →
      t.msgCmd = s.msgCmd ∧ t.msgCount = s.msgCount ∧ ∀ j : Fin 25, t.msgE.get j = s.msgE.get j)
    ∧ (t.code = .ok → ∀ j : Fin 25, t.msgCount.toNat ≤ j.val → t.msgE.get j = s.msgE.get j)
    ∧ (t.code = .reject ∨ t.code = .range ∨ t.code = .ok)

/-- Normalization (R143): after OK, MSG.E[j] for j < n holds the wire address and next hop masked with the entry's own
mask, and the mask and metric as they are on the wire. -/
def Obligations.DecodedEntriesAreNormalized : Prop :=
  ∀ s t : State, exec .disassemble s = .next t → t.code = .ok → ∀ j : Fin 25, j.val < t.msgCount.toNat →
    (t.msgE.get j).mask = BitVec.ofNat 32 (num32 s.pbuf (entryStart s.pbuf j.val + 8))
    ∧ (t.msgE.get j).metric = BitVec.ofNat 32 (num32 s.pbuf (entryStart s.pbuf j.val + 16))
    ∧ (t.msgE.get j).addr
        = BitVec.ofNat 32 (num32 s.pbuf (entryStart s.pbuf j.val + 4)) &&& (t.msgE.get j).mask
    ∧ (t.msgE.get j).nexthop
        = BitVec.ofNat 32 (num32 s.pbuf (entryStart s.pbuf j.val + 12)) &&& (t.msgE.get j).mask

/-- R150, R152: with n = MSG_COUNT ≤ 25 and size = 4 + 20n, ASSEMBLE at off = ARG finishes with RANGE and no write when
off + size > PBUF_BYTES, in unbounded arithmetic; otherwise it writes the command byte as held, version 2, two zero
bytes, and for each entry the family (2 exactly when MSG_CMD = 2), a zero tag and the four fields as held, changes no
other byte and no MSG register, and finishes with OK and RES0 = size. -/
def Obligations.AssembleWritesThePayload : Prop :=
  ∀ s : State, s.msgCount.toNat ≤ 25 →
    let off := s.arg.toNat
    let size := 4 + 20 * s.msgCount.toNat
    (s.params.pbufBytes < off + size → exec .assemble s = finish s .range 0#32 0#32 0#32 0#32)
    ∧ (off + size ≤ s.params.pbufBytes →
      ∃ t, exec .assemble s = .next t
        ∧ finish { s with pbuf := t.pbuf } .ok (BitVec.ofNat 32 size) 0#32 0#32 0#32 = .next t
        ∧ Written t.pbuf off size
        ∧ byteNum t.pbuf off = s.msgCmd.toNat ∧ byteNum t.pbuf (off + 1) = 2 ∧ num16 t.pbuf (off + 2) = 0
        ∧ (∀ j : Fin 25, j.val < s.msgCount.toNat →
          num16 t.pbuf (off + 4 + 20 * j.val) = familyNum s.msgCmd.toNat
          ∧ num16 t.pbuf (off + 4 + 20 * j.val + 2) = 0
          ∧ num32 t.pbuf (off + 4 + 20 * j.val + 4) = (s.msgE.get j).addr.toNat
          ∧ num32 t.pbuf (off + 4 + 20 * j.val + 8) = (s.msgE.get j).mask.toNat
          ∧ num32 t.pbuf (off + 4 + 20 * j.val + 12) = (s.msgE.get j).nexthop.toNat
          ∧ num32 t.pbuf (off + 4 + 20 * j.val + 16) = (s.msgE.get j).metric.toNat)
        ∧ ∀ a, ¬ (off ≤ a ∧ a < off + size) → readByte t.pbuf a = readByte s.pbuf a)

/-- The round trip of R155: a packet DISASSEMBLE accepts, whose entries have no address or next-hop bits outside their
masks, is written back by ASSEMBLE at 4·ihl + 8 with every byte of PBUF as it was. -/
def Obligations.AssembleOfDisassembleIsIdentity : Prop :=
  ∀ (s : State) (cmd n : Nat), s.params.wf = true → s.arg.toNat ≤ s.params.pbufBytes →
    FrameLegal s.pbuf s.arg.toNat cmd n →
    (∀ j, j < n → EntryLegal s.pbuf cmd (entryStart s.pbuf j)
      ∧ BitVec.ofNat 32 (num32 s.pbuf (entryStart s.pbuf j + 4))
          &&& ~~~(BitVec.ofNat 32 (num32 s.pbuf (entryStart s.pbuf j + 8))) = 0#32
      ∧ BitVec.ofNat 32 (num32 s.pbuf (entryStart s.pbuf j + 12))
          &&& ~~~(BitVec.ofNat 32 (num32 s.pbuf (entryStart s.pbuf j + 8))) = 0#32) →
    ∃ t u, exec .disassemble s = .next t
      ∧ exec .assemble { t with arg := BitVec.ofNat 32 (ripStart s.pbuf) } = .next u
      ∧ t.code = .ok ∧ u.code = .ok ∧ ∀ a, readByte u.pbuf a = readByte s.pbuf a

/-- The other direction of R155: a message of well-formed entries in MSG, assembled behind a written header with ihl ≥ 5
and decoded again with the packet's length, leaves MSG_CMD, MSG_COUNT and every MSG entry as they were. -/
def Obligations.DisassembleOfAssembleIsIdentity : Prop :=
  ∀ s : State, s.params.wf = true → (s.msgCmd = 1#8 ∨ s.msgCmd = 2#8) → s.msgCount.toNat ≤ 25 →
    (∀ j : Fin 25, j.val < s.msgCount.toNat → MsgEntryLegal s.msgCmd.toNat (s.msgE.get j)) →
    5 ≤ ihlNum s.pbuf → Written s.pbuf 0 (ripStart s.pbuf) → s.arg.toNat = ripStart s.pbuf →
    ripStart s.pbuf + 4 + 20 * s.msgCount.toNat ≤ s.params.pbufBytes →
    ∃ t u, exec .assemble s = .next t
      ∧ exec .disassemble { t with arg := BitVec.ofNat 32 (ripStart s.pbuf + 4 + 20 * s.msgCount.toNat) } = .next u
      ∧ t.code = .ok ∧ u.code = .ok ∧ u.msgCmd = s.msgCmd ∧ u.msgCount = s.msgCount
      ∧ ∀ j : Fin 25, u.msgE.get j = s.msgE.get j

/-! ### The route table (42_lpm_table.md) -/

/-- R173: LPM_INSERT finishes with BAD_ARG and changes no slot exactly when the staged route is not legal: a length above
32, a prefix bit beyond the length, or a metric outside 1..16. -/
def Obligations.InsertChecksLegality : Prop :=
  ∀ s : State,
    (¬ RouteLegal s → exec .lpmInsert s = finish s .badArg 0#32 0#32 0#32 0#32)
    ∧ (RouteLegal s → ∃ t, exec .lpmInsert s = .next t ∧ t.code ≠ .badArg)

/-- R174, R175, R176: a legal insert whose key slot k holds (and no lower slot) overwrites the interface, next hop and
metric of slot k and answers k, 1; a new key goes to the lowest free slot f and answers f, 0; with no free slot it
finishes with TABLE_FULL and T unchanged. -/
def Obligations.InsertReplacesOrTakesLowestFreeSlot : Prop :=
  ∀ s : State, RouteLegal s →
    (∀ (k : Nat) (t : Slot), s.table[k]? = some t → SlotHolds t s.rtPrefix s.rtLen →
      (∀ j u, j < k → s.table[j]? = some u → ¬ SlotHolds u s.rtPrefix s.rtLen) →
      exec .lpmInsert s
        = finish { s with table := s.table.set k { t with iface := s.rtIface, nexthop := s.rtNexthop,
                                                          metric := s.rtMetric } }
            .ok (BitVec.ofNat 32 k) 1#32 0#32 0#32)
    ∧ ((∀ u ∈ s.table, ¬ SlotHolds u s.rtPrefix s.rtLen) →
      (∀ (f : Nat) (t : Slot), s.table[f]? = some t → t.valid = false →
        (∀ j u, j < f → s.table[j]? = some u → u.valid = true) →
        exec .lpmInsert s
          = finish { s with table := s.table.set f { valid := true, pfx := s.rtPrefix, len := s.rtLen,
                                                     iface := s.rtIface, nexthop := s.rtNexthop,
                                                     metric := s.rtMetric } }
              .ok (BitVec.ofNat 32 f) 0#32 0#32 0#32)
      ∧ ((∀ u ∈ s.table, u.valid = true) → exec .lpmInsert s = finish s .tableFull 0#32 0#32 0#32 0#32))

/-- LPM_DELETE (R180) frees the slot that holds the key, with every field 0, and answers its number; with no such slot it
finishes with DELETE_MISS and T unchanged; after an OK delete in a table whose keys are unique, no slot holds the key; a
length above 32 or a prefix bit beyond the length gives DELETE_MISS in every state that meets the invariants. -/
def Obligations.DeleteFreesTheSlot : Prop :=
  ∀ s : State,
    (∀ (k : Nat) (t : Slot), s.table[k]? = some t → SlotHolds t s.rtPrefix s.rtLen →
      (∀ j u, j < k → s.table[j]? = some u → ¬ SlotHolds u s.rtPrefix s.rtLen) →
      exec .lpmDelete s
        = finish { s with table := s.table.set k { valid := false, pfx := 0#32, len := 0#6, iface := 0#8,
                                                   nexthop := 0#32, metric := 0#5 } }
            .ok (BitVec.ofNat 32 k) 0#32 0#32 0#32)
    ∧ ((∀ u ∈ s.table, ¬ SlotHolds u s.rtPrefix s.rtLen) →
      exec .lpmDelete s = finish s .deleteMiss 0#32 0#32 0#32 0#32)
    ∧ (s.table.Pairwise Slot.differs → ∀ t, exec .lpmDelete s = .next t →
      ∀ u ∈ t.table, ¬ SlotHolds u s.rtPrefix s.rtLen)
    ∧ (s.Inv → (32 < s.rtLen.toNat ∨ s.rtPrefix &&& ~~~(maskOf s.rtLen.toNat) ≠ 0#32) →
      exec .lpmDelete s = finish s .deleteMiss 0#32 0#32 0#32 0#32)

/-- R185, R186: LPM_LOOKUP answers the matching slot of greatest length, the lowest-numbered one on a tie, with its next
hop, interface, number and length; with no matching slot it finishes with NOT_FOUND. T is not written. -/
def Obligations.LookupAnswersTheLongestMatch : Prop :=
  ∀ s : State,
    (∀ (k : Nat) (t : Slot), s.table[k]? = some t → SlotMatches t s.arg →
      (∀ j u, s.table[j]? = some u → SlotMatches u s.arg →
        u.len.toNat < t.len.toNat ∨ (u.len = t.len ∧ k ≤ j)) →
      exec .lpmLookup s
        = finish s .ok t.nexthop (BitVec.ofNat 32 t.iface.toNat) (BitVec.ofNat 32 k) (BitVec.ofNat 32 t.len.toNat))
    ∧ ((∀ u ∈ s.table, ¬ SlotMatches u s.arg) → exec .lpmLookup s = finish s .notFound 0#32 0#32 0#32 0#32)
    ∧ ((∃ u ∈ s.table, SlotMatches u s.arg) → ∃ t, exec .lpmLookup s = .next t ∧ t.code = .ok)

/-- R190: LPM_FIND answers the slot that holds the staged key, with its next hop, interface, number and metric; with no
such slot it finishes with NOT_FOUND; a length above 32 or a prefix bit beyond the length gives NOT_FOUND in every state
that meets the invariants. -/
def Obligations.FindAnswersTheExactKey : Prop :=
  ∀ s : State,
    (∀ (k : Nat) (t : Slot), s.table[k]? = some t → SlotHolds t s.rtPrefix s.rtLen →
      (∀ j u, j < k → s.table[j]? = some u → ¬ SlotHolds u s.rtPrefix s.rtLen) →
      exec .lpmFind s
        = finish s .ok t.nexthop (BitVec.ofNat 32 t.iface.toNat) (BitVec.ofNat 32 k)
            (BitVec.ofNat 32 t.metric.toNat))
    ∧ ((∀ u ∈ s.table, ¬ SlotHolds u s.rtPrefix s.rtLen) →
      exec .lpmFind s = finish s .notFound 0#32 0#32 0#32 0#32)
    ∧ (s.Inv → (32 < s.rtLen.toNat ∨ s.rtPrefix &&& ~~~(maskOf s.rtLen.toNat) ≠ 0#32) →
      exec .lpmFind s = finish s .notFound 0#32 0#32 0#32 0#32)

/-- R195, R92: LPM_READ of a slot number below LPM_ENTRIES answers its prefix, next hop and the packed word
VALID<<31 | METRIC<<16 | IFACE<<8 | LEN, all zeros for an invalid slot of a table that meets the invariants; a number of
LPM_ENTRIES or more gives BAD_ARG. -/
def Obligations.ReadAnswersTheSlot : Prop :=
  ∀ s : State,
    (∀ t : Slot, s.arg.toNat < s.params.lpmEntries → s.table[s.arg.toNat]? = some t →
      ∃ w : Word, exec .lpmRead s = finish s .ok t.pfx t.nexthop w 0#32
        ∧ w.toNat = t.valid.toNat * 2 ^ 31 + t.metric.toNat * 2 ^ 16 + t.iface.toNat * 2 ^ 8 + t.len.toNat
        ∧ (s.Inv → t.valid = false → t.pfx = 0#32 ∧ t.nexthop = 0#32 ∧ w = 0#32))
    ∧ (s.params.lpmEntries ≤ s.arg.toNat → exec .lpmRead s = finish s .badArg 0#32 0#32 0#32 0#32)

/-- R200: LPM_CLEAR frees every slot and finishes with OK; T is then as after reset in every state that meets the
invariants; and a following LPM_LOOKUP of any address gives NOT_FOUND. -/
def Obligations.ClearEmptiesTheTable : Prop :=
  ∀ s : State, ∃ t, exec .lpmClear s = .next t
    ∧ finish { s with table := t.table } .ok 0#32 0#32 0#32 0#32 = .next t
    ∧ t.table.length = s.table.length
    ∧ (∀ u ∈ t.table, u = { valid := false, pfx := 0#32, len := 0#6, iface := 0#8, nexthop := 0#32, metric := 0#5 })
    ∧ (s.Inv → ∀ r, resetMoves s = .next r → t.table = r.table)
    ∧ ∀ a : Word, exec .lpmLookup { t with arg := a }
        = finish { t with arg := a } .notFound 0#32 0#32 0#32 0#32

/-- T belongs to the routing table (R40): a step changes T only when it is a reset, or the engine moves and LPM_INSERT,
LPM_DELETE or LPM_CLEAR is the pending command it runs; and no step changes the parameters (R7). That the engine moves
with an empty schedule is the model's choice (log 3). -/
def Obligations.OnlyTableCommandsChangeTheTable : Prop :=
  ∀ s t : State, step s = .next t →
    t.params = s.params
    ∧ (t.table ≠ s.table → (∃ ts, s.turns = .reset :: ts)
      ∨ ((s.turns = [] ∨ ∃ ts, s.turns = .engine :: ts)
        ∧ (s.pend = some (.command .lpmInsert) ∨ s.pend = some (.command .lpmDelete)
          ∨ s.pend = some (.command .lpmClear))))

/-! ### The forwarding engine (43_forward.md) -/

/-- FORWARD on a header that verifies, with TTL not 0 (R210, R213): byte 8 becomes TTL - 1, bytes 10–11 the one value
below 0xFFFF that makes the sum of the new header's words 0 modulo 0xFFFF, and no other byte changes; RES0 and RES1 are
these two, RES2 = 1 exactly when the new TTL is 0. -/
def Obligations.ForwardRewritesTtlAndChecksum : Prop :=
  ∀ s : State, HeaderValid s.pbuf → byteNum s.pbuf 8 ≠ 0 →
    ∃ (t : State) (c : Nat), exec .forward s = .next t ∧ c < 65535
      ∧ finish { s with pbuf := t.pbuf } .ok (BitVec.ofNat 32 (byteNum s.pbuf 8 - 1)) (BitVec.ofNat 32 c)
          (if byteNum s.pbuf 8 = 1 then 1#32 else 0#32) 0#32 = .next t
      ∧ readByte t.pbuf 8 = some (BitVec.ofNat 8 (byteNum s.pbuf 8 - 1))
      ∧ readByte t.pbuf 10 = some (BitVec.ofNat 8 (c / 256)) ∧ readByte t.pbuf 11 = some (BitVec.ofNat 8 (c % 256))
      ∧ (∀ a, a ≠ 8 → a ≠ 10 → a ≠ 11 → readByte t.pbuf a = readByte s.pbuf a)
      ∧ headerSum t.pbuf % 65535 = 0

/-- R211: FORWARD checks IHL, then the checksum by the comparison of CSUM_VERIFY, then TTL, and refuses the packet with
BAD_IHL, BAD_CSUM or TTL_EXPIRED, with nothing written. -/
def Obligations.ForwardRefusesInOrder : Prop :=
  ∀ s v : State, exec .csumVerify s = .next v →
    (v.code = .badIhl → exec .forward s = finish s .badIhl 0#32 0#32 0#32 0#32)
    ∧ (v.code = .ok → v.res0 = 0#32 → exec .forward s = finish s .badCsum 0#32 0#32 0#32 0#32)
    ∧ (v.code = .ok → v.res0 = 1#32 → byteNum s.pbuf 8 = 0 →
      exec .forward s = finish s .ttlExpired 0#32 0#32 0#32 0#32)
    ∧ (v.code = .badIhl ∨ (v.code = .ok ∧ (v.res0 = 0#32 ∨ v.res0 = 1#32)))

/-- R212(a), R214: after an OK FORWARD, TTL is one less and CSUM_VERIFY reports the new header valid. -/
def Obligations.ForwardedHeaderVerifies : Prop :=
  ∀ s t : State, exec .forward s = .next t → t.code = .ok →
    byteNum t.pbuf 8 + 1 = byteNum s.pbuf 8
    ∧ ∃ u, exec .csumVerify t = .next u ∧ u.code = .ok ∧ u.res0 = 1#32 ∧ u.res1 = t.res1

/-- R212(c): for every header FORWARD accepts, the recomputed checksum equals the incremental update
fold16(saved + 0x0100), except that it is 0x0000 exactly when saved = 0xFEFF, where the update would be 0xFFFF. -/
def Obligations.FullRecomputationAgainstIncremental : Prop :=
  ∀ s t : State, exec .forward s = .next t → t.code = .ok →
    (num16 s.pbuf 10 ≠ 0xFEFF → t.res1.toNat = fold16 (num16 s.pbuf 10 + 0x0100))
    ∧ (num16 s.pbuf 10 = 0xFEFF → fold16 (num16 s.pbuf 10 + 0x0100) = 0xFFFF)
    ∧ (t.res1 = 0#32 ↔ num16 s.pbuf 10 = 0xFEFF)

/-! ### The whole machine -/

/-- Every step keeps the invariants: legal parameters, COUNT in 0..25 (R33), PBUF in canonical form and inside
PBUF_BYTES, T of LPM_ENTRIES slots with I1, I2 and I3 (R41). -/
def Obligations.StepKeepsTheInvariants : Prop :=
  ∀ s t : State, s.Inv → step s = .next t → t.Inv

/-- The state after reset meets the invariants (R41). -/
def Obligations.ResetMeetsTheInvariants : Prop := State.reset.Inv

/-- R280: whatever the state, an asserted reset gives every state element its reset value: nothing pending, STATUS 0,
every register and MSG field 0, T empty, every PBUF byte unwritten. -/
def Obligations.ResetPinClearsEverything : Prop :=
  ∀ s : State, ∃ t, resetMoves s = .next t
    ∧ t.pend = none ∧ t.statusWord = 0#32 ∧ t.arg = 0#32
    ∧ t.res0 = 0#32 ∧ t.res1 = 0#32 ∧ t.res2 = 0#32 ∧ t.res3 = 0#32
    ∧ t.rtPrefix = 0#32 ∧ t.rtLen = 0#6 ∧ t.rtIface = 0#8 ∧ t.rtNexthop = 0#32 ∧ t.rtMetric = 0#5
    ∧ t.msgCmd = 0#8 ∧ t.msgCount = 0#5
    ∧ (∀ j : Fin 25, t.msgE.get j = { addr := 0#32, mask := 0#32, nexthop := 0#32, metric := 0#32 })
    ∧ t.table.length = s.params.lpmEntries
    ∧ (∀ u ∈ t.table, u = { valid := false, pfx := 0#32, len := 0#6, iface := 0#8, nexthop := 0#32, metric := 0#5 })
    ∧ ∀ i, t.pw i = false

/-! ### The helper functions (00_scope.md R11) -/

/-- R11: for l ≤ 32 the one bits of maskOf(l) are exactly its l high-order ones; isCidr(m) is the test of R11, true exactly
when m is maskOf(l) for some l in 0..32; lenOf(m) counts the leading one bits, and gives the length back of a CIDR mask;
fold16 adds the carry into the low 16 bits as long as the value is above 0xFFFF. -/
def Obligations.HelperFunctions : Prop :=
  (∀ l, l ≤ 32 → ∀ i, i < 32 → ((maskOf l).getLsbD i = true ↔ 32 - l ≤ i))
  ∧ (∀ m : Word, (isCidr m = true ↔ ~~~m &&& (~~~m + 1#32) = 0#32) ∧ (isCidr m = true ↔ CidrMask m))
  ∧ (∀ m : Word, lenOf m ≤ 32
      ∧ (∀ i, 32 - lenOf m ≤ i → i < 32 → m.getLsbD i = true)
      ∧ (lenOf m < 32 → m.getLsbD (31 - lenOf m) = false)
      ∧ (isCidr m = true → maskOf (lenOf m) = m))
  ∧ ∀ n : Nat, (n ≤ 0xFFFF → fold16 n = n) ∧ (0xFFFF < n → fold16 n = fold16 (n % 0x10000 + n / 0x10000))
end

