-- ==== Sys2Proof/Laws/State.lean ====
section
/-! SUPPORT. What each named update of the state does to each field, one lemma per field, true by rfl. -/

namespace Sys2Proof.Machine

/-! ### State.accept -/

@[simp] theorem State.accept_params (s : State) (w : Word) : (s.accept w).params = s.params := rfl
@[simp] theorem State.accept_pend (s : State) (w : Word) : (s.accept w).pend = some (pendingOf w) := rfl
@[simp] theorem State.accept_done (s : State) (w : Word) : (s.accept w).done = false := rfl
@[simp] theorem State.accept_overrun (s : State) (w : Word) : (s.accept w).overrun = s.overrun := rfl
@[simp] theorem State.accept_code (s : State) (w : Word) : (s.accept w).code = s.code := rfl
@[simp] theorem State.accept_arg (s : State) (w : Word) : (s.accept w).arg = s.arg := rfl
@[simp] theorem State.accept_res0 (s : State) (w : Word) : (s.accept w).res0 = s.res0 := rfl
@[simp] theorem State.accept_res1 (s : State) (w : Word) : (s.accept w).res1 = s.res1 := rfl
@[simp] theorem State.accept_res2 (s : State) (w : Word) : (s.accept w).res2 = s.res2 := rfl
@[simp] theorem State.accept_res3 (s : State) (w : Word) : (s.accept w).res3 = s.res3 := rfl
@[simp] theorem State.accept_rtPrefix (s : State) (w : Word) : (s.accept w).rtPrefix = s.rtPrefix := rfl
@[simp] theorem State.accept_rtLen (s : State) (w : Word) : (s.accept w).rtLen = s.rtLen := rfl
@[simp] theorem State.accept_rtIface (s : State) (w : Word) : (s.accept w).rtIface = s.rtIface := rfl
@[simp] theorem State.accept_rtNexthop (s : State) (w : Word) : (s.accept w).rtNexthop = s.rtNexthop := rfl
@[simp] theorem State.accept_rtMetric (s : State) (w : Word) : (s.accept w).rtMetric = s.rtMetric := rfl
@[simp] theorem State.accept_msgCmd (s : State) (w : Word) : (s.accept w).msgCmd = s.msgCmd := rfl
@[simp] theorem State.accept_msgCount (s : State) (w : Word) : (s.accept w).msgCount = s.msgCount := rfl
@[simp] theorem State.accept_msgE (s : State) (w : Word) : (s.accept w).msgE = s.msgE := rfl
@[simp] theorem State.accept_table (s : State) (w : Word) : (s.accept w).table = s.table := rfl
@[simp] theorem State.accept_pbuf (s : State) (w : Word) : (s.accept w).pbuf = s.pbuf := rfl
@[simp] theorem State.accept_hbRdata (s : State) (w : Word) : (s.accept w).hbRdata = s.hbRdata := rfl
@[simp] theorem State.accept_program (s : State) (w : Word) : (s.accept w).program = s.program := rfl
@[simp] theorem State.accept_turns (s : State) (w : Word) : (s.accept w).turns = s.turns := rfl
@[simp] theorem State.accept_draws (s : State) (w : Word) : (s.accept w).draws = s.draws := rfl

/-! ### State.complete -/

@[simp] theorem State.complete_params (s : State) (c : Code) (r0 r1 r2 r3 : Word) : (s.complete c r0 r1 r2 r3).params = s.params := rfl
@[simp] theorem State.complete_pend (s : State) (c : Code) (r0 r1 r2 r3 : Word) : (s.complete c r0 r1 r2 r3).pend = none := rfl
@[simp] theorem State.complete_done (s : State) (c : Code) (r0 r1 r2 r3 : Word) : (s.complete c r0 r1 r2 r3).done = true := rfl
@[simp] theorem State.complete_overrun (s : State) (c : Code) (r0 r1 r2 r3 : Word) : (s.complete c r0 r1 r2 r3).overrun = s.overrun := rfl
@[simp] theorem State.complete_code (s : State) (c : Code) (r0 r1 r2 r3 : Word) : (s.complete c r0 r1 r2 r3).code = c := rfl
@[simp] theorem State.complete_arg (s : State) (c : Code) (r0 r1 r2 r3 : Word) : (s.complete c r0 r1 r2 r3).arg = s.arg := rfl
@[simp] theorem State.complete_res0 (s : State) (c : Code) (r0 r1 r2 r3 : Word) : (s.complete c r0 r1 r2 r3).res0 = r0 := rfl
@[simp] theorem State.complete_res1 (s : State) (c : Code) (r0 r1 r2 r3 : Word) : (s.complete c r0 r1 r2 r3).res1 = r1 := rfl
@[simp] theorem State.complete_res2 (s : State) (c : Code) (r0 r1 r2 r3 : Word) : (s.complete c r0 r1 r2 r3).res2 = r2 := rfl
@[simp] theorem State.complete_res3 (s : State) (c : Code) (r0 r1 r2 r3 : Word) : (s.complete c r0 r1 r2 r3).res3 = r3 := rfl
@[simp] theorem State.complete_rtPrefix (s : State) (c : Code) (r0 r1 r2 r3 : Word) : (s.complete c r0 r1 r2 r3).rtPrefix = s.rtPrefix := rfl
@[simp] theorem State.complete_rtLen (s : State) (c : Code) (r0 r1 r2 r3 : Word) : (s.complete c r0 r1 r2 r3).rtLen = s.rtLen := rfl
@[simp] theorem State.complete_rtIface (s : State) (c : Code) (r0 r1 r2 r3 : Word) : (s.complete c r0 r1 r2 r3).rtIface = s.rtIface := rfl
@[simp] theorem State.complete_rtNexthop (s : State) (c : Code) (r0 r1 r2 r3 : Word) : (s.complete c r0 r1 r2 r3).rtNexthop = s.rtNexthop := rfl
@[simp] theorem State.complete_rtMetric (s : State) (c : Code) (r0 r1 r2 r3 : Word) : (s.complete c r0 r1 r2 r3).rtMetric = s.rtMetric := rfl
@[simp] theorem State.complete_msgCmd (s : State) (c : Code) (r0 r1 r2 r3 : Word) : (s.complete c r0 r1 r2 r3).msgCmd = s.msgCmd := rfl
@[simp] theorem State.complete_msgCount (s : State) (c : Code) (r0 r1 r2 r3 : Word) : (s.complete c r0 r1 r2 r3).msgCount = s.msgCount := rfl
@[simp] theorem State.complete_msgE (s : State) (c : Code) (r0 r1 r2 r3 : Word) : (s.complete c r0 r1 r2 r3).msgE = s.msgE := rfl
@[simp] theorem State.complete_table (s : State) (c : Code) (r0 r1 r2 r3 : Word) : (s.complete c r0 r1 r2 r3).table = s.table := rfl
@[simp] theorem State.complete_pbuf (s : State) (c : Code) (r0 r1 r2 r3 : Word) : (s.complete c r0 r1 r2 r3).pbuf = s.pbuf := rfl
@[simp] theorem State.complete_hbRdata (s : State) (c : Code) (r0 r1 r2 r3 : Word) : (s.complete c r0 r1 r2 r3).hbRdata = s.hbRdata := rfl
@[simp] theorem State.complete_program (s : State) (c : Code) (r0 r1 r2 r3 : Word) : (s.complete c r0 r1 r2 r3).program = s.program := rfl
@[simp] theorem State.complete_turns (s : State) (c : Code) (r0 r1 r2 r3 : Word) : (s.complete c r0 r1 r2 r3).turns = s.turns := rfl
@[simp] theorem State.complete_draws (s : State) (c : Code) (r0 r1 r2 r3 : Word) : (s.complete c r0 r1 r2 r3).draws = s.draws := rfl

/-! ### State.resetPin -/

@[simp] theorem State.resetPin_params (s : State) : s.resetPin.params = s.params := rfl
@[simp] theorem State.resetPin_pend (s : State) : s.resetPin.pend = State.reset.pend := rfl
@[simp] theorem State.resetPin_done (s : State) : s.resetPin.done = State.reset.done := rfl
@[simp] theorem State.resetPin_overrun (s : State) : s.resetPin.overrun = State.reset.overrun := rfl
@[simp] theorem State.resetPin_code (s : State) : s.resetPin.code = State.reset.code := rfl
@[simp] theorem State.resetPin_arg (s : State) : s.resetPin.arg = State.reset.arg := rfl
@[simp] theorem State.resetPin_res0 (s : State) : s.resetPin.res0 = State.reset.res0 := rfl
@[simp] theorem State.resetPin_res1 (s : State) : s.resetPin.res1 = State.reset.res1 := rfl
@[simp] theorem State.resetPin_res2 (s : State) : s.resetPin.res2 = State.reset.res2 := rfl
@[simp] theorem State.resetPin_res3 (s : State) : s.resetPin.res3 = State.reset.res3 := rfl
@[simp] theorem State.resetPin_rtPrefix (s : State) : s.resetPin.rtPrefix = State.reset.rtPrefix := rfl
@[simp] theorem State.resetPin_rtLen (s : State) : s.resetPin.rtLen = State.reset.rtLen := rfl
@[simp] theorem State.resetPin_rtIface (s : State) : s.resetPin.rtIface = State.reset.rtIface := rfl
@[simp] theorem State.resetPin_rtNexthop (s : State) : s.resetPin.rtNexthop = State.reset.rtNexthop := rfl
@[simp] theorem State.resetPin_rtMetric (s : State) : s.resetPin.rtMetric = State.reset.rtMetric := rfl
@[simp] theorem State.resetPin_msgCmd (s : State) : s.resetPin.msgCmd = State.reset.msgCmd := rfl
@[simp] theorem State.resetPin_msgCount (s : State) : s.resetPin.msgCount = State.reset.msgCount := rfl
@[simp] theorem State.resetPin_msgE (s : State) : s.resetPin.msgE = State.reset.msgE := rfl
@[simp] theorem State.resetPin_table (s : State) : s.resetPin.table = List.replicate s.params.lpmEntries Slot.free := rfl
@[simp] theorem State.resetPin_pbuf (s : State) : s.resetPin.pbuf = State.reset.pbuf := rfl
@[simp] theorem State.resetPin_hbRdata (s : State) : s.resetPin.hbRdata = State.reset.hbRdata := rfl
@[simp] theorem State.resetPin_program (s : State) : s.resetPin.program = s.program := rfl
@[simp] theorem State.resetPin_turns (s : State) : s.resetPin.turns = s.turns := rfl
@[simp] theorem State.resetPin_draws (s : State) : s.resetPin.draws = s.draws := rfl

/-! ### State.returns -/

@[simp] theorem State.returns_params (s : State) (v : Word) : (s.returns v).params = s.params := rfl
@[simp] theorem State.returns_pend (s : State) (v : Word) : (s.returns v).pend = s.pend := rfl
@[simp] theorem State.returns_done (s : State) (v : Word) : (s.returns v).done = s.done := rfl
@[simp] theorem State.returns_overrun (s : State) (v : Word) : (s.returns v).overrun = s.overrun := rfl
@[simp] theorem State.returns_code (s : State) (v : Word) : (s.returns v).code = s.code := rfl
@[simp] theorem State.returns_arg (s : State) (v : Word) : (s.returns v).arg = s.arg := rfl
@[simp] theorem State.returns_res0 (s : State) (v : Word) : (s.returns v).res0 = s.res0 := rfl
@[simp] theorem State.returns_res1 (s : State) (v : Word) : (s.returns v).res1 = s.res1 := rfl
@[simp] theorem State.returns_res2 (s : State) (v : Word) : (s.returns v).res2 = s.res2 := rfl
@[simp] theorem State.returns_res3 (s : State) (v : Word) : (s.returns v).res3 = s.res3 := rfl
@[simp] theorem State.returns_rtPrefix (s : State) (v : Word) : (s.returns v).rtPrefix = s.rtPrefix := rfl
@[simp] theorem State.returns_rtLen (s : State) (v : Word) : (s.returns v).rtLen = s.rtLen := rfl
@[simp] theorem State.returns_rtIface (s : State) (v : Word) : (s.returns v).rtIface = s.rtIface := rfl
@[simp] theorem State.returns_rtNexthop (s : State) (v : Word) : (s.returns v).rtNexthop = s.rtNexthop := rfl
@[simp] theorem State.returns_rtMetric (s : State) (v : Word) : (s.returns v).rtMetric = s.rtMetric := rfl
@[simp] theorem State.returns_msgCmd (s : State) (v : Word) : (s.returns v).msgCmd = s.msgCmd := rfl
@[simp] theorem State.returns_msgCount (s : State) (v : Word) : (s.returns v).msgCount = s.msgCount := rfl
@[simp] theorem State.returns_msgE (s : State) (v : Word) : (s.returns v).msgE = s.msgE := rfl
@[simp] theorem State.returns_table (s : State) (v : Word) : (s.returns v).table = s.table := rfl
@[simp] theorem State.returns_pbuf (s : State) (v : Word) : (s.returns v).pbuf = s.pbuf := rfl
@[simp] theorem State.returns_hbRdata (s : State) (v : Word) : (s.returns v).hbRdata = v := rfl
@[simp] theorem State.returns_program (s : State) (v : Word) : (s.returns v).program = s.program := rfl
@[simp] theorem State.returns_turns (s : State) (v : Word) : (s.returns v).turns = s.turns := rfl
@[simp] theorem State.returns_draws (s : State) (v : Word) : (s.returns v).draws = s.draws := rfl

/-! ### State.drawn -/

@[simp] theorem State.drawn_params (s : State) : s.drawn.params = s.params := rfl
@[simp] theorem State.drawn_pend (s : State) : s.drawn.pend = s.pend := rfl
@[simp] theorem State.drawn_done (s : State) : s.drawn.done = s.done := rfl
@[simp] theorem State.drawn_overrun (s : State) : s.drawn.overrun = s.overrun := rfl
@[simp] theorem State.drawn_code (s : State) : s.drawn.code = s.code := rfl
@[simp] theorem State.drawn_arg (s : State) : s.drawn.arg = s.arg := rfl
@[simp] theorem State.drawn_res0 (s : State) : s.drawn.res0 = s.res0 := rfl
@[simp] theorem State.drawn_res1 (s : State) : s.drawn.res1 = s.res1 := rfl
@[simp] theorem State.drawn_res2 (s : State) : s.drawn.res2 = s.res2 := rfl
@[simp] theorem State.drawn_res3 (s : State) : s.drawn.res3 = s.res3 := rfl
@[simp] theorem State.drawn_rtPrefix (s : State) : s.drawn.rtPrefix = s.rtPrefix := rfl
@[simp] theorem State.drawn_rtLen (s : State) : s.drawn.rtLen = s.rtLen := rfl
@[simp] theorem State.drawn_rtIface (s : State) : s.drawn.rtIface = s.rtIface := rfl
@[simp] theorem State.drawn_rtNexthop (s : State) : s.drawn.rtNexthop = s.rtNexthop := rfl
@[simp] theorem State.drawn_rtMetric (s : State) : s.drawn.rtMetric = s.rtMetric := rfl
@[simp] theorem State.drawn_msgCmd (s : State) : s.drawn.msgCmd = s.msgCmd := rfl
@[simp] theorem State.drawn_msgCount (s : State) : s.drawn.msgCount = s.msgCount := rfl
@[simp] theorem State.drawn_msgE (s : State) : s.drawn.msgE = s.msgE := rfl
@[simp] theorem State.drawn_table (s : State) : s.drawn.table = s.table := rfl
@[simp] theorem State.drawn_pbuf (s : State) : s.drawn.pbuf = s.pbuf := rfl
@[simp] theorem State.drawn_hbRdata (s : State) : s.drawn.hbRdata = Config.busyRead s.draws := rfl
@[simp] theorem State.drawn_program (s : State) : s.drawn.program = s.program := rfl
@[simp] theorem State.drawn_turns (s : State) : s.drawn.turns = s.turns := rfl
@[simp] theorem State.drawn_draws (s : State) : s.drawn.draws = s.draws + 1 := rfl

/-! ### BUSY -/

@[simp] theorem State.accept_busy (s : State) (w : Word) : (s.accept w).busy = true := rfl
@[simp] theorem State.complete_busy (s : State) (c : Code) (r0 r1 r2 r3 : Word) :
    (s.complete c r0 r1 r2 r3).busy = false := rfl
@[simp] theorem State.resetPin_busy (s : State) : s.resetPin.busy = false := rfl
@[simp] theorem State.returns_busy (s : State) (v : Word) : (s.returns v).busy = s.busy := rfl
@[simp] theorem State.drawn_busy (s : State) : s.drawn.busy = s.busy := rfl

theorem State.busy_eq_false {s : State} : s.busy = false ↔ s.pend = none := by
  cases h : s.pend <;> simp [State.busy, h]

/-! ### Completion -/

/-- The whole of `finish` (44_control.md R233): it answers a next state, the completion. -/
@[simp] theorem finish_eq (s : State) (c : Code) (r0 r1 r2 r3 : Word) :
    finish s c r0 r1 r2 r3 = .next (s.complete c r0 r1 r2 r3) := rfl
@[simp] theorem finishError_eq (s : State) (c : Code) :
    finishError s c = .next (s.complete c 0#32 0#32 0#32 0#32) := rfl
@[simp] theorem finishReject_eq (s : State) (r : RejectReason) (j : Nat) :
    finishReject s r j = .next (s.complete .reject r.num (BitVec.ofNat 32 j) 0#32 0#32) := rfl

end Sys2Proof.Machine
end

