-- ==== Sys2Proof/Laws/Memory.lean ====
section
/-! SUPPORT. The packet buffer: read after write, the canonical form is kept, and big-endian values. -/

namespace Sys2Proof.Machine

/-! ### One byte -/

theorem readByte_writeByte_same (m : Memory) (a : Nat) (v : Byte) : readByte (writeByte m a v) a = some v := by
  induction m with
  | nil => simp [writeByte, readByte]
  | cons c m ih =>
    obtain ⟨b, u⟩ := c
    simp only [writeByte]
    split
    · simp [readByte]
    · split
      · simp [readByte]
      · simp [readByte, *]

theorem readByte_writeByte_other (m : Memory) (a i : Nat) (v : Byte) (h : i ≠ a) :
    readByte (writeByte m a v) i = readByte m i := by
  induction m with
  | nil => simp [writeByte, readByte, h]
  | cons c m ih =>
    obtain ⟨b, u⟩ := c
    simp only [writeByte]
    split
    · simp [readByte, h]
    · split
      · next h2 => subst h2; simp [readByte, h]
      · simp [readByte, ih]

/-- Everything a byte write does to every read. -/
theorem readByte_writeByte (m : Memory) (a i : Nat) (v : Byte) :
    readByte (writeByte m a v) i = if i = a then some v else readByte m i := by
  split
  · next h => subst h; exact readByte_writeByte_same m i v
  · next h => exact readByte_writeByte_other m a i v h

theorem mem_writeByte {m : Memory} {a : Nat} {v : Byte} {c : Host.Cell} (h : c ∈ writeByte m a v) :
    c = (a, v) ∨ c ∈ m := by
  induction m with
  | nil => simp [writeByte] at h; exact .inl h
  | cons d m ih =>
    obtain ⟨b, u⟩ := d
    simp only [writeByte] at h
    split at h
    · simpa using h
    · split at h
      · simp only [List.mem_cons] at h ⊢
        rcases h with h | h
        · exact .inl h
        · exact .inr (.inr h)
      · simp only [List.mem_cons] at h ⊢
        rcases h with h | h
        · exact .inr (.inl h)
        · rcases ih h with h | h
          · exact .inl h
          · exact .inr (.inr h)

/-- A byte write keeps the canonical form. -/
theorem writeByte_wf {m : Memory} (h : Memory.wf m) (a : Nat) (v : Byte) : Memory.wf (writeByte m a v) := by
  induction m with
  | nil => simp [Memory.wf, writeByte]
  | cons d m ih =>
    obtain ⟨b, u⟩ := d
    have hd := List.pairwise_cons.mp h
    simp only [writeByte]
    split
    · next hab =>
      refine List.pairwise_cons.mpr ⟨?_, h⟩
      intro c hc
      rcases List.mem_cons.mp hc with rfl | hc
      · exact hab
      · exact lt_trans hab (hd.1 c hc)
    · split
      · next hab =>
        subst hab
        exact List.pairwise_cons.mpr ⟨fun c hc => hd.1 c hc, hd.2⟩
      · next h1 h2 =>
        refine List.pairwise_cons.mpr ⟨?_, ih hd.2⟩
        intro c hc
        rcases mem_writeByte hc with rfl | hc
        · show b < a
          omega
        · exact hd.1 c hc

/-! ### Runs of bytes -/

/-- Everything a run of byte writes does to every read. -/
theorem readByte_writeBytes (m : Memory) (a : Nat) (bs : List Byte) (i : Nat) :
    readByte (writeBytes m a bs) i = if a ≤ i ∧ i < a + bs.length then bs[i - a]? else readByte m i := by
  induction bs generalizing m a with
  | nil =>
    have : ¬ (a ≤ i ∧ i < a + ([] : List Byte).length) := by simp
    rw [if_neg this]; rfl
  | cons b bs ih =>
    simp only [writeBytes, ih, readByte_writeByte, List.length_cons]
    by_cases h1 : i = a
    · subst h1
      simp
    · by_cases h2 : a + 1 ≤ i ∧ i < a + 1 + bs.length
      · have h3 : a ≤ i ∧ i < a + (bs.length + 1) := by omega
        have h4 : i - a = (i - (a + 1)) + 1 := by omega
        rw [if_pos h2, if_pos h3, h4, List.getElem?_cons_succ]
      · have h3 : ¬ (a ≤ i ∧ i < a + (bs.length + 1)) := by omega
        rw [if_neg h2, if_neg h3, if_neg h1]

/-- A run of byte writes keeps the canonical form. -/
theorem writeBytes_wf {m : Memory} (h : Memory.wf m) (a : Nat) (bs : List Byte) :
    Memory.wf (writeBytes m a bs) := by
  induction bs generalizing m a with
  | nil => exact h
  | cons b bs ih => exact ih (writeByte_wf h a b) (a + 1)

/-- A listed byte of a run of writes is an old one or lies in the run. -/
theorem mem_writeBytes {m : Memory} {a : Nat} {bs : List Byte} {c : Host.Cell} (h : c ∈ writeBytes m a bs) :
    (a ≤ c.1 ∧ c.1 < a + bs.length) ∨ c ∈ m := by
  induction bs generalizing m a with
  | nil => exact .inr h
  | cons b bs ih =>
    simp only [List.length_cons]
    rcases ih h with h | h
    · left; omega
    · rcases mem_writeByte h with rfl | h
      · left; show a ≤ a ∧ a < _; omega
      · exact .inr h

theorem beBytes_length (n : Nat) (v : Word) : (beBytes n v).length = n := by
  induction n with
  | zero => rfl
  | succ n ih => simp [beBytes, ih]

/-- MemWrite keeps the canonical form. -/
theorem memWrite_wf {m : Memory} (h : Memory.wf m) (a n : Nat) (v : Word) : Memory.wf (memWrite m a n v) :=
  writeBytes_wf h a _

theorem readByte_memWrite (m : Memory) (a n : Nat) (v : Word) (i : Nat) :
    readByte (memWrite m a n v) i = if a ≤ i ∧ i < a + n then (beBytes n v)[i - a]? else readByte m i := by
  simp only [memWrite, readByte_writeBytes, beBytes_length]

theorem mem_memWrite {m : Memory} {a n : Nat} {v : Word} {c : Host.Cell} (h : c ∈ memWrite m a n v) :
    (a ≤ c.1 ∧ c.1 < a + n) ∨ c ∈ m := by
  have := mem_writeBytes h
  rwa [beBytes_length] at this

/-- A run of bytes is read exactly when each of them is. -/
theorem readBytes_eq_some {m : Memory} {a n : Nat} {bs : List Byte} :
    readBytes m a n = some bs ↔ bs.length = n ∧ ∀ i, i < n → readByte m (a + i) = bs[i]? := by
  induction n generalizing a bs with
  | zero => cases bs <;> simp [readBytes]
  | succ n ih =>
    simp only [readBytes]
    constructor
    · intro h
      split at h
      · next b bs' hb hbs =>
        cases h
        obtain ⟨hl, hr⟩ := ih.mp hbs
        refine ⟨by simp [hl], ?_⟩
        intro i hi
        cases i with
        | zero => simpa using hb
        | succ i =>
          have := hr i (by omega)
          simpa [Nat.add_assoc, Nat.add_comm 1 i] using this
      · cases h
    · rintro ⟨hl, hr⟩
      cases bs with
      | nil => simp at hl
      | cons b bs =>
        have h0 := hr 0 (by omega)
        simp only [Nat.add_zero, List.getElem?_cons_zero] at h0
        have h1 : readBytes m (a + 1) n = some bs := by
          refine ih.mpr ⟨by simpa using hl, ?_⟩
          intro i hi
          have := hr (i + 1) (by omega)
          simpa [Nat.add_assoc, Nat.add_comm 1 i] using this
        simp [h0, h1]

/-- A run of bytes cannot be read exactly when one of them is unwritten. -/
theorem readBytes_eq_none {m : Memory} {a n : Nat} :
    readBytes m a n = none ↔ ∃ i, i < n ∧ readByte m (a + i) = none := by
  induction n generalizing a with
  | zero => simp [readBytes]
  | succ n ih =>
    have split0 : (∃ i, i < n + 1 ∧ readByte m (a + i) = none) ↔
        readByte m a = none ∨ ∃ i, i < n ∧ readByte m (a + 1 + i) = none := by
      constructor
      · rintro ⟨i, hi, h⟩
        cases i with
        | zero => exact .inl h
        | succ i => exact .inr ⟨i, by omega, by simpa [Nat.add_assoc, Nat.add_comm 1 i] using h⟩
      · rintro (h | ⟨i, hi, h⟩)
        · exact ⟨0, by omega, h⟩
        · exact ⟨i + 1, by omega, by simpa [Nat.add_assoc, Nat.add_comm 1 i] using h⟩
    rw [split0, ← ih]
    simp only [readBytes]
    cases h1 : readByte m a <;> cases h2 : readBytes m (a + 1) n <;> simp

/-! ### Big-endian values -/

theorem beWord_beBytes_four (v : Word) : beWord (beBytes 4 v) = v := by
  simp only [beBytes, beWord, List.foldl]
  ext i hi
  simp only [BitVec.getElem_or, BitVec.getElem_shiftLeft, BitVec.getElem_setWidth, BitVec.getLsbD_extractLsb',
    BitVec.getElem_zero]
  interval_cases i <;> simp

/-- A 32-bit field read back where it was written (R10, R61). -/
theorem memRead_memWrite_four (m : Memory) (a : Nat) (v : Word) : memRead (memWrite m a 4 v) a 4 = some v := by
  have h : readBytes (memWrite m a 4 v) a 4 = some (beBytes 4 v) := by
    refine readBytes_eq_some.mpr ⟨beBytes_length 4 v, ?_⟩
    intro i hi
    rw [readByte_memWrite, if_pos (by omega), Nat.add_sub_cancel_left]
  simp [memRead, h, beWord_beBytes_four]

end Sys2Proof.Machine
end

