-- ==== Sys2Proof/Laws/Operands.lean ====
section
/-! SUPPORT. What each shared operand operation answers, said once: packet bytes as fields of PBUF, the header
operand, the table searches, the MSG commit. -/

namespace Sys2Proof.Machine

/-! ### A packet that was read from PBUF -/

theorem byteAt_of_readBytes {m : Memory} {n : Nat} {bs : List Byte} (h : readBytes m 0 n = some bs)
    {i : Nat} (hi : i < n) : readByte m i = some (byteAt bs i) := by
  obtain ⟨hl, hr⟩ := readBytes_eq_some.mp h
  have := hr i hi
  rw [Nat.zero_add] at this
  rw [this, byteAt, List.getD_eq_getElem?_getD, List.getElem?_eq_getElem (by omega)]
  rfl

theorem byteNum_of_readBytes {m : Memory} {n : Nat} {bs : List Byte} (h : readBytes m 0 n = some bs)
    {i : Nat} (hi : i < n) : byteNum m i = (byteAt bs i).toNat := by
  simp [byteNum, byteAt_of_readBytes h hi]

theorem length_of_readBytes {m : Memory} {a n : Nat} {bs : List Byte} (h : readBytes m a n = some bs) :
    bs.length = n := (readBytes_eq_some.mp h).1

theorem written_of_readBytes {m : Memory} {a n : Nat} {bs : List Byte} (h : readBytes m a n = some bs) :
    Written m a n := by
  obtain ⟨hl, hr⟩ := readBytes_eq_some.mp h
  intro i hi
  rw [hr i hi, List.getElem?_eq_getElem (by omega)]
  rfl

theorem readBytes_of_written {m : Memory} {a n : Nat} (h : Written m a n) : ∃ bs, readBytes m a n = some bs := by
  cases hr : readBytes m a n with
  | some bs => exact ⟨bs, rfl⟩
  | none =>
    obtain ⟨i, hi, hn⟩ := readBytes_eq_none.mp hr
    have := h i hi
    simp [hn] at this

/-- One byte appended to a big-endian value. -/
theorem beWord_snoc (acc : Word) (b : Byte) :
    ((acc <<< 8) ||| b.setWidth 32).toNat = acc.toNat * 256 % 4294967296 + b.toNat := by
  have hb := b.isLt
  have h0 : (acc <<< 8) &&& b.setWidth 32 = 0#32 := by
    ext i hi
    simp only [BitVec.getElem_and, BitVec.getElem_shiftLeft, BitVec.getElem_setWidth, BitVec.getElem_zero]
    by_cases h : i < 8
    · simp [h]
    · simp [BitVec.getLsbD_of_ge b i (by omega)]
  rw [← BitVec.add_eq_or_of_and_eq_zero _ _ h0, BitVec.toNat_add, BitVec.toNat_shiftLeft, BitVec.toNat_setWidth,
    Nat.shiftLeft_eq]
  omega

theorem beWord_two (a b : Byte) : (beWord [a, b]).toNat = a.toNat * 256 + b.toNat := by
  have ha := a.isLt
  have hb := b.isLt
  simp only [beWord, List.foldl, beWord_snoc, BitVec.toNat_ofNat]
  omega

theorem beWord_four (a b c d : Byte) :
    (beWord [a, b, c, d]).toNat = ((a.toNat * 256 + b.toNat) * 256 + c.toNat) * 256 + d.toNat := by
  have ha := a.isLt
  have hb := b.isLt
  have hc := c.isLt
  have hd := d.isLt
  simp only [beWord, List.foldl, beWord_snoc, BitVec.toNat_ofNat]
  omega

theorem drop_take_two (bs : List Byte) {i : Nat} (h : i + 2 ≤ bs.length) :
    (bs.drop i).take 2 = [byteAt bs i, byteAt bs (i + 1)] := by
  refine List.ext_getElem (by simp; omega) ?_
  intro k h1 h2
  simp only [List.length_cons, List.length_nil] at h2
  interval_cases k <;>
    simp [byteAt, List.getElem?_eq_getElem (show i < bs.length by omega),
      List.getElem?_eq_getElem (show i + 1 < bs.length by omega)]

theorem drop_take_four (bs : List Byte) {i : Nat} (h : i + 4 ≤ bs.length) :
    (bs.drop i).take 4 = [byteAt bs i, byteAt bs (i + 1), byteAt bs (i + 2), byteAt bs (i + 3)] := by
  refine List.ext_getElem (by simp; omega) ?_
  intro k h1 h2
  simp only [List.length_cons, List.length_nil] at h2
  interval_cases k <;>
    simp [byteAt, List.getElem?_eq_getElem (show i < bs.length by omega),
      List.getElem?_eq_getElem (show i + 1 < bs.length by omega),
      List.getElem?_eq_getElem (show i + 2 < bs.length by omega),
      List.getElem?_eq_getElem (show i + 3 < bs.length by omega)]

/-- A 16-bit field of a packet is be16 of PBUF (00_scope.md R10). -/
theorem beAt_two {m : Memory} {n : Nat} {bs : List Byte} (h : readBytes m 0 n = some bs) {i : Nat}
    (hi : i + 2 ≤ n) : (beAt bs i 2).toNat = num16 m i := by
  have hl := length_of_readBytes h
  rw [beAt, drop_take_two bs (by omega), beWord_two, num16, byteNum_of_readBytes h (by omega),
    byteNum_of_readBytes h (by omega)]

/-- A 32-bit field of a packet is be32 of PBUF (R10). -/
theorem beAt_four {m : Memory} {n : Nat} {bs : List Byte} (h : readBytes m 0 n = some bs) {i : Nat}
    (hi : i + 4 ≤ n) : (beAt bs i 4).toNat = num32 m i := by
  have hl := length_of_readBytes h
  rw [beAt, drop_take_four bs (by omega), beWord_four, num32, num16, num16, byteNum_of_readBytes h (by omega),
    byteNum_of_readBytes h (by omega), byteNum_of_readBytes h (by omega), byteNum_of_readBytes h (by omega)]
  ring

theorem byteNum_lt (m : Memory) (a : Nat) : byteNum m a < 256 := by
  rw [byteNum]; exact BitVec.isLt _

theorem num16_lt (m : Memory) (a : Nat) : num16 m a < 65536 := by
  have h1 := byteNum_lt m a
  have h2 := byteNum_lt m (a + 1)
  rw [num16]; omega

theorem num32_lt (m : Memory) (a : Nat) : num32 m a < 4294967296 := by
  have h1 := num16_lt m a
  have h2 := num16_lt m (a + 2)
  rw [num32]; omega

theorem beAt_four_eq {m : Memory} {n : Nat} {bs : List Byte} (h : readBytes m 0 n = some bs) {i : Nat}
    (hi : i + 4 ≤ n) : beAt bs i 4 = BitVec.ofNat 32 (num32 m i) := by
  apply BitVec.eq_of_toNat_eq
  rw [beAt_four h hi, BitVec.toNat_ofNat, Nat.mod_eq_of_lt (num32_lt m i)]

/-! ### The header operand (40_checksum.md R120, R121) -/

theorem ihlOf_eq (b : Byte) : ihlOf b = b.toNat % 16 := by
  simp [ihlOf, BitVec.extractLsb'_toNat]

theorem ihlOf_lt (b : Byte) : ihlOf b < 16 := by rw [ihlOf_eq]; omega

theorem headerOperand_of_unwritten {m : Memory} (h : readByte m 0 = none) : headerOperand m = .unwritten := by
  simp [headerOperand, h]

theorem headerOperand_of_badIhl {m : Memory} {b : Byte} (h : readByte m 0 = some b) (hi : ihlOf b < 5) :
    headerOperand m = .badIhl := by
  simp [headerOperand, h, hi]

/-- The header operand is bytes exactly when the header is ready, and then they are PBUF[0..4·ihl-1]. -/
theorem headerOperand_eq_bytes {m : Memory} {hdr : List Byte} :
    headerOperand m = .bytes hdr ↔ 5 ≤ ihlNum m ∧ readBytes m 0 (4 * ihlNum m) = some hdr := by
  cases h : readByte m 0 with
  | none =>
    rw [headerOperand_of_unwritten h]
    simp [ihlNum, byteNum, h]
  | some b =>
    have hb : ihlNum m = ihlOf b := by simp [ihlNum, byteNum, h, ihlOf_eq]
    rw [hb]
    simp only [headerOperand, h]
    split
    · simp; omega
    · next h5 =>
      cases h2 : readBytes m 0 (4 * ihlOf b) with
      | none => simp
      | some bs => simp; omega

theorem headerOperand_of_ready {m : Memory} (h : HeaderReady m) :
    ∃ hdr, headerOperand m = .bytes hdr ∧ readBytes m 0 (4 * ihlNum m) = some hdr := by
  obtain ⟨hdr, hr⟩ := readBytes_of_written h.2
  exact ⟨hdr, headerOperand_eq_bytes.mpr ⟨h.1, hr⟩, hr⟩

/-! ### Table searches (42_lpm_table.md R171, R174, R185) -/

theorem Slot.hasKey_iff {t : Slot} {p : Word} {l : BitVec 6} :
    t.hasKey p l = true ↔ t.valid = true ∧ t.pfx = p ∧ t.len = l := by
  simp [Slot.hasKey, and_assoc]

/-- findKey answers the first slot with the key. -/
theorem findKey_eq_some {tbl : List Slot} {p : Word} {l : BitVec 6} {k : Nat} :
    findKey tbl p l = some k ↔
      ∃ t, tbl[k]? = some t ∧ t.hasKey p l = true ∧ ∀ j u, j < k → tbl[j]? = some u → u.hasKey p l = false := by
  rw [findKey, List.findIdx?_eq_some_iff_getElem]
  constructor
  · rintro ⟨h, h1, h2⟩
    refine ⟨tbl[k], List.getElem?_eq_getElem h, h1, ?_⟩
    intro j u hj hu
    obtain ⟨hj2, rfl⟩ := List.getElem?_eq_some_iff.mp hu
    simpa using h2 j hj
  · rintro ⟨t, ht, h1, h2⟩
    obtain ⟨h, rfl⟩ := List.getElem?_eq_some_iff.mp ht
    refine ⟨h, h1, ?_⟩
    intro j hj
    simpa using h2 j tbl[j] hj (List.getElem?_eq_getElem (by omega))

theorem findKey_eq_none {tbl : List Slot} {p : Word} {l : BitVec 6} :
    findKey tbl p l = none ↔ ∀ t ∈ tbl, t.hasKey p l = false := by
  simp [findKey, List.findIdx?_eq_none_iff]

/-- freeSlot answers the lowest slot with VALID = 0. -/
theorem freeSlot_eq_some {tbl : List Slot} {k : Nat} :
    freeSlot tbl = some k ↔
      ∃ t, tbl[k]? = some t ∧ t.valid = false ∧ ∀ j u, j < k → tbl[j]? = some u → u.valid = true := by
  rw [freeSlot, List.findIdx?_eq_some_iff_getElem]
  constructor
  · rintro ⟨h, h1, h2⟩
    refine ⟨tbl[k], List.getElem?_eq_getElem h, by simpa using h1, ?_⟩
    intro j u hj hu
    obtain ⟨hj2, rfl⟩ := List.getElem?_eq_some_iff.mp hu
    simpa using h2 j hj
  · rintro ⟨t, ht, h1, h2⟩
    obtain ⟨h, rfl⟩ := List.getElem?_eq_some_iff.mp ht
    refine ⟨h, by simpa using h1, ?_⟩
    intro j hj
    simpa using h2 j tbl[j] hj (List.getElem?_eq_getElem (by omega))

theorem freeSlot_eq_none {tbl : List Slot} : freeSlot tbl = none ↔ ∀ t ∈ tbl, t.valid = true := by
  simp [freeSlot, List.findIdx?_eq_none_iff]

/-- A slot that the scan may answer: it matches, it is as long as every match, and longer than every lower one. -/
def IsLongest (a : Word) (tbl : List Slot) (k : Nat) (t : Slot) : Prop :=
  tbl[k]? = some t ∧ t.covers a = true
    ∧ (∀ u ∈ tbl, u.covers a = true → u.len.toNat ≤ t.len.toNat)
    ∧ ∀ j u, j < k → tbl[j]? = some u → u.covers a = true → u.len.toNat < t.len.toNat

theorem scanLongest_some {a : Word} {rest : List Slot} {done : List Slot} {best : Option (Nat × Slot)}
    (hb : match best with
      | none => ∀ u ∈ done, u.covers a = false
      | some b => IsLongest a done b.1 b.2) :
    match scanLongest a rest done.length best with
    | none => ∀ u ∈ done ++ rest, u.covers a = false
    | some b => IsLongest a (done ++ rest) b.1 b.2 := by
  induction rest generalizing done best with
  | nil => simpa [scanLongest] using hb
  | cons t ts ih =>
    have hlen : (done ++ [t]).length = done.length + 1 := by simp
    have happ : done ++ t :: ts = (done ++ [t]) ++ ts := by simp
    rw [happ]
    simp only [scanLongest]
    rw [← hlen]
    apply ih
    cases best with
    | none =>
      simp only [longerThan, Bool.and_true]
      by_cases hc : t.covers a = true
      · simp only [hc, if_true]
        refine ⟨by simp, hc, ?_, ?_⟩
        · intro u hu hcu
          rcases List.mem_append.mp hu with hu | hu
          · simp [hb u hu] at hcu
          · simp only [List.mem_singleton] at hu
            subst hu; exact le_refl _
        · intro j u hj hu hcu
          rw [List.getElem?_append_left (by simpa using hj)] at hu
          simp [hb u (List.mem_of_getElem? hu)] at hcu
      · simp only [hc]
        intro u hu
        rcases List.mem_append.mp hu with hu | hu
        · exact hb u hu
        · simp only [List.mem_singleton] at hu
          subst hu; simpa using hc
    | some b =>
      obtain ⟨k, v⟩ := b
      obtain ⟨hk, hcv, hmax, hlow⟩ := hb
      have hkl : k < done.length := by
        have := List.getElem?_eq_some_iff.mp hk
        exact this.1
      by_cases hc : t.covers a = true ∧ v.len.toNat < t.len.toNat
      · have : (t.covers a && decide (v.len.toNat < t.len.toNat)) = true := by simpa using hc
        simp only [longerThan, this, if_true]
        refine ⟨by simp, hc.1, ?_, ?_⟩
        · intro u hu hcu
          rcases List.mem_append.mp hu with hu | hu
          · exact le_of_lt (lt_of_le_of_lt (hmax u hu hcu) hc.2)
          · simp only [List.mem_singleton] at hu
            subst hu; exact le_refl _
        · intro j u hj hu hcu
          rw [List.getElem?_append_left (by simpa using hj)] at hu
          exact lt_of_le_of_lt (hmax u (List.mem_of_getElem? hu) hcu) hc.2
      · have : (t.covers a && decide (v.len.toNat < t.len.toNat)) = false := by
          rw [Bool.and_eq_false_iff]
          by_cases h1 : t.covers a = true
          · exact .inr (by simpa using fun h2 => hc ⟨h1, h2⟩)
          · exact .inl (by simpa using h1)
        simp only [longerThan, this]
        refine ⟨by simpa [List.getElem?_append_left hkl] using hk, ?_, ?_, ?_⟩
        · simpa using hcv
        · intro u hu hcu
          rcases List.mem_append.mp hu with hu | hu
          · simpa using hmax u hu hcu
          · simp only [List.mem_singleton] at hu
            subst hu
            simpa using fun h2 => hc ⟨hcu, h2⟩
        · intro j u hj hu hcu
          have hj' : j < k := by simpa using hj
          rw [List.getElem?_append_left (by omega)] at hu
          simpa using hlow j u hj' hu hcu

/-- Everything the scan of LPM_LOOKUP answers: the longest match with the lowest number, or that none matches. -/
theorem longestMatch_cases (tbl : List Slot) (a : Word) :
    (longestMatch tbl a = none ∧ ∀ u ∈ tbl, u.covers a = false)
      ∨ ∃ k t, longestMatch tbl a = some (k, t) ∧ IsLongest a tbl k t := by
  have h := scanLongest_some (a := a) (rest := tbl) (done := []) (best := none) (by simp)
  simp only [List.length_nil, List.nil_append] at h
  rw [longestMatch]
  cases hs : scanLongest a tbl 0 none with
  | none => rw [hs] at h; exact .inl ⟨rfl, h⟩
  | some b => rw [hs] at h; exact .inr ⟨b.1, b.2, rfl, h⟩

/-! ### The MSG commit (41_codec.md R144) -/

/-- Everything the commit does to every entry. -/
theorem storeEntries_getElem (v : Vector MsgEntry 25) (j : Nat) (xs : List MsgEntry) (i : Nat) (hi : i < 25) :
    (storeEntries v j xs)[i] = if h : j ≤ i ∧ i < j + xs.length then xs[i - j] else v[i] := by
  induction xs generalizing v j with
  | nil =>
    have : ¬ (j ≤ i ∧ i < j + ([] : List MsgEntry).length) := by simp
    rw [dif_neg this]; rfl
  | cons x xs ih =>
    rw [storeEntries, ih]
    by_cases h1 : i = j
    · subst h1
      rw [dif_neg (by omega), dif_pos (by simp)]
      simp
    · by_cases h2 : j + 1 ≤ i ∧ i < j + 1 + xs.length
      · rw [dif_pos h2, dif_pos (by simp only [List.length_cons]; omega)]
        have h4 : i - j = (i - (j + 1)) + 1 := by omega
        simp [h4]
      · rw [dif_neg h2, dif_neg (by simp only [List.length_cons]; omega)]
        simp [Ne.symm h1]

/-- matches(s, a) of R170. -/
theorem Slot.covers_iff {t : Slot} {a : Word} : t.covers a = true ↔ SlotMatches t a := by
  simp [Slot.covers, SlotMatches]

/-- legal(p, l, m) of R173. -/
theorem legalRoute_iff (s : State) : legalRoute s.rtPrefix s.rtLen s.rtMetric = true ↔ RouteLegal s := by
  unfold legalRoute RouteLegal
  simp only [Bool.and_eq_true, decide_eq_true_eq, beq_iff_eq, and_assoc]
  rfl

end Sys2Proof.Machine
end

