-- ==== Sys2Proof/Laws/Checksum.lean ====
section
/-! SUPPORT. The words and sums of an IPv4 header, as numbers of PBUF (40_checksum.md R120 to R122). -/

namespace Sys2Proof.Machine

theorem halves_length : ∀ (k : Nat) (bs : List Byte), bs.length = 2*k → (halves bs).length = k := by
  intro k; induction k with
  | zero => intro bs h; simp at h; subst h; rfl
  | succ k ih => 
    intro bs h
    match bs, h with
    | a :: b :: bs, h => simp [halves]; exact ih bs (by simp at h; omega)

theorem halves_getElem : ∀ (bs : List Byte) (k : Nat), 2*k+1 < bs.length → ((halves bs)[k]?).map BitVec.toNat
    = some ((byteAt bs (2*k)).toNat * 256 + (byteAt bs (2*k+1)).toNat) := by
  intro bs k
  induction k generalizing bs with
  | zero =>
    intro h
    match bs, h with
    | a :: b :: bs, h =>
      have e : (a ++ b).toNat = a.toNat * 256 + b.toNat := by
        rw [BitVec.toNat_append, ← Nat.shiftLeft_add_eq_or_of_lt b.isLt]; simp [Nat.shiftLeft_eq]
      simp [halves, byteAt, e]
  | succ k ih =>
    intro h
    match bs, h with
    | a :: b :: bs, h =>
      have := ih bs (by simp at h; omega)
      have e1 : 2*(k+1) = 2*k+1+1 := by ring
      simp only [halves, List.getElem?_cons_succ, this, byteAt, e1, List.getD_cons_succ]

theorem wordSum_eq_sum (m : Memory) : ∀ n, wordSum m n = ((List.range n).map (fun k => num16 m (2*k))).sum := by
  intro n; induction n with
  | zero => rfl
  | succ n ih => simp [wordSum, ih, List.range_succ]

/-- The 16-bit words of an even region of PBUF, as numbers (R122). -/
theorem halves_toNat {m : Memory} {n : Nat} {bs : List Byte} (h : readBytes m 0 (2*n) = some bs) :
    (halves bs).map BitVec.toNat = (List.range n).map (fun k => num16 m (2*k)) := by
  have hl := length_of_readBytes h
  apply List.ext_getElem?
  intro k
  have hlen := halves_length n bs hl
  by_cases hk : k < n
  · simp only [List.getElem?_map, halves_getElem bs k (by omega), List.getElem?_range hk, Option.map_some, num16]
    rw [byteNum_of_readBytes h (by omega), byteNum_of_readBytes h (by omega)]
  · rw [List.getElem?_eq_none (by simp; omega), List.getElem?_eq_none (by simp; omega)]

theorem sum_set_add (l : List Nat) (i : Nat) (h : i < l.length) (v : Nat) : (l.set i v).sum + l[i] = l.sum + v := by
  induction l generalizing i with
  | nil => simp at h
  | cons a l ih =>
    cases i with
    | zero => simp; omega
    | succ i => simp at h ⊢; have := ih i h; omega

/-- The sum with bytes 10–11 as stored is the sum of the header as stored (R122). -/
theorem rawSum_keep {m : Memory} {bs : List Byte} (h : readBytes m 0 (4 * ihlNum m)
    = some bs) : rawSum .keep bs = headerSum m := by
  have e : 4 * ihlNum m = 2 * (2 * ihlNum m) := by ring
  rw [e] at h
  rw [rawSum, summedHalves, halves_toNat h, headerSum, wordSum_eq_sum]

/-- The sum with bytes 10–11 as 0 is the rest of it (R122). -/
theorem rawSum_zero {m : Memory} {bs : List Byte} (h5 : 5 ≤ ihlNum m) (h : readBytes m 0 (4 * ihlNum m)
    = some bs) : rawSum .zero bs + num16 m 10 = headerSum m := by
  have e : 4 * ihlNum m = 2 * (2 * ihlNum m) := by ring
  rw [e] at h
  have hl := halves_length _ _ (length_of_readBytes h)
  have := sum_set_add ((halves bs).map BitVec.toNat) 5 (by simp; omega) 0
  simp only [rawSum, summedHalves, List.map_set]
  have h2 : ((halves bs).map BitVec.toNat)[5]'(by simp; omega) = num16 m 10 := by
    simp only [halves_toNat h, List.getElem_map, List.getElem_range]
  rw [h2] at this
  simp at this
  simp only [BitVec.toNat_ofNat, Nat.zero_mod]
  rw [this, halves_toNat h, headerSum, wordSum_eq_sum]

/-- The stored checksum as a number (R128). -/
theorem savedCsum_toNat {m : Memory} {bs : List Byte} (h5 : 5 ≤ ihlNum m) (h : readBytes m 0 (4 * ihlNum m)
    = some bs) : (savedCsum bs).toNat = num16 m 10 := by
  have := beAt_two h (i := 10) (by omega)
  simp only [savedCsum, BitVec.toNat_setWidth, this]
  exact Nat.mod_eq_of_lt (num16_lt _ _)

end Sys2Proof.Machine
end

