-- ==== Sys2Proof/Laws/Steps.lean ====
section
/-! SUPPORT. What each meaning, each bus transaction and each step can do, said once: if it answers next, then one
of these cases holds. -/

namespace Sys2Proof.Machine

/-! ### Commands -/

/-- The three ways a header command goes (40_checksum.md R121): it faults, it is refused for its IHL, or it has
the header bytes. -/
theorem headerOperand_cases (m : Memory) :
    headerOperand m = .unwritten ∨ headerOperand m = .badIhl
      ∨ ∃ hdr, headerOperand m = .bytes hdr ∧ 5 ≤ ihlNum m ∧ readBytes m 0 (4 * ihlNum m) = some hdr := by
  cases h : headerOperand m with
  | unwritten => exact .inl rfl
  | badIhl => exact .inr (.inl rfl)
  | bytes hdr =>
    obtain ⟨h1, h2⟩ := headerOperand_eq_bytes.mp h
    exact .inr (.inr ⟨hdr, rfl, h1, h2⟩)

theorem execCsumCompute_next {s t : State} (h : execCsumCompute s = .next t) :
    t = s.complete .badIhl 0#32 0#32 0#32 0#32
      ∨ ∃ hdr, headerOperand s.pbuf = .bytes hdr
        ∧ t = s.complete .ok ((csum .keep hdr).setWidth 32) 0#32 0#32 0#32 := by
  unfold execCsumCompute at h
  split at h
  · cases h
  · cases h; exact .inl rfl
  · next hdr hh => cases h; exact .inr ⟨hdr, hh, rfl⟩

theorem execCsumVerify_next {s t : State} (h : execCsumVerify s = .next t) :
    t = s.complete .badIhl 0#32 0#32 0#32 0#32
      ∨ ∃ hdr, headerOperand s.pbuf = .bytes hdr
        ∧ t = s.complete .ok (boolWord (csum .zero hdr == savedCsum hdr)) ((csum .zero hdr).setWidth 32)
            ((savedCsum hdr).setWidth 32) 0#32 := by
  unfold execCsumVerify at h
  split at h
  · cases h
  · cases h; exact .inl rfl
  · next hdr hh => cases h; exact .inr ⟨hdr, hh, rfl⟩

theorem execDisassemble_next {s t : State} (h : execDisassemble s = .next t) :
    (s.params.pbufBytes < s.arg.toNat ∧ t = s.complete .range 0#32 0#32 0#32 0#32)
      ∨ (∃ (r : RejectReason) (j : Nat), t = s.complete .reject r.num (BitVec.ofNat 32 j) 0#32 0#32)
      ∨ ∃ bs cmd es, readBytes s.pbuf 0 s.arg.toNat = some bs ∧ parsePacket bs = .ok (cmd, es)
        ∧ t = State.complete { s with msgCmd := cmd, msgCount := BitVec.ofNat 5 es.length,
                                      msgE := storeEntries s.msgE 0 es }
            .ok (BitVec.ofNat 32 es.length) 0#32 0#32 0#32 := by
  unfold execDisassemble at h
  split at h
  · next hr => cases h; exact .inl ⟨hr, rfl⟩
  · split at h
    · cases h; exact .inr (.inl ⟨.short, 0, rfl⟩)
    · split at h
      · cases h
      · next bs hb =>
        split at h
        · next r j hp => cases h; exact .inr (.inl ⟨r, j, rfl⟩)
        · next cmd es hp => cases h; exact .inr (.inr ⟨bs, cmd, es, hb, hp, rfl⟩)

theorem execAssemble_next {s t : State} (h : execAssemble s = .next t) :
    (s.params.pbufBytes < s.arg.toNat + payloadSize s ∧ t = s.complete .range 0#32 0#32 0#32 0#32)
      ∨ (s.arg.toNat + payloadSize s ≤ s.params.pbufBytes
        ∧ t = State.complete { s with pbuf := writeBytes s.pbuf s.arg.toNat (payload s) }
            .ok (BitVec.ofNat 32 (payloadSize s)) 0#32 0#32 0#32) := by
  unfold execAssemble at h
  split at h
  · next hr => cases h; exact .inl ⟨hr, rfl⟩
  · next hr => cases h; exact .inr ⟨by omega, rfl⟩

theorem execLpmInsert_next {s t : State} (h : execLpmInsert s = .next t) :
    (legalRoute s.rtPrefix s.rtLen s.rtMetric = false ∧ t = s.complete .badArg 0#32 0#32 0#32 0#32)
      ∨ (legalRoute s.rtPrefix s.rtLen s.rtMetric = true ∧ findKey s.table s.rtPrefix s.rtLen = none
        ∧ freeSlot s.table = none ∧ t = s.complete .tableFull 0#32 0#32 0#32 0#32)
      ∨ (∃ k, legalRoute s.rtPrefix s.rtLen s.rtMetric = true ∧ findKey s.table s.rtPrefix s.rtLen = some k
        ∧ t = State.complete { s with table := s.table.set k (s.replaceIn (slotAt s.table k)) }
            .ok (slotWord k) 1#32 0#32 0#32)
      ∨ ∃ f, legalRoute s.rtPrefix s.rtLen s.rtMetric = true ∧ findKey s.table s.rtPrefix s.rtLen = none
        ∧ freeSlot s.table = some f
        ∧ t = State.complete { s with table := s.table.set f s.stagedSlot } .ok (slotWord f) 0#32 0#32 0#32 := by
  unfold execLpmInsert at h
  split at h
  · next hl => cases h; exact .inl ⟨by simpa using hl, rfl⟩
  · next hl =>
    have hl' : legalRoute s.rtPrefix s.rtLen s.rtMetric = true := by simpa using hl
    split at h
    · next k hk => cases h; exact .inr (.inr (.inl ⟨k, hl', hk, rfl⟩))
    · next hk =>
      split at h
      · next hf => cases h; exact .inr (.inl ⟨hl', hk, hf, rfl⟩)
      · next f hf => cases h; exact .inr (.inr (.inr ⟨f, hl', hk, hf, rfl⟩))

theorem execLpmDelete_next {s t : State} (h : execLpmDelete s = .next t) :
    (findKey s.table s.rtPrefix s.rtLen = none ∧ t = s.complete .deleteMiss 0#32 0#32 0#32 0#32)
      ∨ ∃ k, findKey s.table s.rtPrefix s.rtLen = some k
        ∧ t = State.complete { s with table := s.table.set k Slot.free } .ok (slotWord k) 0#32 0#32 0#32 := by
  unfold execLpmDelete at h
  split at h
  · next hk => cases h; exact .inl ⟨hk, rfl⟩
  · next k hk => cases h; exact .inr ⟨k, hk, rfl⟩

theorem execForward_next {s t : State} (h : execForward s = .next t) :
    (∃ c, c ≠ .ok ∧ t = s.complete c 0#32 0#32 0#32 0#32)
      ∨ ∃ hdr, headerOperand s.pbuf = .bytes hdr ∧ csum .zero hdr = savedCsum hdr ∧ byteAt hdr 8 ≠ 0#8
        ∧ t = State.complete { s with
              pbuf := memWrite (memWrite s.pbuf 8 1 ((byteAt hdr 8 - 1#8).setWidth 32)) 10 2
                ((csum .zero (hdr.set 8 (byteAt hdr 8 - 1#8))).setWidth 32) }
            .ok ((byteAt hdr 8 - 1#8).setWidth 32)
            ((csum .zero (hdr.set 8 (byteAt hdr 8 - 1#8))).setWidth 32)
            (boolWord (byteAt hdr 8 - 1#8 == 0#8)) 0#32 := by
  unfold execForward at h
  split at h
  · cases h
  · cases h; exact .inl ⟨.badIhl, by decide, rfl⟩
  · next hdr hh =>
    simp only at h
    split at h
    · cases h; exact .inl ⟨.badCsum, by decide, rfl⟩
    · next hc =>
      split at h
      · cases h; exact .inl ⟨.ttlExpired, by decide, rfl⟩
      · next ht => cases h; exact .inr ⟨hdr, hh, by simpa using hc, ht, rfl⟩

/-! ### Bus transactions -/

/-- Everything a host read can do (20_memory.md R66(a), R67): it returns a value, or draws one while BUSY = 1. -/
theorem busRead_next {s t : State} {off : Nat} (h : busRead s off = .next t) :
    (∃ v, t = s.returns v) ∨ (s.busy = true ∧ t = s.drawn) := by
  unfold busRead at h
  split at h
  · cases h
  · split at h
    · cases h; exact .inl ⟨_, rfl⟩
    · split at h
      · next hb => cases h; exact .inr ⟨by simp at hb; exact hb.1, rfl⟩
      · split at h
        · cases h
        · cases h; exact .inl ⟨_, rfl⟩

/-- Everything a host write can do (R68, R46): it is dropped with OVERRUN set, ignored, or written. -/
theorem busWrite_next {s t : State} {off : Nat} {w : Word} (h : busWrite s off w = .next t) :
    (s.busy = true ∧ t = { s with overrun := true })
      ∨ (s.busy = false ∧ regAt s.params off = none ∧ t = s)
      ∨ ∃ r, s.busy = false ∧ regAt s.params off = some r ∧ t = writeReg s r w := by
  unfold busWrite at h
  split at h
  · cases h
  · split at h
    · next hb => cases h; exact .inl ⟨hb, rfl⟩
    · next hb =>
      have hb' : s.busy = false := by simpa using hb
      split at h
      · next hr => cases h; exact .inr (.inl ⟨hb', hr, rfl⟩)
      · next r hr => cases h; exact .inr (.inr ⟨r, hb', hr, rfl⟩)

/-- The host's move, by what its program holds next (30_encoding.md R110, R111). -/
theorem hostStep_eq (s : State) :
    hostStep s =
      match s.program with
      | [] => .next s
      | .rd a :: ops => busRead { s with program := ops } (BusAddr.offset a)
      | .wr a w :: ops => busWrite { s with program := ops } (BusAddr.offset a) w
      | .wait :: ops =>
        if s.busy then .next (s.returns s.statusWord)
        else .next ({ s with program := ops }.returns s.statusWord) := by
  have hb : s.statusWord.getLsbD 0 = s.busy := by
    simp only [State.statusWord, flagBit, BitVec.getLsbD_append]
    cases s.busy <;> simp
  rcases hp : s.program with _ | ⟨op, ops⟩
  · simp [hostStep, hp]
  · cases op <;> simp only [hostStep, hp, hb]

/-- Everything a move of the host can do: it is idle or completes a read or `wait` (which may leave the program as it
is), draws a value while BUSY = 1, has a write dropped, or writes a register. -/
theorem hostStep_next {s t : State} (h : hostStep s = .next t) :
    (∃ v ops, t = { s with program := ops, hbRdata := v })
      ∨ (s.busy = true ∧ ∃ ops, t = ({ s with program := ops } : State).drawn)
      ∨ (s.busy = true ∧ ∃ ops, t = { s with program := ops, overrun := true })
      ∨ ∃ a w ops r, s.busy = false ∧ s.program = .wr a w :: ops ∧ regAt s.params (BusAddr.offset a) = some r
          ∧ t = writeReg { s with program := ops } r w := by
  rw [hostStep_eq] at h
  split at h
  · cases h; exact .inl ⟨s.hbRdata, s.program, rfl⟩
  · next a ops _ =>
    rcases busRead_next h with ⟨v, rfl⟩ | ⟨hb, rfl⟩
    · exact .inl ⟨v, ops, rfl⟩
    · exact .inr (.inl ⟨hb, ops, rfl⟩)
  · next a w ops hp =>
    rcases busWrite_next h with ⟨hb, rfl⟩ | ⟨_, _, rfl⟩ | ⟨r, hb, hr, rfl⟩
    · exact .inr (.inr (.inl ⟨hb, ops, rfl⟩))
    · exact .inl ⟨s.hbRdata, ops, rfl⟩
    · exact .inr (.inr (.inr ⟨a, w, ops, r, hb, hp, hr, rfl⟩))
  · next ops _ =>
    split at h <;> cases h
    · exact .inl ⟨_, s.program, rfl⟩
    · exact .inl ⟨_, ops, rfl⟩

/-! ### One step -/

/-- What a step does, by whose turn it is (60_exceptions.md R256). -/
theorem step_eq (s : State) :
    step s =
      match s.turns with
      | [] => if s.busy then engineStep s else hostStep s
      | .host :: ts => hostStep { s with turns := ts }
      | .engine :: ts => engineStep { s with turns := ts }
      | .reset :: ts => .next { s with turns := ts }.resetPin := rfl

/-- The engine's move, by what is pending (44_control.md R231). -/
theorem engineStep_eq (s : State) :
    engineStep s =
      match s.pend with
      | none => .next s
      | some .illegal => .next (s.complete .illegal 0#32 0#32 0#32 0#32)
      | some (.command i) => exec i s := rfl

/-- Everything a move of the engine can do. -/
theorem engineStep_next {s t : State} (h : engineStep s = .next t) :
    (s.pend = none ∧ t = s)
      ∨ (s.pend = some .illegal ∧ t = s.complete .illegal 0#32 0#32 0#32 0#32)
      ∨ ∃ i, s.pend = some (.command i) ∧ exec i s = .next t := by
  rw [engineStep_eq] at h
  split at h
  · next hp => cases h; exact .inl ⟨hp, rfl⟩
  · next hp => cases h; exact .inr (.inl ⟨hp, rfl⟩)
  · next i hp => exact .inr (.inr ⟨i, hp, h⟩)

/-- Everything a step can do: one move of the reset pin, of the engine or of the host, with its turn used up. -/
theorem step_next {s t : State} (h : step s = .next t) :
    ∃ ts, (s.turns = .reset :: ts ∧ t = ({ s with turns := ts } : State).resetPin)
      ∨ (((s.turns = [] ∧ ts = [] ∧ s.busy = true) ∨ s.turns = .engine :: ts)
          ∧ engineStep { s with turns := ts } = .next t)
      ∨ (((s.turns = [] ∧ ts = [] ∧ s.busy = false) ∨ s.turns = .host :: ts)
          ∧ hostStep { s with turns := ts } = .next t) := by
  rw [step_eq] at h
  split at h
  · next h0 =>
    have e : s = { s with turns := [] } := by rw [← h0]
    split at h
    · next hb => exact ⟨[], .inr (.inl ⟨.inl ⟨h0, rfl, hb⟩, e ▸ h⟩)⟩
    · next hb => exact ⟨[], .inr (.inr ⟨.inl ⟨h0, rfl, by simpa using hb⟩, e ▸ h⟩)⟩
  · next ts h0 => exact ⟨ts, .inr (.inr ⟨.inr h0, h⟩)⟩
  · next ts h0 => exact ⟨ts, .inr (.inl ⟨.inr h0, h⟩)⟩
  · next ts h0 => cases h; exact ⟨ts, .inl ⟨h0, rfl⟩⟩

theorem step_engine_turn {s : State} {ts : List Turn} (h : s.turns = .engine :: ts) :
    step s = engineStep { s with turns := ts } := by rw [step_eq, h]

theorem step_host_turn {s : State} {ts : List Turn} (h : s.turns = .host :: ts) :
    step s = hostStep { s with turns := ts } := by rw [step_eq, h]

/-- The engine's move from any state. -/
theorem engineMoves_eq (s : State) : engineMoves s = engineStep s := rfl

/-- The reset pin from any state. -/
theorem resetMoves_eq (s : State) : resetMoves s = .next s.resetPin := rfl

/-- A host read from any state. -/
theorem hostReads_eq (s : State) (off : Nat) :
    hostReads s off = busRead s (BusAddr.offset (busAddr off)) := rfl

/-- A host write from any state. -/
theorem hostWrites_eq (s : State) (off : Nat) (w : Word) :
    hostWrites s off w = busWrite s (BusAddr.offset (busAddr off)) w := rfl

/-- A byte offset the port can carry names itself (20_memory.md R62). -/
theorem busAddr_offset {off : Nat} (h4 : off % 4 = 0) (h : off < 65536) : BusAddr.offset (busAddr off) = off := by
  simp only [BusAddr.offset, busAddr, BitVec.toNat_ofNat]
  omega

end Sys2Proof.Machine
end

