-- ==== Sys2Proof/Laws/Codec.lean ====
section
/-! SUPPORT. Everything the codec's parser and payload writer can do (41_codec.md), over the fields of PBUF as numbers. -/

namespace Sys2Proof.Machine

theorem not_low_ones_eq_maskOf : ∀ k : Fin 33, ~~~(BitVec.ofNat 32 (2^k.val - 1))
    = maskOf (32 - k.val) := by decide +kernel

theorem isCidr_maskOf : ∀ l : Fin 33, isCidr (maskOf l.val) = true := by decide +kernel

/-- isCidr holds exactly of the masks maskOf(l), l ≤ 32 (R11). -/
theorem isCidr_iff (m : Word) : isCidr m = true ↔ CidrMask m := by
  constructor
  · intro h
    simp only [isCidr, beq_iff_eq] at h
    have hx : ∃ k : Fin 33, (~~~m).toNat = 2^k.val - 1 := by
      generalize hg : ~~~m = x at h
      by_cases hm : x.toNat = 2^32 - 1
      · exact ⟨⟨32, by decide⟩, hm⟩
      · have hlt := x.isLt
        have h2 := congrArg BitVec.toNat h
        have h3 : (x + 1#32).toNat = x.toNat + 1 := by
          rw [BitVec.toNat_add]; simp; omega
        rw [BitVec.toNat_and, h3] at h2
        simp only [BitVec.toNat_ofNat, Nat.zero_mod] at h2
        have := (Nat.and_sub_one_eq_zero_iff_isPowerOfTwo (n := x.toNat + 1) (by omega)).mp (by rw [Nat.and_comm]; exact h2)
        obtain ⟨k, hk⟩ := this
        have hk32 : k < 33 := by
          by_contra hh
          have : 2^33 ≤ 2^k := Nat.pow_le_pow_right (by decide) (by omega)
          omega
        exact ⟨⟨k, hk32⟩, by simp; omega⟩
    obtain ⟨k, hk⟩ := hx
    refine ⟨32 - k.val, by omega, ?_⟩
    rw [← not_low_ones_eq_maskOf k, ← hk, BitVec.ofNat_toNat, BitVec.setWidth_eq]; simp
  · rintro ⟨l, hl, rfl⟩
    exact isCidr_maskOf ⟨l, by omega⟩

/-- The family check of R140 in numbers. -/
theorem familyOf_iff (cmd : Byte) (x : Word) : x = familyOf cmd ↔ x.toNat = familyNum cmd.toNat := by
  unfold familyOf familyNum
  by_cases h : cmd = 2#8
  · subst h; simp [← BitVec.toNat_inj]
  · have : cmd.toNat ≠ 2 := fun hh => h (BitVec.eq_of_toNat_eq (by simpa using hh))
    simp [h, this, ← BitVec.toNat_inj]

/-- The metric check of R140 in numbers. -/
theorem metricBad_eq_false (cmd : Byte) (x : Word) : metricBad cmd x = false ↔ MetricLegal cmd.toNat x.toNat := by
  simp only [metricBad, MetricLegal, metricInf]
  have h1 : (cmd = 1#8) ↔ cmd.toNat = 1 := by rw [← BitVec.toNat_inj]; simp
  have h2 : (cmd = 2#8) ↔ cmd.toNat = 2 := by rw [← BitVec.toNat_inj]; simp
  simp only [h1, h2, Bool.or_eq_false_iff, Bool.and_eq_false_iff, beq_eq_false_iff_ne, decide_eq_false_iff_not, ne_eq]
  by_cases hx : x.toNat = 16 <;> simp only [hx, not_true, not_false_iff, decide_true, decide_false] <;> (simp <;> omega)

/-- Everything one entry can decode to, in the order of R142. -/
theorem parseEntry_verdict {m : Memory} {len : Nat} {bs : List Byte} (h : readBytes m 0 len
    = some bs) (cmd : Byte) {e : Nat} (he : e + 20 ≤ len) :
   (num16 m e ≠ familyNum cmd.toNat → parseEntry cmd bs e = .error .family)
   ∧ (num16 m e = familyNum cmd.toNat →
     (num16 m (e+2) ≠ 0 → parseEntry cmd bs e = .error .tag)
     ∧ (num16 m (e+2) = 0 → 
       (¬ CidrMask (BitVec.ofNat 32 (num32 m (e+8))) → parseEntry cmd bs e = .error .mask)
       ∧ (CidrMask (BitVec.ofNat 32 (num32 m (e+8))) → 
         (¬ MetricLegal cmd.toNat (num32 m (e+16)) → parseEntry cmd bs e = .error .metric)
         ∧ (MetricLegal cmd.toNat (num32 m (e+16)) → parseEntry cmd bs e = .ok (entryOf m e))))) := by
  have a0 := beAt_two h (i := e) (by omega)
  have a2 := beAt_two h (i := e+2) (by omega)
  have a4 := beAt_four_eq h (i := e+4) (by omega)
  have a8 := beAt_four_eq h (i := e+8) (by omega)
  have a12 := beAt_four_eq h (i := e+12) (by omega)
  have a16 := beAt_four_eq h (i := e+16) (by omega)
  have f : beAt bs e 2 = familyOf cmd ↔ num16 m e = familyNum cmd.toNat := by rw [familyOf_iff, a0]
  have z : beAt bs (e+2) 2 = 0#32 ↔ num16 m (e+2) = 0 := by rw [← BitVec.toNat_inj, a2]; simp
  have mt := metricBad_eq_false cmd (BitVec.ofNat 32 (num32 m (e+16)))
  have : (BitVec.ofNat 32 (num32 m (e+16))).toNat = num32 m (e+16) := by
    simp; exact num32_lt _ _
  rw [this] at mt
  have mt' : metricBad cmd (BitVec.ofNat 32 (num32 m (e+16))) = true ↔ ¬ MetricLegal cmd.toNat (num32 m (e+16)) := by
    rw [← mt]; simp
  have ci := isCidr_iff (BitVec.ofNat 32 (num32 m (e+8)))
  have ci' : (!isCidr (BitVec.ofNat 32 (num32 m (e+8)))) = true ↔ ¬ CidrMask (BitVec.ofNat 32 (num32 m (e+8))) := by
    rw [← ci]; simp
  refine ⟨?_, fun h0 => ⟨?_, fun h2 => ⟨?_, fun h8 => ⟨?_, ?_⟩⟩⟩⟩
  all_goals intro hh
  · rw [parseEntry, if_pos (fun q => hh (f.mp q))]
  · rw [parseEntry, if_neg (fun q => q (f.mpr h0)), if_pos (fun q => hh (z.mp q))]
  · rw [parseEntry, if_neg (fun q => q (f.mpr h0)), if_neg (fun q => q (z.mpr h2)), a8, if_pos (ci'.mpr hh)]
  · rw [parseEntry, if_neg (fun q => q (f.mpr h0)), if_neg (fun q => q (z.mpr h2)), a8,
      if_neg (fun q => ci'.mp q h8), a16, if_pos (mt'.mpr hh)]
  · rw [parseEntry, if_neg (fun q => q (f.mpr h0)), if_neg (fun q => q (z.mpr h2)), a8,
      if_neg (fun q => ci'.mp q h8), a16, if_neg (fun q => mt'.mp q hh), a4, a12]; rfl

/-- An entry decodes exactly when it is legal, and then to its normalized fields (R143). -/
theorem parseEntry_eq_ok {m : Memory} {len : Nat} {bs : List Byte} (h : readBytes m 0 len
    = some bs) (cmd : Byte) {e : Nat} (he : e + 20 ≤ len) :
   (∀ x, parseEntry cmd bs e = .ok x ↔ (EntryLegal m cmd.toNat e ∧ x = entryOf m e)) := by
  intro x
  obtain ⟨p1, p2⟩ := parseEntry_verdict h cmd he
  by_cases h1 : num16 m e = familyNum cmd.toNat
  swap
  · rw [p1 h1]; simp [EntryLegal, h1]
  obtain ⟨p2, p3⟩ := p2 h1
  by_cases h2 : num16 m (e+2) = 0
  swap
  · rw [p2 h2]; simp [EntryLegal, h2]
  obtain ⟨p3, p4⟩ := p3 h2
  by_cases h3 : CidrMask (BitVec.ofNat 32 (num32 m (e+8)))
  swap
  · rw [p3 h3]; simp only [EntryLegal, h3]; simp
  obtain ⟨p4, p5⟩ := p4 h3
  by_cases h4 : MetricLegal cmd.toNat (num32 m (e+16))
  · rw [p5 h4]; 
    constructor
    · intro hh; injection hh with hh; exact ⟨⟨h1, h2, h3, h4⟩, hh.symm⟩
    · rintro ⟨_, rfl⟩; rfl
  · rw [p4 h4]
    constructor
    · intro hh; cases hh
    · rintro ⟨hh, _⟩; exact absurd hh.2.2.2 h4

/-- The entries decode exactly when each is legal. -/
theorem parseEntries_eq_ok {m : Memory} {len : Nat} {bs : List Byte} (h : readBytes m 0 len = some bs) (cmd : Byte) :
   ∀ n j e, e + 20 * n ≤ len → ∀ xs, parseEntries cmd bs n j e = .ok xs ↔ 
     (∀ i, i < n → EntryLegal m cmd.toNat (e + 20*i)) ∧ xs = (List.range n).map (fun i => entryOf m (e + 20*i)) := by
  intro n
  induction n with
  | zero => intro j e he xs; simp [parseEntries, eq_comm]
  | succ n ih =>
    intro j e he xs
    rw [parseEntries]
    have p := parseEntry_eq_ok h cmd (e := e) (by omega)
    cases hp : parseEntry cmd bs e with
    | error r =>
      simp only [hp] at p
      simp only [reduceCtorEq, false_iff]
      rintro ⟨hh, _⟩
      have := (p (entryOf m e)).mpr ⟨by simpa using hh 0 (by omega), rfl⟩
      cases this
    | ok x =>
      obtain ⟨p1, rfl⟩ := (p x).mp hp
      simp only [entryBytes]
      have ih' := ih (j+1) (e+20) (by omega)
      have e1 : (List.range (n+1)).map (fun i => entryOf m (e + 20*i)) = entryOf m e
          :: (List.range n).map (fun i => entryOf m (e + 20 + 20*i)) := by
        rw [List.range_succ_eq_map, List.map_cons, List.map_map, Nat.mul_zero, Nat.add_zero]
        refine congrArg _ (List.map_congr_left ?_)
        intro i _; show entryOf m (e + 20*(i+1)) = _; rw [show e + 20*(i+1) = e + 20 + 20*i by ring]
      have e2 : (∀ i, i < n+1 → EntryLegal m cmd.toNat (e + 20*i)) ↔ (∀ i, i < n
          → EntryLegal m cmd.toNat (e + 20 + 20*i)) := by
        constructor
        · intro hh i hi; have := hh (i+1) (by omega); rwa [show e + 20*(i+1) = e+20+20*i by ring] at this
        · intro hh i hi
          cases i with
          | zero => exact p1
          | succ i => have := hh i (by omega); rwa [show e + 20*(i+1) = e+20+20*i by ring]
      rw [e1, e2]
      cases hq : parseEntries cmd bs n (j+1) (e+20) with
      | error rj =>
        simp only [hq] at ih'
        simp only [reduceCtorEq, false_iff]
        rintro ⟨hh, _⟩
        have h3 : Except.error rj = Except.ok (ε := RejectReason × Nat) _ := (ih' _).mpr ⟨hh, rfl⟩
        nomatch h3
      | ok ys =>
        obtain ⟨q1, rfl⟩ := (ih' ys).mp hq
        constructor
        · intro hh; injection hh with hh; exact ⟨q1, hh.symm⟩
        · rintro ⟨_, rfl⟩; rfl

/-- The first failing entry decides, with its index (R142). -/
theorem parseEntries_eq_error {m : Memory} {len : Nat} {bs : List Byte} (h : readBytes m 0 len
    = some bs) (cmd : Byte) :
   ∀ n j e i r, e + 20 * n ≤ len → i < n → (∀ k, k < i → EntryLegal m cmd.toNat (e + 20*k))
       → parseEntry cmd bs (e + 20*i) = .error r →
     parseEntries cmd bs n j e = .error (r, j + i) := by
  intro n
  induction n with
  | zero => intro j e i r _ hi; omega
  | succ n ih =>
    intro j e i r he hi hk hr
    rw [parseEntries]
    cases i with
    | zero => simp at hr; simp [hr]
    | succ i =>
      have hk0 := hk 0 (by omega)
      rw [(parseEntry_eq_ok h cmd (e := e) (by omega) _).mpr ⟨by simpa using hk0, rfl⟩]
      have hk' : ∀ k, k < i → EntryLegal m cmd.toNat (e + 20 + 20*k) := fun k hkk => by
        have := hk (k+1) (by omega)
        rwa [show e + 20*(k+1) = e+20+20*k by ring] at this
      have hr' : parseEntry cmd bs (e + 20 + 20*i) = .error r := by
        rwa [show e + 20*(i+1) = e+20+20*i by ring] at hr
      have := ih (j+1) (e+20) i r (by omega) (by omega) hk' hr'
      simp only [entryBytes, this]
      rw [show j+1+i = j+(i+1) by ring]

/-- ihl, the RIP header offset and the length, from the bytes read. -/
theorem packet_fields {m : Memory} {len : Nat} {bs : List Byte} (h : readBytes m 0 len = some bs) (hl : 20 ≤ len) :
    ihlOf (byteAt bs 0) = ihlNum m ∧ ripOffset bs = ripStart m ∧ bs.length = len := by
  have : ihlOf (byteAt bs 0) = ihlNum m := by rw [ihlOf_eq, ihlNum, byteNum_of_readBytes h (by omega)]
  refine ⟨this, ?_, length_of_readBytes h⟩
  rw [ripOffset, this]; rfl

theorem byteAt_eq_iff {m : Memory} {len : Nat} {bs : List Byte} (h : readBytes m 0 len = some bs) {i : Nat}
    (hi : i < len) (k : Nat) (hk : k < 256) :
    byteAt bs i = BitVec.ofNat 8 k ↔ byteNum m i = k := by
  rw [byteNum_of_readBytes h hi, ← BitVec.toNat_inj]; simp; omega

/-- The decoded entries with the RIP command, or the failing check. -/
def withCommand (cmd : Byte) (x : Except (RejectReason × Nat) (List MsgEntry)) : Except (RejectReason × Nat) (Byte × List MsgEntry) :=
  match x with
  | .error rj => .error rj
  | .ok es => .ok (cmd, es)

/-- Everything a packet of at least 20 bytes can decode to, in the order of R142. -/
theorem parsePacket_verdict {m : Memory} {len : Nat} {bs : List Byte} (h : readBytes m 0 len = some bs)
    (hl : 20 ≤ len) :
   (ihlNum m < 5 → parsePacket bs = .error (.ihl, 0))
   ∧ (5 ≤ ihlNum m →
    (len < ripStart m + 4 → parsePacket bs = .error (.short, 0))
    ∧ (ripStart m + 4 ≤ len →
      ((len - (ripStart m + 4)) % 20 ≠ 0 → parsePacket bs = .error (.size, 0))
      ∧ ((len - (ripStart m + 4)) % 20 = 0 →
       (25 < (len - (ripStart m + 4)) / 20 → parsePacket bs = .error (.oversize, 0))
       ∧ ((len - (ripStart m + 4)) / 20 ≤ 25 →
        (byteNum m (ripStart m) ≠ 1 ∧ byteNum m (ripStart m) ≠ 2 → parsePacket bs = .error (.command, 0))
        ∧ (byteNum m (ripStart m) = 1 ∨ byteNum m (ripStart m) = 2 →
          (byteNum m (ripStart m + 1) ≠ 2 → parsePacket bs = .error (.version, 0))
          ∧ (byteNum m (ripStart m + 1) = 2 →
           (byteNum m (ripStart m + 2) ≠ 0 ∨ byteNum m (ripStart m + 3) ≠ 0 → parsePacket bs = .error (.reserved, 0))
           ∧ (byteNum m (ripStart m + 2) = 0 ∧ byteNum m (ripStart m + 3) = 0 →
              parsePacket bs = withCommand (byteAt bs (ripStart m)) (parseEntries (byteAt bs (ripStart m)) bs ((len - (ripStart m + 4)) / 20) 0 (ripStart m + 4))))))))) := by
  obtain ⟨h1, h2, h3⟩ := packet_fields h hl
  have e4 : ripHdrBytes = 4 := rfl
  have e20 : entryBytes = 20 := rfl
  have e25 : msgMax = 25 := rfl
  refine ⟨?_, fun a1 => ⟨?_, fun a2 => ?_⟩⟩
  · intro hh; rw [parsePacket, h1]; simp only [hh, if_true]
  · intro hh; rw [parsePacket]; simp only [h1, h2, h3, e4]; rw [if_neg (by omega), if_pos hh]
  have b0 := byteAt_eq_iff h (i := ripStart m) (by omega)
  have b1 := byteAt_eq_iff h (i := ripStart m + 1) (by omega)
  have b2 := byteAt_eq_iff h (i := ripStart m + 2) (by omega)
  have b3 := byteAt_eq_iff h (i := ripStart m + 3) (by omega)
  have c01 := b0 1 (by omega); have c02 := b0 2 (by omega); have c1 := b1 2 (by omega)
  have c2 := b2 0 (by omega); have c3 := b3 0 (by omega)
  have k0 : (byteAt bs (ripStart m) ≠ 1#8 ∧ byteAt bs (ripStart m) ≠ 2#8) ↔ (byteNum m (ripStart m) ≠ 1
      ∧ byteNum m (ripStart m) ≠ 2) := by
    rw [ne_eq, ne_eq, c01, c02]
  have k2 : (byteAt bs (ripStart m+2) ≠ 0#8 ∨ byteAt bs (ripStart m+3) ≠ 0#8)
      ↔ (byteNum m (ripStart m+2) ≠ 0 ∨ byteNum m (ripStart m+3) ≠ 0) := by
    rw [ne_eq, ne_eq, c2, c3]
  have k1 : (byteAt bs (ripStart m+1) ≠ 2#8) ↔ (byteNum m (ripStart m+1) ≠ 2) := not_congr c1
  refine ⟨?_, fun a3 => ⟨?_, fun a4 => ⟨?_, fun a5 => ⟨?_, fun a6 => ⟨?_, fun a7 => ?_⟩⟩⟩⟩⟩
  · intro hh; rw [parsePacket]; simp only [h1, h2, h3, e4, e20]; rw [if_neg (by omega), if_neg (by omega), if_pos hh]
  · intro hh; rw [parsePacket]; simp only [h1, h2, h3, e4, e20, e25]; rw [if_neg (by omega), if_neg (by omega),
      if_neg (by omega), if_pos hh]
  · intro hh; rw [parsePacket]; simp only [h1, h2, h3, e4, e20, e25]; rw [if_neg (by omega), if_neg (by omega),
      if_neg (by omega), if_neg (by omega), if_pos (k0.mpr hh)]
  · intro hh; rw [parsePacket]; simp only [h1, h2, h3, e4, e20, e25]; rw [if_neg (by omega), if_neg (by omega),
      if_neg (by omega), if_neg (by omega), if_neg (fun q => by have := k0.mp q; omega), if_pos (k1.mpr hh)]
  · intro hh; rw [parsePacket]; simp only [h1, h2, h3, e4, e20, e25]; rw [if_neg (by omega), if_neg (by omega),
      if_neg (by omega), if_neg (by omega), if_neg (fun q => by have := k0.mp q; omega),
          if_neg (fun q => k1.mp q a6), if_pos (k2.mpr hh)]
  · rw [parsePacket]; simp only [h1, h2, h3, e4, e20, e25]; rw [if_neg (by omega), if_neg (by omega),
      if_neg (by omega), if_neg (by omega), if_neg (fun q => by have := k0.mp q; omega),
          if_neg (fun q => k1.mp q a6), if_neg (fun q => by have := k2.mp q; omega)]
    cases parseEntries (byteAt bs (ripStart m)) bs ((len - (ripStart m + 4)) / 20) 0 (ripStart m + 4) <;> rfl

/-- An accepted packet has a legal frame and legal entries (R140). -/
theorem parsePacket_eq_ok {m : Memory} {len : Nat} {bs : List Byte} (h : readBytes m 0 len = some bs)
    (hl : 20 ≤ len) {cmd es} (hp : parsePacket bs = .ok (cmd, es)) :
    ∃ n, FrameLegal m len cmd.toNat n ∧ (∀ j, j < n → EntryLegal m cmd.toNat (entryStart m j)) ∧ es
        = (List.range n).map (fun j => entryOf m (entryStart m j)) ∧ es.length = n := by
  obtain ⟨s1, s2⟩ := parsePacket_verdict h hl
  by_cases c1 : ihlNum m < 5
  · rw [s1 c1] at hp; cases hp
  have c1 := Nat.not_lt.mp c1
  obtain ⟨s1, s2⟩ := s2 c1
  by_cases c2 : len < ripStart m + 4
  · rw [s1 c2] at hp; cases hp
  obtain ⟨s1, s2⟩ := s2 (Nat.not_lt.mp c2)
  by_cases c3 : (len - (ripStart m + 4)) % 20 ≠ 0
  · rw [s1 c3] at hp; cases hp
  have c3 := not_not.mp c3
  obtain ⟨s1, s2⟩ := s2 c3
  by_cases c4 : 25 < (len - (ripStart m + 4)) / 20
  · rw [s1 c4] at hp; cases hp
  obtain ⟨s1, s2⟩ := s2 (Nat.not_lt.mp c4)
  by_cases c5 : byteNum m (ripStart m) ≠ 1 ∧ byteNum m (ripStart m) ≠ 2
  · rw [s1 c5] at hp; cases hp
  have c5 : byteNum m (ripStart m) = 1 ∨ byteNum m (ripStart m) = 2 := by clear * - c5; omega
  obtain ⟨s1, s2⟩ := s2 c5
  by_cases c6 : byteNum m (ripStart m + 1) ≠ 2
  · rw [s1 c6] at hp; cases hp
  have c6 := not_not.mp c6
  obtain ⟨s1, s2⟩ := s2 c6
  by_cases c7 : byteNum m (ripStart m + 2) ≠ 0 ∨ byteNum m (ripStart m + 3) ≠ 0
  · rw [s1 c7] at hp; cases hp
  rw [not_or, not_not, not_not] at c7
  have s2 := s2 c7
  rw [s2] at hp
  clear s1 s2
  have z1 : ripStart m + 4 + 20 * ((len - (ripStart m + 4)) / 20) ≤ len := by clear * - c2; omega
  have z2 : ripStart m < len := by clear * - c2; omega
  cases hq : parseEntries (byteAt bs (ripStart m)) bs ((len - (ripStart m + 4)) / 20) 0 (ripStart m + 4) with
  | error rj => rw [hq] at hp; cases hp
  | ok ys =>
    rw [hq] at hp
    injection hp with hp; injection hp with hp1 hp2
    subst hp1; subst hp2
    obtain ⟨q1, q2⟩ := (parseEntries_eq_ok h _ _ _ _ (z1) _).mp hq
    have hb := byteNum_of_readBytes h (i := ripStart m) z2
    have hlen : ys.length = (len - (ripStart m + 4)) / 20 := by rw [q2]; simp
    have y1 : 5 ≤ ihlNum m := c1
    have y2 : len = ripStart m + 4 + 20 * ((len - (ripStart m + 4)) / 20) := by clear * - c2 c3; omega
    have y3 : (len - (ripStart m + 4)) / 20 ≤ 25 := Nat.not_lt.mp c4
    have y5 : byteNum m (ripStart m + 1) = 2 := c6
    have y4 : (byteAt bs (ripStart m)).toNat = 1 ∨ (byteAt bs (ripStart m)).toNat = 2 := by rw [← hb]; exact c5
    have y6 : byteNum m (ripStart m + 2) = 0 := c7.1
    have y7 : byteNum m (ripStart m + 3) = 0 := c7.2
    exact ⟨(len - (ripStart m + 4)) / 20, ⟨y1, y2, y3, written_of_readBytes h, hb, y4, y5, y6, y7⟩, q1, q2, hlen⟩

/-- DISASSEMBLE once its packet has been read (R141). -/
theorem execDisassemble_read {s : State} {bs} (h1 : s.arg.toNat ≤ s.params.pbufBytes) (h2 : 20 ≤ s.arg.toNat)
    (h : readBytes s.pbuf 0 s.arg.toNat = some bs) :
    exec .disassemble s = match parsePacket bs with
      | .error (r, j) => finishReject s r j
      | .ok (cmd, es) =>
        finish { s with msgCmd := cmd, msgCount := BitVec.ofNat 5 es.length, msgE := storeEntries s.msgE 0 es }
          .ok (BitVec.ofNat 32 es.length) 0#32 0#32 0#32 := by
  simp only [exec, execDisassemble]
  rw [if_neg (by omega), if_neg (by omega), h]
  all_goals (cases hp : parsePacket bs <;> simp only [hp])

/-- What MSG.E[j] holds after the entries are stored (R144). -/
theorem storeEntries_get (v : Vector MsgEntry 25) (n : Nat) (f : Nat → MsgEntry) (j : Fin 25) :
   (storeEntries v 0 ((List.range n).map f)).get j = if j.val < n then f j.val else v.get j := by
  have := storeEntries_getElem v 0 ((List.range n).map f) j.val j.isLt
  show (storeEntries v 0 ((List.range n).map f))[j.val] = _
  rw [this]
  by_cases hj : j.val < n
  · simp [hj]
  · simp [hj]; rfl

theorem entryWire_length (cmd : Byte) (x : MsgEntry) : (entryWire cmd x).length = 20 := by simp [entryWire,
    beBytes_length]

theorem flatten_map_get (f : MsgEntry → List Byte) (hf : ∀ x, (f x).length
    = 20) : ∀ (l : List MsgEntry) (j k : Nat), j < l.length → k < 20 →
    ((l.map f).flatten)[20*j + k]? = (l[j]?.map f).bind (fun y => y[k]?) := by
  intro l
  induction l with
  | nil => intro j k h; simp at h
  | cons a l ih =>
    intro j k hj hk
    simp only [List.map_cons, List.flatten_cons]
    cases j with
    | zero => rw [List.getElem?_append_left (by rw [hf]; omega)]; simp
    | succ j =>
      rw [List.getElem?_append_right (by rw [hf]; omega), hf, show 20*(j+1)+k-20 = 20*j+k by omega,
          ih j k (by simpa using hj) hk]
      simp

theorem flatten_map_length (f : MsgEntry → List Byte) (hf : ∀ x, (f x).length
    = 20) (l : List MsgEntry) : ((l.map f).flatten).length = 20 * l.length := by
  induction l with
  | nil => rfl
  | cons a l ih => simp only [List.map_cons, List.flatten_cons, List.length_append, ih, hf, List.length_cons]; omega

/-- A payload has size bytes (R150). -/
theorem payload_length (s : State) (_h : s.msgCount.toNat ≤ 25) : (payload s).length = payloadSize s := by
  simp only [payload, List.length_append, flatten_map_length _ (entryWire_length _), payloadSize, ripHdrBytes,
      entryBytes]
  simp; omega

/-- Byte k of entry j of a payload (R150). -/
theorem payload_getElem (s : State) (_h : s.msgCount.toNat ≤ 25) (j : Fin 25) (hj : j.val < s.msgCount.toNat)
    (k : Nat) (hk : k < 20) :
   (payload s)[4 + 20 * j.val + k]? = (entryWire s.msgCmd (s.msgE.get j))[k]? := by
  rw [payload, List.getElem?_append_right (by simp; omega)]
  simp only [List.length_cons, List.length_nil]
  rw [show 4 + 20*j.val + k - (0+1+1+1+1) = 20*j.val + k by omega,
      flatten_map_get _ (entryWire_length _) _ _ _ (by simp; omega) hk]
  rw [List.getElem?_take_of_lt hj]
  have : s.msgE.toList[j.val]? = some (s.msgE.get j) := by
    rw [List.getElem?_eq_getElem (by simp)]
    congr 1
  rw [this]; rfl

end Sys2Proof.Machine
end

