-- ==== Sys2Proof/Laws/PerInstr.lean ====
section
/-! SUPPORT. Statements about every command as syntax, one lemma per constructor. -/

namespace Sys2Proof.Laws

/-- The one instruction format (30_encoding.md R80): the command is well-formed, RSV is 0, and OPCODE is the
command's own. -/
def WordFormat.Statement (i : Instr) : Prop :=
  i.wf = true ∧ rsvField (encode i) = 0#24 ∧ opcodeField (encode i) = i.opcode

theorem WordFormat.nop : WordFormat.Statement .nop := ⟨rfl, by decide, by decide⟩
theorem WordFormat.csumCompute : WordFormat.Statement .csumCompute := ⟨rfl, by decide, by decide⟩
theorem WordFormat.csumVerify : WordFormat.Statement .csumVerify := ⟨rfl, by decide, by decide⟩
theorem WordFormat.disassemble : WordFormat.Statement .disassemble := ⟨rfl, by decide, by decide⟩
theorem WordFormat.assemble : WordFormat.Statement .assemble := ⟨rfl, by decide, by decide⟩
theorem WordFormat.lpmInsert : WordFormat.Statement .lpmInsert := ⟨rfl, by decide, by decide⟩
theorem WordFormat.lpmDelete : WordFormat.Statement .lpmDelete := ⟨rfl, by decide, by decide⟩
theorem WordFormat.lpmLookup : WordFormat.Statement .lpmLookup := ⟨rfl, by decide, by decide⟩
theorem WordFormat.lpmFind : WordFormat.Statement .lpmFind := ⟨rfl, by decide, by decide⟩
theorem WordFormat.lpmRead : WordFormat.Statement .lpmRead := ⟨rfl, by decide, by decide⟩
theorem WordFormat.lpmClear : WordFormat.Statement .lpmClear := ⟨rfl, by decide, by decide⟩
theorem WordFormat.forward : WordFormat.Statement .forward := ⟨rfl, by decide, by decide⟩

end Sys2Proof.Laws
end

