-- ==== Sys2Proof/Tests/Slice0.lean ====
section
/-! SUPPORT. Named tests: expected values from spec/95_test_vectors.md (V…) or written out from the rule named; and for
every statement of Certificates/Slice0 with hypotheses, a witness that meets them (`test_wit_…`). -/

namespace Sys2Proof.Tests

open Sys2Proof Sys2Proof.Machine

set_option Elab.async false

/-! ### Helpers -/

/-- Bytes at rising addresses from `a`, nothing else written. -/
def bytesAt : Nat → List Byte → Memory
  | _, [] => []
  | a, b :: bs => (a, b) :: bytesAt (a + 1) bs

/-- Bytes from words, big-endian, from address `a` (R112). -/
def mem (a : Nat) (ws : List Word) : Memory := bytesAt a (ws.map (beBytes 4)).flatten

theorem readByte_bytesAt (bs : List Byte) (a i : Nat) (h : i < bs.length) :
    (readByte (bytesAt a bs) (a + i)).isSome = true := by
  induction bs generalizing a i with
  | nil => cases h
  | cons b bs ih =>
    rw [bytesAt, readByte]
    cases i with
    | zero => simp
    | succ i =>
      rw [if_neg (by omega), show a + (i + 1) = a + 1 + i by omega]
      exact ih (a + 1) i (by simpa using h)

theorem written_bytesAt (bs : List Byte) (n : Nat) (h : n ≤ bs.length) : Written (bytesAt 0 bs) 0 n :=
  fun i hi => readByte_bytesAt bs 0 i (by omega)

/-- The state after reset with these words at PBUF[0] and this ARG. -/
def loaded (ws : List Word) (arg : Word) : State := { State.reset with pbuf := mem 0 ws, arg := arg }

/-- CODE and RES0..RES3 after a command. -/
def res (r : Result) : Option (Code × Word × Word × Word × Word) :=
  (nextOf r).map fun t => (t.code, t.res0, t.res1, t.res2, t.res3)

/-- CODE after a command. -/
def codeOf (r : Result) : Option Code := (nextOf r).map State.code

/-- The reference packet PK1 (18 words). -/
def pk1 : List Word :=
  [0x45C00048#32, 0x00004000#32, 0x0111D531#32, 0xC0A80302#32, 0xE0000009#32, 0x02080208#32, 0x00340000#32,
    0x02020000#32, 0x00020000#32, 0x0A00004D#32, 0xFFFFFF00#32, 0#32, 1#32, 0x00020000#32, 0xC0A80300#32,
    0xFFFFFF00#32, 0xC0A80301#32, 2#32]

/-- The header of V50. -/
def hdr50 : List Word := [0x45000054#32, 0x12344000#32, 0x05014E70#32, 0x0A000001#32, 0x0A000105#32]

/-- T of two slots, 10.0.0.0/24 and 10.0.0.0/16 (V40, V41), the least PBUF; ARG = 10.0.0.5 and the /24 staged. -/
def routes : State :=
  { State.reset with
    params := { pbufBytes := 532, lpmEntries := 3, ripcBase := 0 }
    table := [{ valid := true, pfx := 0x0A000000#32, len := 24#6, iface := 3#8, nexthop := 0x0A000203#32, metric := 5#5 },
              { valid := true, pfx := 0x0A000000#32, len := 16#6, iface := 2#8, nexthop := 0xC0A80301#32, metric := 2#5 },
              Slot.free]
    arg := 0x0A000005#32
    rtPrefix := 0x0A000000#32, rtLen := 24#6, rtIface := 7#8, rtNexthop := 9#32, rtMetric := 16#5 }

/-- The same, with a command pending. -/
def pending (i : Instr) : State := { routes with pend := some (.command i) }

/-! ### Well-formedness refuses -/

theorem test_wf_pbuf_multiple : Params.wf { Params.defaults with pbufBytes := 534 } = false := by decide
theorem test_wf_pbuf_small : Params.wf { Params.defaults with pbufBytes := 528 } = false := by decide
theorem test_wf_pbuf_large : Params.wf { Params.defaults with pbufBytes := 61444 } = false := by decide
theorem test_wf_lpm_zero : Params.wf { Params.defaults with lpmEntries := 0 } = false := by decide
theorem test_wf_lpm_large : Params.wf { Params.defaults with lpmEntries := 256 } = false := by decide
theorem test_wf_target_window : Target.wf Params.defaults (.reg (.pbufWord 512)) = false := by decide
theorem test_wf_target_unaligned : Target.wf Params.defaults (.at 0x00E) = false := by decide
theorem test_wf_target_port : Target.wf Params.defaults (.at 8192) = false := by decide
theorem test_wf_line_unaligned : HostLine.wf Params.defaults (.pbuf 2 [0#32]) = false := by decide
theorem test_wf_line_window : HostLine.wf Params.defaults (.pbuf 2044 [0#32, 0#32]) = false := by decide
theorem test_wf_line_target : HostLine.wf Params.defaults (.rd (.at 1)) = false := by decide
theorem test_wf_legal :
    Params.defaults.wf = true ∧ Target.wf Params.defaults (.reg (.pbufWord 511)) = true
      ∧ HostLine.wf Params.defaults (.pbuf 2044 [0#32]) = true ∧ Instr.wf .forward = true := by decide

/-! ### Decoding: the words of R82, bit by bit (RSV 24 zeros, OPCODE 8 bits) -/

theorem test_decode_nop : decode 0b00000000000000000000000000000000#32 = .ok .nop := by rfl
theorem test_decode_csumCompute : decode 0b00000000000000000000000000000001#32 = .ok .csumCompute := by rfl
theorem test_decode_csumVerify : decode 0b00000000000000000000000000000010#32 = .ok .csumVerify := by rfl
theorem test_decode_disassemble : decode 0b00000000000000000000000000010000#32 = .ok .disassemble := by rfl
theorem test_decode_assemble : decode 0b00000000000000000000000000010001#32 = .ok .assemble := by rfl
theorem test_decode_lpmInsert : decode 0b00000000000000000000000000100000#32 = .ok .lpmInsert := by rfl
theorem test_decode_lpmDelete : decode 0b00000000000000000000000000100001#32 = .ok .lpmDelete := by rfl
theorem test_decode_lpmLookup : decode 0b00000000000000000000000000100010#32 = .ok .lpmLookup := by rfl
theorem test_decode_lpmFind : decode 0b00000000000000000000000000100011#32 = .ok .lpmFind := by rfl
theorem test_decode_lpmRead : decode 0b00000000000000000000000000100100#32 = .ok .lpmRead := by rfl
theorem test_decode_lpmClear : decode 0b00000000000000000000000000100101#32 = .ok .lpmClear := by rfl
theorem test_decode_forward : decode 0b00000000000000000000000000110000#32 = .ok .forward := by rfl
/-- V62, V62b: an opcode of no row; V62a: RSV not zero; the top bit of RSV. -/
theorem test_decode_illegal :
    decode 0x00000003#32 = .error .unlistedOpcode ∧ decode 0x000000FF#32 = .error .unlistedOpcode
      ∧ decode 0x00000110#32 = .error .reservedBits ∧ decode 0x80000000#32 = .error .reservedBits := ⟨rfl, rfl, rfl, rfl⟩
theorem test_encode_forward : encode .forward = 0x00000030#32 := by rfl
theorem test_decodeTableWord :
    decodeTableWord 32 0x25 = some .lpmClear ∧ decodeTableWord 8 0x11 = some .assemble ∧ decodeTableWord 32 0x0F = none := by
  decide
/-- The very next step runs the placed word (V61, V62). -/
theorem test_withFetchWord :
    codeOf (step (State.reset.withFetchWord 32 0x25)) = some .ok
      ∧ codeOf (step (State.reset.withFetchWord 32 3)) = some .illegal := by decide +kernel
theorem test_cmd_line : expandLine (.cmd .disassemble) = [.wr 2#14 0x10#32] := by decide
theorem test_pbuf_line : expandLine (.pbuf 4 [7#32, 8#32]) = [.wr 0x401#14 7#32, .wr 0x402#14 8#32] := by decide

/-! ### The commands, one step each -/

theorem test_nop_V61 : res (exec .nop routes) = some (.ok, 0#32, 0#32, 0#32, 0#32) := by decide +kernel
/-- V64a: a NOP keeps OVERRUN. -/
theorem test_nop_V64a : (nextOf (exec .nop { routes with overrun := true })).map State.statusWord = some 6#32 := by
  decide +kernel
theorem test_csumCompute_V5 :
    res (exec .csumCompute (loaded [0x4500FFFF#32, 0xFFFFBB01#32, 0#32, 0#32, 0#32] 0#32))
      = some (.ok, 0xFFFD#32, 0#32, 0#32, 0#32) := by decide +kernel
theorem test_csumCompute_V9 :
    res (exec .csumCompute (loaded [0x46000018#32, 0#32, 0x40110000#32, 0x0A000001#32, 0x0A000002#32, 0x01020304#32] 0#32))
      = some (.ok, 0x61CD#32, 0#32, 0#32, 0#32) := by decide +kernel
theorem test_csumVerify_V4 :
    res (exec .csumVerify (loaded [0x45C00048#32, 0x00004000#32, 0x0211D531#32, 0xC0A80302#32, 0xE0000009#32] 0#32))
      = some (.ok, 0#32, 0xD431#32, 0xD531#32, 0#32) := by decide +kernel
theorem test_csumVerify_V7 :
    res (exec .csumVerify (loaded [0x4500BAFF#32, 0#32, 0x0000FFFF#32, 0#32, 0#32] 0#32))
      = some (.ok, 0#32, 0#32, 0xFFFF#32, 0#32) := by decide +kernel
/-- V10, V13: the address and the next hop are masked. -/
theorem test_disassemble_V10 :
    (nextOf (exec .disassemble (loaded pk1 72#32))).map (fun t => (t.res0, t.msgCmd, t.msgCount, t.msgE.toList.take 2))
      = some (2#32, 2#8, 2#5, [⟨0x0A000000#32, 0xFFFFFF00#32, 0#32, 1#32⟩,
                               ⟨0xC0A80300#32, 0xFFFFFF00#32, 0xC0A80300#32, 2#32⟩]) := by decide +kernel
/-- V11: a mask with a hole in entry 1. -/
theorem test_disassemble_V11 :
    res (exec .disassemble { loaded pk1 72#32 with pbuf := memWrite (mem 0 pk1) 60 4 0x00FF00FF#32 })
      = some (.reject, 10#32, 1#32, 0#32, 0#32) := by decide +kernel
/-- V35: unaligned ARG, a command byte other than 1 and 2. -/
theorem test_assemble_V35 :
    (nextOf (exec .assemble { State.reset with
        msgCmd := 7#8, msgCount := 1#5, arg := 1#32,
        msgE := State.reset.msgE.set 0 ⟨0x0A000000#32, 0xFFFFFF00#32, 0#32, 1#32⟩ })).bind
      (fun t => readBytes t.pbuf 1 24)
      = some [7#8, 2#8, 0#8, 0#8, 0#8, 0#8, 0#8, 0#8, 0x0A#8, 0#8, 0#8, 0#8, 0xFF#8, 0xFF#8, 0xFF#8, 0#8,
              0#8, 0#8, 0#8, 0#8, 0#8, 0#8, 0#8, 1#8] := by decide +kernel
/-- V32, V33, V33b: the bound in unbounded arithmetic. -/
theorem test_assemble_V33 :
    codeOf (exec .assemble { State.reset with arg := 2044#32 }) = some .ok
      ∧ codeOf (exec .assemble { State.reset with arg := 2045#32 }) = some .range
      ∧ codeOf (exec .assemble { State.reset with arg := 0xFFFFFFFF#32 }) = some .range := by decide +kernel
/-- V42a: a replace keeps its slot. -/
theorem test_lpmInsert_V42a : res (exec .lpmInsert routes) = some (.ok, 0#32, 1#32, 0#32, 0#32) := by decide +kernel
/-- V47b: a new key, of length 32 and metric 16, takes the lowest free slot; V43d: metric 17. -/
theorem test_lpmInsert_V47b :
    res (exec .lpmInsert { routes with rtPrefix := 0x0A000005#32, rtLen := 32#6 }) = some (.ok, 2#32, 0#32, 0#32, 0#32)
      ∧ codeOf (exec .lpmInsert { routes with rtMetric := 17#5 }) = some .badArg := by decide +kernel
theorem test_lpmDelete_V48 :
    (nextOf (exec .lpmDelete routes)).map (fun t => (t.res0, t.table.head?)) = some (0#32, some Slot.free) := by
  decide +kernel
theorem test_lpmDelete_V48b : codeOf (exec .lpmDelete { routes with rtLen := 40#6 }) = some .deleteMiss := by decide +kernel
theorem test_lpmLookup_V46 :
    res (exec .lpmLookup routes) = some (.ok, 0x0A000203#32, 3#32, 0#32, 24#32) := by decide +kernel
theorem test_lpmLookup_V46a :
    res (exec .lpmLookup { routes with arg := 0x0A00FF01#32 }) = some (.ok, 0xC0A80301#32, 2#32, 1#32, 16#32) := by
  decide +kernel
theorem test_lpmFind_V44 : res (exec .lpmFind routes) = some (.ok, 0x0A000203#32, 3#32, 0#32, 5#32) := by decide +kernel
theorem test_lpmFind_V44a : codeOf (exec .lpmFind { routes with rtLen := 8#6 }) = some .notFound := by decide +kernel
theorem test_lpmRead_V45a :
    res (exec .lpmRead { routes with arg := 1#32 }) = some (.ok, 0x0A000000#32, 0xC0A80301#32, 0x80020210#32, 0#32) := by
  decide +kernel
theorem test_lpmRead_V45c : codeOf (exec .lpmRead { routes with arg := 3#32 }) = some .badArg := by decide +kernel
theorem test_lpmClear_V49a :
    (nextOf (exec .lpmClear routes)).map State.table = some [Slot.free, Slot.free, Slot.free] := by decide +kernel
/-- V50: TTL 5 becomes 4, and only bytes 8, 10 and 11 change. -/
theorem test_forward_V50 :
    (nextOf (exec .forward (loaded hdr50 0#32))).map State.pbuf
      = some (mem 0 [0x45000054#32, 0x12344000#32, 0x04014F70#32, 0x0A000001#32, 0x0A000105#32]) := by decide +kernel
/-- V53: the full recomputation gives 0x0000. -/
theorem test_forward_V53 :
    res (exec .forward (loaded [0x45000000#32, 0#32, 0x0511FEFF#32, 0xB6EE0000#32, 0#32] 0#32))
      = some (.ok, 4#32, 0#32, 0#32, 0#32) := by decide +kernel

/-! ### The bus -/

theorem test_bus_V60 : nextOf (hostReads State.reset 4) = some { State.reset with hbRdata := 0x19400800#32 } := by
  decide +kernel
theorem test_bus_V65 : (nextOf (hostReads State.reset 0xFFC)).map State.hbRdata = some 0#32 := by decide +kernel
theorem test_bus_V67 :
    (nextOf (hostWrites { State.reset with msgCount := 2#5 } 0x84 26#32)).map State.msgCount = some 2#5 := by decide +kernel
theorem test_bus_V68 :
    (nextOf (hostWrites { State.reset with rtLen := 3#6 } 0x34 64#32)).map State.rtLen = some 0#6 := by decide +kernel
theorem test_bus_V69 : faultOf (hostReads State.reset 0x1000) = some .unwrittenPbufRead := by decide +kernel
theorem test_bus_port : faultOf (hostReads State.reset 0x2000) = some .noSuchAddress := by decide +kernel
/-- V63: a write while a command is pending. -/
theorem test_bus_V63 :
    (nextOf (hostWrites (pending .nop) 0x40 2#32)).map (fun t => (t.overrun, t.rtMetric)) = some (true, 16#5) := by
  decide +kernel
/-- V64. -/
theorem test_bus_V64 :
    (nextOf (hostWrites { State.reset with overrun := true, done := true } 0xC 4#32)).map State.statusWord = some 2#32 := by
  decide +kernel

/-! ### Witnesses: concrete states and operands that meet the hypotheses of each statement, clause by clause -/

/-- A packet of `n` entries behind a header with ihl 5: the frame, then zero entries. -/
def requests (n : Nat) : List Word :=
  [0x45000000#32, 0#32, 0#32, 0#32, 0#32, 0#32, 0#32, 0x01020000#32]
    ++ (List.replicate n [0#32, 0#32, 0#32, 0#32, 16#32]).flatten

/-- A header with ihl 15 (60 bytes), all other bytes 0. -/
def longHeader : List Word := 0x4F000000#32 :: List.replicate 14 0#32

/-- MSG of V30 staged over a written header, ARG = 28. -/
def message : State :=
  { loaded (pk1.take 7) 28#32 with
    msgCmd := 2#8, msgCount := 1#5, msgE := State.reset.msgE.set 0 ⟨0x0A000000#32, 0xFFFFFF00#32, 0#32, 16#32⟩ }

theorem test_wit_EveryCommandEndsInOneCompletion :
    codeOf (exec .nop routes) = some .ok ∧ codeOf (exec .lpmDelete { routes with rtLen := 33#6 }) = some .deleteMiss := by
  decide +kernel

theorem test_wit_StepRunsDecodedCommand :
    decode 0x30#32 = .ok .forward ∧ routes.busy = false ∧ (pending .forward).pend = some (.command .forward)
      ∧ (pending .forward).turns = [] ∧ ({ pending .forward with turns := [.engine] } : State).turns = .engine :: [] :=
  ⟨rfl, rfl, rfl, rfl, rfl⟩

theorem test_wit_CmdWriteIsAcceptedOnlyWhenIdle :
    routes.busy = false ∧ decode 0x25#32 = .ok .lpmClear ∧ decode 0x26#32 = .error .unlistedOpcode
      ∧ (pending .nop).busy = true := ⟨rfl, rfl, rfl, rfl⟩

/-- The last word with RSV = 0, the first with RSV ≠ 0, and the last word of all. -/
theorem test_wit_DecodeIsExactlyTheOpcodeMap :
    decode 0xFF#32 = .error .unlistedOpcode ∧ decode 0x100#32 = .error .reservedBits
      ∧ decode 0xFFFFFFFF#32 = .error .reservedBits
      ∧ ({ routes with pend := some .illegal } : State).pend = some .illegal := ⟨rfl, rfl, rfl, rfl⟩

theorem test_wit_IllegalCompletesWithCodeIllegal :
    ({ routes with pend := some .illegal } : State).pend = some .illegal ∧ routes.overrun = false
      ∧ (nextOf (engineMoves { routes with pend := some .illegal })).isSome = true := by decide +kernel

/-- The word after the last row's is no command's. -/
theorem test_wit_Illegal_word : ∀ i : Instr, 0x31#32 ≠ encode i := by
  intro i
  cases i <;> decide

theorem test_wit_NopOnlyCompletes :
    (nextOf (exec .nop routes)).isSome = true ∧ (nextOf (exec .nop { routes with overrun := true })).isSome = true := by
  decide +kernel

/-- Every command has a next state from some state; NOP meets every inequality of the statement. -/
theorem test_wit_CommandsKeepWhatTheyDoNotName :
    (nextOf (exec .csumCompute (loaded pk1 72#32))).isSome = true ∧ (nextOf (exec .csumVerify (loaded pk1 72#32))).isSome = true
      ∧ (nextOf (exec .disassemble (loaded pk1 72#32))).isSome = true ∧ (nextOf (exec .assemble routes)).isSome = true
      ∧ (nextOf (exec .lpmLookup routes)).isSome = true ∧ (nextOf (exec .lpmClear routes)).isSome = true
      ∧ (nextOf (exec .forward (loaded pk1 72#32))).isSome = true := by decide +kernel
theorem test_wit_CommandsKeep_inequalities :
    Instr.nop ≠ .disassemble ∧ Instr.nop ≠ .lpmInsert ∧ Instr.nop ≠ .lpmDelete ∧ Instr.nop ≠ .lpmClear
      ∧ Instr.nop ≠ .assemble ∧ Instr.nop ≠ .forward ∧ (nextOf (exec .nop routes)).isSome = true := by decide +kernel

/-- COUNT at its greatest, and the bytes next to the stored ones. -/
theorem test_wit_StoringCommandsTouchOnlyTheirBytes :
    (nextOf (exec .assemble { State.reset with msgCount := 25#5, arg := 8#32 })).isSome = true
      ∧ ¬ (8 ≤ 7 ∧ 7 < 8 + payloadSize { State.reset with msgCount := 25#5 })
      ∧ ¬ (8 ≤ 512 ∧ 512 < 8 + payloadSize { State.reset with msgCount := 25#5 })
      ∧ (nextOf (exec .forward (loaded pk1 72#32))).isSome = true := by decide +kernel

/-- Two host moves (a dropped write, a read of a free value) while a command is pending, which completes or faults. -/
theorem test_wit_OutcomeIsFixedAtAcceptance :
    (pending .lpmLookup).busy = true
      ∧ (hostMoves 2 { pending .lpmLookup with program := [.wr 4#14 9#32, .rd 4#14] }).isSome = true
      ∧ (nextOf (engineMoves (pending .lpmLookup))).isSome = true
      ∧ faultOf (engineMoves (pending .forward)) = some .unwrittenPbufRead := by decide +kernel

theorem test_wit_PendingCommandCompletes :
    (pending .lpmClear).turns = [] ∧ (pending .lpmClear).busy = true
      ∧ (nextOf (step (pending .lpmClear))).isSome = true
      ∧ faultOf (step (pending .csumVerify)) = some .unwrittenPbufRead := by decide +kernel

theorem test_wit_WaitPollsUntilIdle :
    ({ pending .nop with program := [.wait] } : State).program = .wait :: [] ∧ (pending .nop).busy = true
      ∧ (pending .nop).turns = [] ∧ (nextOf (step { pending .nop with program := [.wait] })).isSome = true
      ∧ ({ routes with program := [.wait] } : State).busy = false := by decide +kernel

/-- The last PBUF word and the last MSG register. -/
theorem test_wit_RegisterMapRoundTrip :
    Params.defaults.wf = true ∧ (Target.reg (.pbufWord 511)).wf Params.defaults = true
      ∧ (Target.reg (.msg 24 .metric)).wf Params.defaults = true
      ∧ regAt Params.defaults 0x28C = some (.msg 24 .metric) ∧ regAt Params.defaults 0x17FC = some (.pbufWord 511)
      ∧ regAt Params.defaults 0x1800 = none := by
  decide +kernel

theorem test_wit_IdRegisterIsConstant : routes.busy = false ∧ (nextOf (resetMoves routes)).isSome = true := by decide +kernel

theorem test_wit_ParamsRegisterReads :
    State.reset.params.wf = true ∧ State.reset.params.lpmEntries = 64 ∧ State.reset.params.pbufBytes = 2048
      ∧ State.reset.busy = false
      ∧ Params.wf { pbufBytes := 61440, lpmEntries := 255, ripcBase := 0 } = true := by decide +kernel

theorem test_wit_StatusRegisterFields :
    routes.busy = false ∧ (4#32 : Word).getLsbD 2 = true ∧ (3#32 : Word).getLsbD 2 = false := by decide +kernel

/-- The last word the port carries (0x1FFC, unmapped), CMD and STATUS. -/
theorem test_wit_OverrunRecordsDroppedWrites :
    (pending .nop).params.wf = true ∧ (pending .nop).busy = true ∧ 0x1FFC % 4 = 0
      ∧ 0x1FFC < 2 ^ (pending .nop).params.addrBits ∧ 0x008 < 2 ^ (pending .nop).params.addrBits := by decide +kernel
theorem test_wit_Overrun_cleared :
    (nextOf (step { routes with overrun := true, program := [.wr 3#14 4#32] })).map State.overrun = some false
      ∧ (nextOf (step { routes with overrun := true, turns := [.reset] })).map State.overrun = some false := by
  decide +kernel
theorem test_wit_Overrun_exec :
    (nextOf (exec .lpmLookup routes)).isSome = true ∧ faultOf (exec .csumCompute routes) = some .unwrittenPbufRead := by
  decide +kernel

theorem test_wit_RouteStagingRegisters :
    routes.busy = false ∧ (nextOf (resetMoves routes)).isSome = true
      ∧ 32 < ({ routes with rtLen := 33#6 } : State).rtLen.toNat ∧ ({ routes with rtMetric := 0#5 } : State).rtMetric.toNat = 0
      ∧ 16 < ({ routes with rtMetric := 17#5 } : State).rtMetric.toNat := by decide +kernel

theorem test_wit_MsgCountStaysInRange :
    routes.busy = false ∧ (25#32 : Word).toNat ≤ 25 ∧ 25 < (26#32 : Word).toNat
      ∧ ({ routes with msgCount := 25#5 } : State).msgCount.toNat ≤ 25
      ∧ (nextOf (step { routes with msgCount := 25#5 })).isSome = true
      ∧ (nextOf (resetMoves routes)).isSome = true := by decide +kernel

theorem test_wit_MsgEntryRegistersHoldWords :
    routes.busy = false ∧ (nextOf (resetMoves routes)).isSome = true ∧ (24 : Nat) < 25 := by decide +kernel

theorem test_wit_MsgCmdHoldsAnyByte :
    routes.busy = false ∧ (nextOf (exec .disassemble (loaded pk1 72#32))).isSome = true
      ∧ codeOf (exec .assemble { routes with msgCmd := 255#8, arg := 528#32 }) = some .ok
      ∧ (nextOf (resetMoves routes)).isSome = true := by decide +kernel

/-- The first and the last word of the window. -/
theorem test_wit_PbufWordWindow :
    State.reset.params.wf = true ∧ 4 * 0 < State.reset.params.pbufBytes ∧ 4 * 511 < State.reset.params.pbufBytes
      ∧ State.reset.busy = false ∧ Written (mem 2044 [5#32]) (4 * 511) 4 := by decide +kernel

theorem test_wit_UnwrittenBytesFault_read :
    State.reset.params.wf = true ∧ 4 * 511 < State.reset.params.pbufBytes ∧ State.reset.busy = false
      ∧ ({ State.reset with pbuf := writeBytes [] 2044 [1#8, 2#8, 3#8] } : State).pw (4 * 511 + 3) = false := by
  decide +kernel
/-- One byte short, and whole, for each command that reads PBUF; and a command that reads none. -/
theorem test_wit_UnwrittenBytesFault_command :
    ¬ Written (mem 0 (pk1.take 4)) 0 (readSetSize .csumCompute (loaded (pk1.take 4) 72#32))
      ∧ ¬ Written (mem 0 (pk1.take 4)) 0 (readSetSize .csumVerify (loaded (pk1.take 4) 72#32))
      ∧ ¬ Written (mem 0 (pk1.take 4)) 0 (readSetSize .forward (loaded (pk1.take 4) 72#32))
      ∧ ¬ Written (mem 0 pk1) 0 (readSetSize .disassemble (loaded pk1 73#32))
      ∧ Written (mem 0 pk1) 0 (readSetSize .csumCompute (loaded pk1 72#32))
      ∧ Written (mem 0 pk1) 0 (readSetSize .disassemble (loaded pk1 72#32))
      ∧ Written [] 0 (readSetSize .disassemble (loaded [] 19#32)) ∧ Written [] 0 (readSetSize .nop routes) := by
  decide +kernel

theorem test_wit_ReadsWhileBusy :
    (pending .nop).params.wf = true ∧ (pending .nop).busy = true ∧ 0x014 % 4 = 0
      ∧ 0x014 < 2 ^ (pending .nop).params.addrBits ∧ regAt (pending .nop).params 0x014 = none
      ∧ regAt (pending .nop).params 0x1FFC = none ∧ 0x1FFC < 2 ^ (pending .nop).params.addrBits
      ∧ (Target.reg (.pbufWord 132)).wf (pending .nop).params = true ∧ (pending .nop).pw 528 = false
      ∧ Reg.pbufWord 132 ≠ .id ∧ (Target.reg .arg).wf (pending .nop).params = true ∧ Reg.arg ≠ .status := by decide +kernel

theorem test_wit_WritesWhileBusyAreDropped :
    (pending .nop).params.wf = true ∧ (pending .nop).busy = true ∧ 0x1FFC % 4 = 0
      ∧ 0x1FFC < 2 ^ (pending .nop).params.addrBits := by decide +kernel

/-- Unmapped offsets next to mapped ones: 0x014, 0x290, 0xFFC and the first past PBUF. -/
theorem test_wit_CommonAccessRules :
    routes.params.wf = true ∧ routes.busy = false ∧ regAt routes.params 0x014 = none
      ∧ regAt routes.params 0x290 = none ∧ regAt routes.params 0xFFC = none ∧ regAt routes.params 0x1214 = none
      ∧ 0x1214 % 4 = 0 ∧ 0x1214 < 2 ^ routes.params.addrBits := by decide +kernel

theorem test_wit_ReadsHaveNoSideEffects :
    routes.busy = false ∧ (nextOf (hostReads routes 0x010)).isSome = true := by decide +kernel

theorem test_wit_WrittenBytesStayWritten :
    (nextOf (step (loaded pk1 0#32))).isSome = true ∧ (loaded pk1 0#32).turns = []
      ∧ (loaded pk1 0#32).pw 71 = true ∧ (nextOf (resetMoves routes)).isSome = true := by decide +kernel

theorem test_wit_PbufLineWritesWords :
    State.reset.params.wf = true ∧ State.reset.busy = false
      ∧ (HostLine.pbuf 2040 [1#32, 2#32]).wf State.reset.params = true ∧ [1#32, 2#32][1]? = some 2#32
      ∧ ¬ (2040 ≤ 2039 ∧ 2039 < 2040 + 4 * 2) := by decide +kernel

/-- The shortest and the longest header. -/
theorem test_wit_CsumComputeResult : HeaderReady (mem 0 hdr50) ∧ HeaderReady (mem 0 longHeader) := by decide +kernel
theorem test_wit_CsumVerifyResult : HeaderReady (mem 0 hdr50) ∧ HeaderReady (mem 0 longHeader) := by decide +kernel
theorem test_wit_ComputedChecksumVerifies : HeaderReady (mem 0 hdr50) ∧ HeaderReady (mem 0 longHeader) := by
  decide +kernel

/-- ihl 4; nothing written; ihl 5 and ihl 15 with the last byte unwritten. -/
theorem test_wit_HeaderRegionBounds :
    readByte (mem 0 [0x44000000#32]) 0 = some 0x44#8 ∧ (0x44#8 : Byte).toNat % 16 < 5 ∧ readByte [] 0 = none
      ∧ 5 ≤ ihlNum (mem 0 (hdr50.take 4)) ∧ ¬ Written (mem 0 (hdr50.take 4)) 0 (4 * ihlNum (mem 0 (hdr50.take 4)))
      ∧ 5 ≤ ihlNum (mem 0 (longHeader.take 14))
      ∧ ¬ Written (mem 0 (longHeader.take 14)) 0 (4 * ihlNum (mem 0 (longHeader.take 14)))
      ∧ State.reset.params.wf = true := by decide +kernel

/-- Byte 0 (its version nibble), bytes 9 and 12 next to the checksum, and the last byte. -/
theorem test_wit_CorruptedByteFailsVerify :
    HeaderValid (mem 0 hdr50) ∧ 19 < 4 * ihlNum (mem 0 hdr50) ∧ readByte (mem 0 hdr50) 19 ≠ some 0#8
      ∧ readByte (mem 0 hdr50) 9 ≠ some 0#8 ∧ readByte (mem 0 hdr50) 12 ≠ some 0#8
      ∧ readByte (mem 0 hdr50) 0 ≠ some 0x55#8 ∧ (0x55#8 : Byte).toNat % 16 = ihlNum (mem 0 hdr50) := by decide +kernel

/-! Masks of the entries below. -/

theorem test_cidr_24 : CidrMask 0xFFFFFF00#32 := ⟨24, by decide, by decide⟩
theorem test_cidr_0 : CidrMask 0#32 := ⟨0, by decide, by decide⟩
theorem test_cidr_32 : CidrMask 0xFFFFFFFF#32 := ⟨32, by decide, by decide⟩
theorem test_cidr_none : ∀ l : Fin 33, 0x00FF00FF#32 ≠ maskOf l.val := by decide +kernel

/-- PK1: two entries. -/
theorem test_wit_frame_pk1 : FrameLegal (mem 0 pk1) 72 2 2 := by decide +kernel
theorem test_wit_entry_0 : EntryLegal (mem 0 pk1) 2 (entryStart (mem 0 pk1) 0) := by
  refine ⟨by decide +kernel, by decide +kernel, ?_, by decide +kernel⟩
  have : BitVec.ofNat 32 (num32 (mem 0 pk1) (entryStart (mem 0 pk1) 0 + 8)) = 0xFFFFFF00#32 := by decide +kernel
  rw [this]; exact test_cidr_24
theorem test_wit_entry_1 : EntryLegal (mem 0 pk1) 2 (entryStart (mem 0 pk1) 1) := by
  refine ⟨by decide +kernel, by decide +kernel, ?_, by decide +kernel⟩
  have : BitVec.ofNat 32 (num32 (mem 0 pk1) (entryStart (mem 0 pk1) 1 + 8)) = 0xFFFFFF00#32 := by decide +kernel
  rw [this]; exact test_cidr_24
theorem test_wit_DisassembleDecodesLegalPackets :
    (loaded pk1 72#32).arg.toNat ≤ (loaded pk1 72#32).params.pbufBytes
      ∧ FrameLegal (loaded pk1 72#32).pbuf (loaded pk1 72#32).arg.toNat 2 2
      ∧ ∀ j, j < 2 → EntryLegal (loaded pk1 72#32).pbuf 2 (entryStart (loaded pk1 72#32).pbuf j) := by
  refine ⟨by decide +kernel, test_wit_frame_pk1, ?_⟩
  intro j hj
  interval_cases j
  · exact test_wit_entry_0
  · exact test_wit_entry_1
/-- No entry, and the most entries. -/
theorem test_wit_Disassemble_no_entry : FrameLegal (mem 0 (requests 0)) 32 1 0 := by decide +kernel
theorem test_wit_Disassemble_most_entries : FrameLegal (mem 0 (requests 25)) 532 1 25 :=
  ⟨by decide +kernel, by decide +kernel, by decide, written_bytesAt _ _ (by decide +kernel), by decide +kernel, .inl rfl,
    by decide +kernel, by decide +kernel, by decide +kernel⟩

theorem test_wit_DisassembleAcceptsOnlyLegalPackets :
    codeOf (exec .disassemble (loaded pk1 72#32)) = some .ok
      ∧ codeOf (exec .disassemble (loaded (requests 0) 32#32)) = some .ok := by decide +kernel
theorem test_wit_DecodedEntriesAreNormalized :
    (nextOf (exec .disassemble (loaded pk1 72#32))).map (fun t => (t.code, decide (1 < t.msgCount.toNat)))
      = some (.ok, true) := by decide +kernel

/-- LEN above PBUF_BYTES and below 20. -/
theorem test_wit_DisassembleHeaderVerdicts_length :
    State.reset.params.pbufBytes < (2049#32 : Word).toNat ∧ (2048#32 : Word).toNat ≤ State.reset.params.pbufBytes
      ∧ (19#32 : Word).toNat < 20 ∧ 20 ≤ (20#32 : Word).toNat ∧ Written (mem 0 pk1) 0 20 := by decide +kernel
/-- ihl 4; LEN = h + 3 and h + 4; one byte over; 26 entries and 25. -/
theorem test_wit_DisassembleHeaderVerdicts_frame :
    ihlNum (mem 0 [0x44000000#32, 0#32, 0#32, 0#32, 0#32]) < 5 ∧ Written (mem 0 [0x44000000#32, 0#32, 0#32, 0#32, 0#32]) 0 20
      ∧ 5 ≤ ihlNum (mem 0 pk1) ∧ Written (mem 0 pk1) 0 72 ∧ 31 < ripStart (mem 0 pk1) + 4 ∧ ripStart (mem 0 pk1) + 4 ≤ 32
      ∧ (33 - (ripStart (mem 0 pk1) + 4)) % 20 ≠ 0
      ∧ (552 - (ripStart (mem 0 (requests 26)) + 4)) % 20 = 0 ∧ 25 < (552 - (ripStart (mem 0 (requests 26)) + 4)) / 20
      ∧ (532 - (ripStart (mem 0 (requests 26)) + 4)) / 20 ≤ 25 := by decide +kernel
theorem test_wit_DisassembleHeaderVerdicts_oversize : Written (mem 0 (requests 26)) 0 552 :=
  written_bytesAt _ _ (by decide +kernel)
/-- RIP command 3 (and 0), version 1, a reserved byte. -/
theorem test_wit_DisassembleHeaderVerdicts_rip :
    byteNum (writeByte (mem 0 pk1) 28 3#8) (ripStart (writeByte (mem 0 pk1) 28 3#8)) = 3
      ∧ byteNum (writeByte (mem 0 pk1) 28 0#8) (ripStart (writeByte (mem 0 pk1) 28 0#8)) = 0
      ∧ byteNum (mem 0 pk1) (ripStart (mem 0 pk1)) = 2 ∧ byteNum (writeByte (mem 0 pk1) 29 1#8) 29 ≠ 2
      ∧ byteNum (mem 0 pk1) 29 = 2 ∧ byteNum (writeByte (mem 0 pk1) 31 1#8) 31 ≠ 0 := by decide +kernel

/-- Entry 1, the last one, of PK1 with its family, tag, mask or metric changed; entry 0 is legal. -/
theorem test_wit_DisassembleEntryVerdicts_fields :
    num16 (writeByte (mem 0 pk1) 53 0#8) 52 ≠ familyNum 2 ∧ num16 (writeByte (mem 0 pk1) 55 1#8) 52 = familyNum 2
      ∧ num16 (writeByte (mem 0 pk1) 55 1#8) 54 ≠ 0
      ∧ num32 (memWrite (mem 0 pk1) 60 4 0x00FF00FF#32) 60 = 0x00FF00FF
      ∧ num32 (writeByte (mem 0 pk1) 71 17#8) 68 = 17 ∧ ¬ MetricLegal 2 17 ∧ ¬ MetricLegal 2 0 ∧ ¬ MetricLegal 1 15
      ∧ entryStart (mem 0 pk1) 1 = 52 := by decide +kernel
theorem test_wit_DisassembleEntryVerdicts_family : FrameLegal (writeByte (mem 0 pk1) 53 0#8) 72 2 2 := by decide +kernel
theorem test_wit_DisassembleEntryVerdicts_tag : FrameLegal (writeByte (mem 0 pk1) 55 1#8) 72 2 2 := by decide +kernel
theorem test_wit_DisassembleEntryVerdicts_mask : FrameLegal (memWrite (mem 0 pk1) 60 4 0x00FF00FF#32) 72 2 2 := by
  decide +kernel
theorem test_wit_DisassembleEntryVerdicts_metric : FrameLegal (writeByte (mem 0 pk1) 71 17#8) 72 2 2 := by decide +kernel
theorem test_wit_DisassembleEntryVerdicts_before : ∀ i, i < 1 → EntryLegal (mem 0 pk1) 2 (entryStart (mem 0 pk1) i) := by
  intro i hi
  interval_cases i
  exact test_wit_entry_0

theorem test_wit_DisassembleCommitsAtomically :
    codeOf (exec .disassemble (loaded pk1 33#32)) = some .reject
      ∧ codeOf (exec .disassemble (loaded pk1 2049#32)) = some .range
      ∧ (nextOf (exec .disassemble (loaded pk1 72#32))).map (fun t => (t.code, decide (t.msgCount.toNat ≤ 2)))
          = some (.ok, true) := by decide +kernel

/-- The payload ends with the last byte of PBUF, and one byte beyond. -/
theorem test_wit_AssembleWritesThePayload :
    ({ State.reset with msgCount := 25#5, arg := 1544#32 } : State).msgCount.toNat ≤ 25
      ∧ 1544 + (4 + 20 * 25) ≤ State.reset.params.pbufBytes ∧ State.reset.params.pbufBytes < 1545 + (4 + 20 * 25)
      ∧ codeOf (exec .assemble { State.reset with msgCount := 25#5, arg := 1544#32 }) = some .ok := by decide +kernel

/-- PK1 with the address and next hop inside their masks (V36). -/
def pk1Masked : List Word :=
  pk1.take 9 ++ [0x0A000000#32, 0xFFFFFF00#32, 0#32, 1#32, 0x00020000#32, 0xC0A80300#32, 0xFFFFFF00#32, 0xC0A80300#32, 2#32]
theorem test_wit_AssembleOfDisassembleIsIdentity :
    (loaded pk1Masked 72#32).params.wf = true ∧ (loaded pk1Masked 72#32).arg.toNat ≤ (loaded pk1Masked 72#32).params.pbufBytes
      ∧ FrameLegal (loaded pk1Masked 72#32).pbuf (loaded pk1Masked 72#32).arg.toNat 2 2
      ∧ ∀ j, j < 2 → EntryLegal (loaded pk1Masked 72#32).pbuf 2 (entryStart (loaded pk1Masked 72#32).pbuf j)
        ∧ BitVec.ofNat 32 (num32 (loaded pk1Masked 72#32).pbuf (entryStart (loaded pk1Masked 72#32).pbuf j + 4))
            &&& ~~~(BitVec.ofNat 32 (num32 (loaded pk1Masked 72#32).pbuf (entryStart (loaded pk1Masked 72#32).pbuf j + 8))) = 0#32
        ∧ BitVec.ofNat 32 (num32 (loaded pk1Masked 72#32).pbuf (entryStart (loaded pk1Masked 72#32).pbuf j + 12))
            &&& ~~~(BitVec.ofNat 32 (num32 (loaded pk1Masked 72#32).pbuf (entryStart (loaded pk1Masked 72#32).pbuf j + 8)))
              = 0#32 := by
  refine ⟨by decide +kernel, by decide +kernel, by decide +kernel, ?_⟩
  intro j hj
  have hm : ∀ j : Fin 2, BitVec.ofNat 32 (num32 (loaded pk1Masked 72#32).pbuf
      (entryStart (loaded pk1Masked 72#32).pbuf j.val + 8)) = 0xFFFFFF00#32 := by decide +kernel
  have h8 := hm ⟨j, hj⟩
  simp only at h8
  refine ⟨⟨?_, ?_, by rw [h8]; exact test_cidr_24, ?_⟩, ?_, ?_⟩ <;> clear h8 hm <;> interval_cases j <;> decide +kernel

theorem test_wit_DisassembleOfAssembleIsIdentity :
    message.params.wf = true ∧ (message.msgCmd = 1#8 ∨ message.msgCmd = 2#8) ∧ message.msgCount.toNat ≤ 25
      ∧ (∀ j : Fin 25, j.val < message.msgCount.toNat → MsgEntryLegal message.msgCmd.toNat (message.msgE.get j))
      ∧ 5 ≤ ihlNum message.pbuf ∧ Written message.pbuf 0 (ripStart message.pbuf)
      ∧ message.arg.toNat = ripStart message.pbuf
      ∧ ripStart message.pbuf + 4 + 20 * message.msgCount.toNat ≤ message.params.pbufBytes := by
  refine ⟨by decide +kernel, .inr rfl, by decide +kernel, ?_, by decide +kernel, by decide +kernel, by decide +kernel,
    by decide +kernel⟩
  intro j hj
  have h0 : j = 0 := by
    have : message.msgCount.toNat = 1 := by decide +kernel
    exact Fin.ext (by omega)
  subst h0
  refine ⟨?_, by decide +kernel, by decide +kernel, by decide +kernel⟩
  have : (message.msgE.get 0).mask = 0xFFFFFF00#32 := by decide +kernel
  rw [this]; exact test_cidr_24

/-- Length 32 with metric 16 and length 0 with metric 1 are legal; each bound exceeded is not. -/
theorem test_wit_InsertChecksLegality :
    RouteLegal { routes with rtPrefix := 0xFFFFFFFF#32, rtLen := 32#6, rtMetric := 16#5 }
      ∧ RouteLegal { routes with rtPrefix := 0#32, rtLen := 0#6, rtMetric := 1#5 }
      ∧ ¬ RouteLegal { routes with rtLen := 33#6 } ∧ ¬ RouteLegal { routes with rtPrefix := 0x0A000001#32 }
      ∧ ¬ RouteLegal { routes with rtMetric := 0#5 } ∧ ¬ RouteLegal { routes with rtMetric := 17#5 } := by decide +kernel

/-- The key in slot 0; a new key with slot 2 the lowest free one; a new key in a full table. -/
theorem test_wit_InsertReplacesOrTakesLowestFreeSlot :
    RouteLegal routes ∧ (∃ t, routes.table[0]? = some t ∧ SlotHolds t routes.rtPrefix routes.rtLen)
      ∧ (∀ u ∈ routes.table, ¬ SlotHolds u routes.rtPrefix 8#6)
      ∧ (∃ t, routes.table[2]? = some t ∧ t.valid = false) ∧ (∀ u ∈ routes.table.take 2, u.valid = true)
      ∧ RouteLegal { routes with rtLen := 8#6, table := routes.table.take 2 } :=
  ⟨by decide +kernel, ⟨_, rfl, by decide⟩, by decide +kernel, ⟨_, rfl, rfl⟩, by decide +kernel, by decide +kernel⟩

/-- A state that meets the invariants, with two routes. -/
theorem test_wit_Inv : routes.Inv :=
  ⟨by decide, by decide, List.Pairwise.nil, (fun _ hc => nomatch hc), rfl, by decide +kernel, by decide +kernel,
    by decide +kernel⟩

/-- The key in slot 1, and not in slot 0; an absent key; unique keys and a next state. -/
theorem test_wit_DeleteFreesTheSlot :
    (∃ t, routes.table[1]? = some t ∧ SlotHolds t routes.rtPrefix 16#6)
      ∧ (∀ u ∈ routes.table.take 1, ¬ SlotHolds u routes.rtPrefix 16#6)
      ∧ (∀ u ∈ routes.table, ¬ SlotHolds u routes.rtPrefix 40#6)
      ∧ routes.table.Pairwise Slot.differs ∧ (nextOf (exec .lpmDelete routes)).isSome = true :=
  ⟨⟨_, rfl, by decide⟩, by decide +kernel, by decide +kernel, by decide +kernel, by decide +kernel⟩
theorem test_wit_DeleteFreesTheSlot_illegal :
    State.Inv { routes with rtLen := 33#6 } ∧ 32 < (33#6 : BitVec 6).toNat
      ∧ State.Inv { routes with rtPrefix := 0x0A000001#32 }
      ∧ 0x0A000001#32 &&& ~~~(maskOf (24#6 : BitVec 6).toNat) ≠ 0#32 :=
  ⟨⟨test_wit_Inv.1, test_wit_Inv.2, test_wit_Inv.3, test_wit_Inv.4, test_wit_Inv.5, test_wit_Inv.6, test_wit_Inv.7,
    test_wit_Inv.8⟩, by decide, ⟨test_wit_Inv.1, test_wit_Inv.2, test_wit_Inv.3, test_wit_Inv.4, test_wit_Inv.5,
    test_wit_Inv.6, test_wit_Inv.7, test_wit_Inv.8⟩, by decide⟩

/-- Slot 0 is the longest of two matches; an address that matches nothing. -/
theorem test_wit_LookupAnswersTheLongestMatch :
    (∃ t, routes.table[0]? = some t ∧ SlotMatches t routes.arg
        ∧ ∀ j u, routes.table[j]? = some u → SlotMatches u routes.arg →
          u.len.toNat < t.len.toNat ∨ (u.len = t.len ∧ 0 ≤ j))
      ∧ (∀ u ∈ routes.table, ¬ SlotMatches u 0x0B000000#32) ∧ ∃ u ∈ routes.table, SlotMatches u routes.arg := by
  refine ⟨⟨_, rfl, by decide +kernel, ?_⟩, by decide +kernel, by decide +kernel⟩
  intro j u hu _
  have h : ∀ u ∈ routes.table, u.len.toNat < 24 ∨ u.len = 24#6 := by decide +kernel
  rcases h u (List.mem_of_getElem? hu) with h | h
  · exact .inl h
  · exact .inr ⟨h, Nat.zero_le j⟩

/-- The key in slot 0; an absent key; in a state that meets the invariants, a length of 33 and a host bit. -/
theorem test_wit_FindAnswersTheExactKey :
    (∃ t, routes.table[0]? = some t ∧ SlotHolds t routes.rtPrefix routes.rtLen)
      ∧ (∀ u ∈ routes.table, ¬ SlotHolds u routes.rtPrefix 8#6)
      ∧ 32 < (33#6 : BitVec 6).toNat ∧ 0x0A000001#32 &&& ~~~(maskOf (24#6 : BitVec 6).toNat) ≠ 0#32
      ∧ State.Inv { routes with rtLen := 33#6 } ∧ State.Inv { routes with rtPrefix := 0x0A000001#32 } :=
  ⟨⟨_, rfl, by decide⟩, by decide +kernel, by decide, by decide, ⟨test_wit_Inv.1, test_wit_Inv.2, test_wit_Inv.3,
    test_wit_Inv.4, test_wit_Inv.5, test_wit_Inv.6, test_wit_Inv.7, test_wit_Inv.8⟩, ⟨test_wit_Inv.1, test_wit_Inv.2,
    test_wit_Inv.3, test_wit_Inv.4, test_wit_Inv.5, test_wit_Inv.6, test_wit_Inv.7, test_wit_Inv.8⟩⟩

/-- The last slot, which is free, in a state that meets the invariants; and the first number past it. -/
theorem test_wit_ReadAnswersTheSlot :
    2 < routes.params.lpmEntries ∧ routes.table[2]? = some Slot.free ∧ Slot.free.valid = false
      ∧ routes.params.lpmEntries ≤ 3 ∧ routes.Inv := ⟨by decide, rfl, rfl, by decide, test_wit_Inv⟩

theorem test_wit_ClearEmptiesTheTable : routes.Inv ∧ ∃ r, resetMoves routes = .next r := ⟨test_wit_Inv, _, rfl⟩

/-- With the empty schedule, and with the engine's turn. -/
theorem test_wit_OnlyTableCommandsChangeTheTable :
    (pending .lpmClear).turns = []
      ∧ (nextOf (step (pending .lpmClear))).map (fun t => decide (t.table = routes.table)) = some false
      ∧ (nextOf (step { pending .lpmClear with turns := [.engine] })).map (fun t => decide (t.table = routes.table))
          = some false := by decide +kernel

/-- TTL 5 and TTL 1. -/
theorem test_wit_ForwardRewritesTtlAndChecksum :
    HeaderValid (mem 0 hdr50) ∧ byteNum (mem 0 hdr50) 8 = 5 ∧ HeaderValid (mem 0 pk1) ∧ byteNum (mem 0 pk1) 8 = 1 := by
  decide +kernel

/-- BAD_IHL; a wrong checksum with TTL 0 (V54a); a right one with TTL 0 (V52). -/
theorem test_wit_ForwardRefusesInOrder :
    codeOf (exec .csumVerify (loaded [0x44000000#32] 0#32)) = some .badIhl
      ∧ res (exec .csumVerify (loaded [0x45000054#32, 0x12344000#32, 0x00014E71#32, 0x0A000001#32, 0x0A000105#32] 0#32))
          = some (.ok, 0#32, 0x5370#32, 0x4E71#32, 0#32)
      ∧ res (exec .csumVerify (loaded [0x45000054#32, 0x12344000#32, 0x00015370#32, 0x0A000001#32, 0x0A000105#32] 0#32))
          = some (.ok, 1#32, 0x5370#32, 0x5370#32, 0#32)
      ∧ byteNum (mem 0 [0x45000054#32, 0x12344000#32, 0x00015370#32]) 8 = 0 := by decide +kernel

theorem test_wit_ForwardedHeaderVerifies : codeOf (exec .forward (loaded hdr50 0#32)) = some .ok := by decide +kernel

/-- A saved checksum other than 0xFEFF, and 0xFEFF (V53). -/
theorem test_wit_FullRecomputationAgainstIncremental :
    codeOf (exec .forward (loaded hdr50 0#32)) = some .ok ∧ num16 (mem 0 hdr50) 10 ≠ 0xFEFF
      ∧ codeOf (exec .forward (loaded [0x45000000#32, 0#32, 0x0511FEFF#32, 0xB6EE0000#32, 0#32] 0#32)) = some .ok
      ∧ num16 (mem 0 [0x45000000#32, 0#32, 0x0511FEFF#32, 0xB6EE0000#32, 0#32]) 10 = 0xFEFF := by decide +kernel

/-- A move of the host, of the engine and of the reset pin from a state that meets the invariants. -/
theorem test_wit_StepKeepsTheInvariants :
    routes.Inv ∧ (nextOf (step routes)).isSome = true
      ∧ (nextOf (step { routes with pend := some (.command .lpmInsert) })).isSome = true
      ∧ (nextOf (step { routes with turns := [.reset] })).isSome = true :=
  ⟨test_wit_Inv, by decide +kernel, by decide +kernel, by decide +kernel⟩

/-- The masks of 95_test_vectors.md section 2; a fold with two carries, by hand: 0x1FFFF, 0x10000, 1. -/
theorem test_wit_HelperFunctions :
    maskOf 0 = 0x00000000#32 ∧ maskOf 1 = 0x80000000#32 ∧ maskOf 31 = 0xFFFFFFFE#32 ∧ maskOf 32 = 0xFFFFFFFF#32
      ∧ [0x00000000#32, 0x80000000#32, 0xFFFFFF00#32, 0xFFFFFFFE#32, 0xFFFFFFFF#32, 0x7FFFFFFF#32, 0x00FF00FF#32,
          0xFFFF00FF#32, 0x00000001#32].map (fun m => (isCidr m, lenOf m))
        = [(true, 0), (true, 1), (true, 24), (true, 31), (true, 32), (false, 0), (false, 0), (false, 16), (false, 0)]
      ∧ fold16 0xFFFF = 0xFFFF ∧ fold16 0x10000 = 1 ∧ fold16 0x1FFFF = 1 := by decide +kernel

end Sys2Proof.Tests
end

section
/-! PROOF. The helper functions of 00_scope.md R11: the bits of maskOf, the run of ones lenOf counts, and the end of
fold16's loop. -/

namespace Sys2Proof.Machine

/-! ### maskOf, bit by bit -/

theorem getLsbD_maskOf {l : Nat} (hl : l ≤ 32) (i : Nat) :
    (maskOf l).getLsbD i = true ↔ 32 - l ≤ i ∧ i < 32 := by
  have allOnes_eq : 0xFFFFFFFF#32 = BitVec.allOnes 32 := rfl
  unfold maskOf
  split
  case isTrue hzero => simp; omega
  case isFalse hpos =>
    simp only [allOnes_eq, BitVec.getLsbD_shiftLeft, BitVec.getLsbD_allOnes, Bool.and_eq_true, Bool.not_eq_true',
      decide_eq_true_eq, decide_eq_false_iff_not]
    omega

/-! ### lenOf, the leading one bits -/

theorem leadingOnes_le (m : Word) (n : Nat) : leadingOnes m n ≤ n := by
  induction n with
  | zero => simp [leadingOnes]
  | succ n ih =>
    rw [leadingOnes]
    split <;> omega

/-- The counted bits are ones. -/
theorem getLsbD_of_leadingOnes (m : Word) (n : Nat) :
    ∀ i, n - leadingOnes m n ≤ i → i < n → m.getLsbD i = true := by
  induction n with
  | zero => intro i _ hi; omega
  | succ n ih =>
    intro i hlow hi
    rw [leadingOnes] at hlow
    split at hlow
    case isTrue htop =>
      obtain rfl | hne := eq_or_ne i n
      · exact htop
      · exact ih i (by omega) (by omega)
    case isFalse => omega

/-- The bit below the counted ones, where there is one, is a zero. -/
theorem getLsbD_below_leadingOnes (m : Word) (n : Nat) (h : leadingOnes m n < n) :
    m.getLsbD (n - 1 - leadingOnes m n) = false := by
  induction n with
  | zero => omega
  | succ n ih =>
    by_cases htop : m.getLsbD n = true
    · have hcount : leadingOnes m (n + 1) = leadingOnes m n + 1 := by simp [leadingOnes, htop]
      have hbit : n + 1 - 1 - leadingOnes m (n + 1) = n - 1 - leadingOnes m n := by omega
      rw [hbit]
      exact ih (by omega)
    · simp [leadingOnes, htop]

theorem lenOf_le (m : Word) : lenOf m ≤ 32 := leadingOnes_le m 32

theorem getLsbD_of_lenOf (m : Word) {i : Nat} (hlow : 32 - lenOf m ≤ i) (hi : i < 32) : m.getLsbD i = true :=
  getLsbD_of_leadingOnes m 32 i hlow hi

theorem getLsbD_below_lenOf (m : Word) (h : lenOf m < 32) : m.getLsbD (31 - lenOf m) = false :=
  getLsbD_below_leadingOnes m 32 h

/-- A shorter count would stop at a one of the mask, a longer one would count a zero of it. -/
theorem lenOf_maskOf {l : Nat} (hl : l ≤ 32) : lenOf (maskOf l) = l := by
  have hle := lenOf_le (maskOf l)
  obtain hshort | heq | hlong := lt_trichotomy (lenOf (maskOf l)) l
  · have hzero := getLsbD_below_lenOf (maskOf l) (by omega)
    have hone := (getLsbD_maskOf hl (31 - lenOf (maskOf l))).mpr (by omega)
    rw [hzero] at hone
    contradiction
  · exact heq
  · have hone := getLsbD_of_lenOf (maskOf l) (i := 31 - l) (by omega) (by omega)
    have hbound := (getLsbD_maskOf hl _).mp hone
    omega

theorem maskOf_lenOf {m : Word} (h : isCidr m = true) : maskOf (lenOf m) = m := by
  obtain ⟨l, hl, rfl⟩ := (isCidr_iff m).mp h
  rw [lenOf_maskOf hl]

/-! ### fold16, as the loop of R11 -/

theorem foldCarry_of_le {s : Nat} (h : s ≤ 0xFFFF) (n : Nat) : foldCarry n s = s := by
  cases n with
  | zero => rfl
  | succ n => exact if_neg (by omega)

theorem foldCarry_succ_of_gt {s : Nat} (h : 0xFFFF < s) (n : Nat) :
    foldCarry (n + 1) s = foldCarry n (s % 0x10000 + s / 0x10000) := if_pos h

/-- More folds than the loop needs change nothing. -/
theorem foldCarry_eq_of_ended {n k s : Nat} (hend : foldCarry n s ≤ 0xFFFF) (hnk : n ≤ k) :
    foldCarry k s = foldCarry n s := by
  induction n generalizing k s with
  | zero => exact foldCarry_of_le hend k
  | succ n ih =>
    obtain ⟨k, rfl⟩ : ∃ j, k = j + 1 := ⟨k - 1, by omega⟩
    by_cases hs : s ≤ 0xFFFF
    · rw [foldCarry_of_le hs, foldCarry_of_le hs]
    · rw [foldCarry_succ_of_gt (by omega)] at hend ⊢
      rw [foldCarry_succ_of_gt (by omega)]
      exact ih hend (by omega)

/-- A fold with a carry takes at least 0xFFFF from the value, so `n` folds are enough for a value up to
0xFFFF · (n + 1). -/
theorem foldCarry_le {n s : Nat} (h : s ≤ 0xFFFF * (n + 1)) : foldCarry n s ≤ 0xFFFF := by
  induction n generalizing s with
  | zero => simpa [foldCarry] using h
  | succ n ih =>
    by_cases hs : s ≤ 0xFFFF
    · rwa [foldCarry_of_le hs]
    · rw [foldCarry_succ_of_gt (by omega)]
      exact ih (by omega)

theorem fold16_of_le {s : Nat} (h : s ≤ 0xFFFF) : fold16 s = s := foldCarry_of_le h _

theorem fold16_eq_foldCarry_of_gt {s : Nat} (h : 0xFFFF < s) :
    fold16 s = foldCarry (s / 0x10000) (s % 0x10000 + s / 0x10000) := foldCarry_succ_of_gt h _

theorem fold16_le (s : Nat) : fold16 s ≤ 0xFFFF := by
  by_cases hs : s ≤ 0xFFFF
  · rwa [fold16_of_le hs]
  · rw [fold16_eq_foldCarry_of_gt (by omega)]
    exact foldCarry_le (by omega)

/-- Any number of folds that ends the loop ends it at fold16. -/
theorem foldCarry_eq_fold16 {n s : Nat} (hend : foldCarry n s ≤ 0xFFFF) : foldCarry n s = fold16 s := by
  obtain hle | hge := Nat.le_total n (s / 0x10000 + 1)
  · exact (foldCarry_eq_of_ended hend hle).symm
  · exact foldCarry_eq_of_ended (fold16_le s) hge

/-- One turn of the loop. -/
theorem fold16_of_gt {s : Nat} (h : 0xFFFF < s) : fold16 s = fold16 (s % 0x10000 + s / 0x10000) := by
  have hfirst := fold16_eq_foldCarry_of_gt h
  have hend := fold16_le s
  rw [hfirst] at hend ⊢
  exact foldCarry_eq_fold16 hend

/-! ### The statement -/

/-- Settles O60: the bits of maskOf and lenOf, isCidr as the test of R11, and fold16 as its loop. -/
theorem helperFunctions : Obligations.HelperFunctions := by
  unfold Obligations.HelperFunctions
  refine ⟨?maskBits, ?cidrTest, ?leadingOnes, ?foldLoop⟩
  case maskBits => exact fun l hl i hi => (getLsbD_maskOf hl i).trans (and_iff_left hi)
  case cidrTest => exact fun m => ⟨beq_iff_eq, isCidr_iff m⟩
  case leadingOnes =>
    exact fun m => ⟨lenOf_le m, fun _ => getLsbD_of_lenOf m, getLsbD_below_lenOf m, maskOf_lenOf⟩
  case foldLoop => exact fun n => ⟨fold16_of_le, fold16_of_gt⟩

end Sys2Proof.Machine
end

section
/-! PROOF. The registers below the PBUF window on the bus (10_state.md R20 to R34): what a host read and a host write of
one of them do. -/

namespace Sys2Proof.Machine

/-! ### The register map below 0x1000 (R20, R65) -/

theorem regOffset_msg (i : Fin 25) (f : MsgField) : (Reg.msg i f).offset = 0x100 + 16 * i.val + f.offset := rfl

theorem msgFieldOffset_bounds (f : MsgField) : f.offset % 4 = 0 ∧ f.offset < 16 := by
  cases f <;> decide

theorem regOffset_mod_four (r : Reg) : r.offset % 4 = 0 := by
  cases r with
  | msg i f =>
    obtain ⟨hmod, _⟩ := msgFieldOffset_bounds f
    rw [regOffset_msg]
    omega
  | pbufWord k => simp only [Reg.offset]; omega
  | _ => rfl

/-- Every port carries the offsets below the PBUF window, whatever the parameters: ADDR_BITS is at least 12 (R7). -/
theorem lt_two_pow_addrBits (p : Params) {off : Nat} (hlow : off < 0x1000) : off < 2 ^ p.addrBits := by
  have hport : 0x1000 + p.pbufBytes - 1 < 2 ^ p.addrBits := Nat.lt_log2_self
  omega

/-- The MSG registers fill 0x100..0x28F (R34). -/
theorem regOffset_msg_bounds (i : Fin 25) (f : MsgField) :
    0x100 ≤ (Reg.msg i f).offset ∧ (Reg.msg i f).offset < 0x290 := by
  obtain ⟨_, hlt⟩ := msgFieldOffset_bounds f
  rw [regOffset_msg]
  omega

theorem msgFields_find_offset (f : MsgField) : msgFields.find? (fun g => g.offset == f.offset) = some f := by
  cases f <;> rfl

theorem regAt_msg (p : Params) (i : Fin 25) (f : MsgField) : regAt p (Reg.msg i f).offset = some (.msg i f) := by
  obtain ⟨_, hlt⟩ := msgFieldOffset_bounds f
  obtain ⟨hge, hmsg⟩ := regOffset_msg_bounds i f
  have hentry : ((Reg.msg i f).offset - 0x100) / 16 = i.val := by rw [regOffset_msg]; omega
  have hfield : (Reg.msg i f).offset % 16 = f.offset := by rw [regOffset_msg]; omega
  unfold regAt
  rw [if_neg (not_not.mpr (regOffset_mod_four _)), if_neg (by omega), dif_pos hmsg, hfield, msgFields_find_offset]
  simp [hentry]

/-- A register below the PBUF window is found at its own offset, whatever the parameters. -/
theorem regAt_offset_of_low (p : Params) {r : Reg} (hlow : r.offset < 0x1000) : regAt p r.offset = some r := by
  cases r with
  | msg i f => exact regAt_msg p i f
  | pbufWord k => simp only [Reg.offset] at hlow; omega
  | _ => rfl

/-! ### Transactions at an offset the port carries (R46, R67, R68) -/

theorem busRead_of_defined {s : State} {off : Nat} {r : Reg} {v : Word} (hport : off < 2 ^ s.params.addrBits)
    (hreg : regAt s.params off = some r) (hdef : s.busy = false ∨ definedWhileBusy r = true)
    (hval : readReg s r = some v) : busRead s off = .next (s.returns v) := by
  have hread : ¬ (s.busy && !definedWhileBusy r) = true := by
    obtain hidle | hbusy := hdef <;> simp [*]
  simp only [busRead, hreg, hval]
  rw [if_neg (by omega), if_neg hread]

theorem busWrite_of_idle {s : State} {off : Nat} {r : Reg} (hport : off < 2 ^ s.params.addrBits)
    (hreg : regAt s.params off = some r) (hidle : s.busy = false) (w : Word) :
    busWrite s off w = .next (writeReg s r w) := by
  simp only [busWrite, hreg]
  rw [if_neg (by omega), if_neg (by simp [hidle])]

theorem busWrite_of_busy {s : State} {off : Nat} (hport : off < 2 ^ s.params.addrBits) (hbusy : s.busy = true)
    (w : Word) : busWrite s off w = .next { s with overrun := true } := by
  rw [busWrite, if_neg (by omega), if_pos hbusy]

/-! ### The host's move at a register below the window -/

theorem busAddr_regOffset {r : Reg} (hlow : r.offset < 0x1000) : BusAddr.offset (busAddr r.offset) = r.offset :=
  busAddr_offset (regOffset_mod_four r) (by omega)

theorem hostReads_register {s : State} (r : Reg) {off : Nat} {v : Word} (hoff : r.offset = off) (hlow : off < 0x1000)
    (hdef : s.busy = false ∨ definedWhileBusy r = true) (hval : readReg s r = some v) :
    hostReads s off = .next { s with hbRdata := v } := by
  subst hoff
  rw [hostReads_eq, busAddr_regOffset hlow]
  exact busRead_of_defined (lt_two_pow_addrBits _ hlow) (regAt_offset_of_low _ hlow) hdef hval

theorem hostWrites_register {s : State} (r : Reg) {off : Nat} (hoff : r.offset = off) (hlow : off < 0x1000)
    (hidle : s.busy = false) (w : Word) : hostWrites s off w = .next (writeReg s r w) := by
  subst hoff
  rw [hostWrites_eq, busAddr_regOffset hlow]
  exact busWrite_of_idle (lt_two_pow_addrBits _ hlow) (regAt_offset_of_low _ hlow) hidle w

theorem hostWrites_busy {s : State} {off : Nat} (h4 : off % 4 = 0) (hlow : off < 0x1000) (hbusy : s.busy = true)
    (w : Word) : hostWrites s off w = .next { s with overrun := true } := by
  rw [hostWrites_eq, busAddr_offset h4 (by omega)]
  exact busWrite_of_busy (lt_two_pow_addrBits _ hlow) hbusy w

theorem hostReads_msg {s : State} (hidle : s.busy = false) (i : Fin 25) (f : MsgField) {off : Nat}
    (hoff : (Reg.msg i f).offset = off) :
    hostReads s off = .next { s with hbRdata := (s.msgE.get i).get f } := by
  obtain ⟨_, hmsg⟩ := regOffset_msg_bounds i f
  subst hoff
  exact hostReads_register (.msg i f) rfl (by omega) (.inl hidle) rfl

theorem hostWrites_msg {s : State} (hidle : s.busy = false) (i : Fin 25) (f : MsgField) {off : Nat}
    (hoff : (Reg.msg i f).offset = off) (w : Word) :
    hostWrites s off w = .next { s with msgE := s.msgE.set i ((s.msgE.get i).put f w) } := by
  obtain ⟨_, hmsg⟩ := regOffset_msg_bounds i f
  subst hoff
  exact hostWrites_register (.msg i f) rfl (by omega) hidle w

/-! ### What a write of a register stores (R27 to R33) -/

theorem writeReg_rtLen (s : State) (w : Word) :
    writeReg s .rtLen w = { s with rtLen := BitVec.ofNat 6 w.toNat } := rfl

theorem writeReg_rtIface (s : State) (w : Word) :
    writeReg s .rtIface w = { s with rtIface := BitVec.ofNat 8 w.toNat } := rfl

theorem writeReg_rtMetric (s : State) (w : Word) :
    writeReg s .rtMetric w = { s with rtMetric := BitVec.ofNat 5 w.toNat } := rfl

theorem writeReg_msgCmd (s : State) (w : Word) :
    writeReg s .msgCmd w = { s with msgCmd := BitVec.ofNat 8 w.toNat } := rfl

theorem writeReg_msgCount_of_le (s : State) {w : Word} (h : w.toNat ≤ 25) :
    writeReg s .msgCount w = { s with msgCount := BitVec.ofNat 5 w.toNat } := if_pos h

theorem writeReg_msgCount_of_gt (s : State) {w : Word} (h : 25 < w.toNat) : writeReg s .msgCount w = s :=
  if_neg (Nat.not_le.mpr h)

theorem writeReg_msgCount_other (s : State) {r : Reg} (hr : r ≠ .msgCount) (w : Word) :
    (writeReg s r w).msgCount = s.msgCount := by
  cases r with
  | status => simp only [writeReg]; split <;> rfl
  | msgCount => contradiction
  | _ => rfl

/-- What a read returns of a narrow field: its value, with the other bits 0. -/
theorem readReg_narrow (s : State) :
    readReg s .rtLen = some (BitVec.ofNat 32 s.rtLen.toNat)
      ∧ readReg s .rtIface = some (BitVec.ofNat 32 s.rtIface.toNat)
      ∧ readReg s .rtMetric = some (BitVec.ofNat 32 s.rtMetric.toNat)
      ∧ readReg s .msgCmd = some (BitVec.ofNat 32 s.msgCmd.toNat)
      ∧ readReg s .msgCount = some (BitVec.ofNat 32 s.msgCount.toNat) := by
  simp [readReg]

/-! ### PARAMS as a number (R22) -/

theorem toNat_append_eq_add {m n : Nat} (x : BitVec m) (y : BitVec n) : (x ++ y).toNat = x.toNat * 2 ^ n + y.toNat := by
  rw [BitVec.toNat_append, ← Nat.shiftLeft_add_eq_or_of_lt y.isLt, Nat.shiftLeft_eq]

theorem paramsWord_toNat {p : Params} (h : p.wf = true) :
    (Params.word p).toNat = 25 * 2 ^ 24 + p.lpmEntries * 2 ^ 16 + p.pbufBytes := by
  simp only [Params.wf, Bool.and_eq_true, decide_eq_true_eq] at h
  obtain ⟨⟨⟨_, hbytes⟩, _⟩, hentries⟩ := h
  simp only [Params.word, toNat_append_eq_add, BitVec.toNat_ofNat, msgMax]
  omega

/-! ### Acceptance (R230, R81) -/

theorem accept_of_decode_ok (s : State) {w : Word} {i : Instr} (h : decode w = .ok i) :
    s.accept w = { s with pend := some (.command i), done := false } := by
  simp [State.accept, pendingOf, h]

theorem accept_of_decode_error (s : State) {w : Word} {e : DecodeReject} (h : decode w = .error e) :
    s.accept w = { s with pend := some .illegal, done := false } := by
  simp [State.accept, pendingOf, h]

end Sys2Proof.Machine
end

section
/-! PROOF. What the commands do to MSG (41_codec.md R144, R150), the bound on COUNT (10_state.md R33), and LPM_INSERT on
an illegal route (42_lpm_table.md R173). -/

namespace Sys2Proof.Machine

/-! ### The commands that only complete: they change no operand, no MSG field and no slot -/

theorem execLpmLookup_next {s t : State} (h : execLpmLookup s = .next t) :
    ∃ c r0 r1 r2 r3, t = s.complete c r0 r1 r2 r3 := by
  unfold execLpmLookup at h
  split at h <;> cases h <;> exact ⟨_, _, _, _, _, rfl⟩

theorem execLpmFind_next {s t : State} (h : execLpmFind s = .next t) :
    ∃ c r0 r1 r2 r3, t = s.complete c r0 r1 r2 r3 := by
  unfold execLpmFind at h
  split at h <;> cases h <;> exact ⟨_, _, _, _, _, rfl⟩

theorem execLpmRead_next {s t : State} (h : execLpmRead s = .next t) :
    ∃ c r0 r1 r2 r3, t = s.complete c r0 r1 r2 r3 := by
  unfold execLpmRead at h
  split at h <;> cases h <;> exact ⟨_, _, _, _, _, rfl⟩

/-! ### Which commands write MSG (R144) -/

/-- MSG is the same in both states: MSG_CMD, MSG_COUNT and every entry. -/
def SameMsg (s t : State) : Prop := t.msgCmd = s.msgCmd ∧ t.msgCount = s.msgCount ∧ t.msgE = s.msgE

theorem SameMsg.complete (s : State) (c : Code) (r0 r1 r2 r3 : Word) : SameMsg s (s.complete c r0 r1 r2 r3) :=
  ⟨rfl, rfl, rfl⟩

/-- Every command but DISASSEMBLE leaves MSG as it was. -/
theorem exec_sameMsg {i : Instr} {s t : State} (hi : i ≠ .disassemble) (h : exec i s = .next t) : SameMsg s t := by
  cases i with
  | disassemble => contradiction
  | nop => cases h; exact .complete ..
  | csumCompute => obtain rfl | ⟨_, _, rfl⟩ := execCsumCompute_next h <;> exact .complete ..
  | csumVerify => obtain rfl | ⟨_, _, rfl⟩ := execCsumVerify_next h <;> exact .complete ..
  | assemble => obtain ⟨_, rfl⟩ | ⟨_, rfl⟩ := execAssemble_next h <;> exact ⟨rfl, rfl, rfl⟩
  | lpmInsert =>
    obtain ⟨_, rfl⟩ | ⟨_, _, _, rfl⟩ | ⟨_, _, _, rfl⟩ | ⟨_, _, _, _, rfl⟩ := execLpmInsert_next h <;>
      exact ⟨rfl, rfl, rfl⟩
  | lpmDelete => obtain ⟨_, rfl⟩ | ⟨_, _, rfl⟩ := execLpmDelete_next h <;> exact ⟨rfl, rfl, rfl⟩
  | lpmLookup => obtain ⟨_, _, _, _, _, rfl⟩ := execLpmLookup_next h; exact .complete ..
  | lpmFind => obtain ⟨_, _, _, _, _, rfl⟩ := execLpmFind_next h; exact .complete ..
  | lpmRead => obtain ⟨_, _, _, _, _, rfl⟩ := execLpmRead_next h; exact .complete ..
  | lpmClear => cases h; exact ⟨rfl, rfl, rfl⟩
  | forward => obtain ⟨_, _, rfl⟩ | ⟨_, _, _, _, rfl⟩ := execForward_next h <;> exact ⟨rfl, rfl, rfl⟩

/-- An accepted packet holds at least its IPv4, UDP and RIP headers (R104). -/
theorem length_of_parsePacket {bs : List Byte} {m : Byte × List MsgEntry} (h : parsePacket bs = .ok m) :
    32 ≤ bs.length := by
  by_contra hshort
  have hbody : 5 ≤ ihlOf (byteAt bs 0) → bs.length < ripOffset bs + ripHdrBytes := by
    simp only [ripOffset, udpHdrBytes, ripHdrBytes]; omega
  unfold parsePacket at h
  by_cases hihl : ihlOf (byteAt bs 0) < 5
  · simp [hihl] at h
  · simp [hihl, hbody (by omega)] at h

/-- DISASSEMBLE leaves MSG as it was, or stores the command and the count of a packet that passed the checks of R140. -/
theorem execDisassemble_msg {s t : State} (h : exec .disassemble s = .next t) :
    SameMsg s t ∨ ((t.msgCmd = 1#8 ∨ t.msgCmd = 2#8) ∧ t.msgCount.toNat ≤ 25) := by
  obtain ⟨_, rfl⟩ | ⟨_, _, rfl⟩ | ⟨bs, cmd, es, hread, hparse, rfl⟩ := execDisassemble_next h
  case inl => exact .inl (.complete ..)
  case inr.inl => exact .inl (.complete ..)
  case inr.inr =>
    have hlen : 20 ≤ s.arg.toNat := by
      have := length_of_parsePacket hparse
      have := length_of_readBytes hread
      omega
    obtain ⟨n, hframe, _, _, hcount⟩ := parsePacket_eq_ok hread hlen hparse
    obtain ⟨_, _, hmax, _, _, hcmd, _⟩ := hframe
    refine .inr ⟨hcmd.imp BitVec.eq_of_toNat_eq BitVec.eq_of_toNat_eq, ?_⟩
    simp only [State.complete_msgCount, BitVec.toNat_ofNat]
    omega

/-! ### COUNT ∈ 0..25 (R33) -/

theorem SameMsg.count_le {s t : State} (h : SameMsg s t) (hs : s.msgCount.toNat ≤ 25) : t.msgCount.toNat ≤ 25 := by
  obtain ⟨_, hcount, _⟩ := h
  rwa [hcount]

theorem exec_count_le {i : Instr} {s t : State} (h : exec i s = .next t) (hs : s.msgCount.toNat ≤ 25) :
    t.msgCount.toNat ≤ 25 := by
  by_cases hi : i = .disassemble
  · subst hi
    obtain hsame | ⟨_, hcount⟩ := execDisassemble_msg h
    · exact hsame.count_le hs
    · exact hcount
  · exact (exec_sameMsg hi h).count_le hs

theorem engineStep_count_le {s t : State} (h : engineStep s = .next t) (hs : s.msgCount.toNat ≤ 25) :
    t.msgCount.toNat ≤ 25 := by
  obtain ⟨_, rfl⟩ | ⟨_, rfl⟩ | ⟨i, _, hexec⟩ := engineStep_next h
  · exact hs
  · exact hs
  · exact exec_count_le hexec hs

theorem writeReg_count_le {s : State} (hs : s.msgCount.toNat ≤ 25) (r : Reg) (w : Word) :
    (writeReg s r w).msgCount.toNat ≤ 25 := by
  by_cases hr : r = .msgCount
  · subst hr
    obtain hgt | hle := Nat.lt_or_ge 25 w.toNat
    · rwa [writeReg_msgCount_of_gt s hgt]
    · rw [writeReg_msgCount_of_le s hle]
      simp only [BitVec.toNat_ofNat]
      omega
  · rwa [writeReg_msgCount_other s hr]

theorem hostStep_count_le {s t : State} (h : hostStep s = .next t) (hs : s.msgCount.toNat ≤ 25) :
    t.msgCount.toNat ≤ 25 := by
  obtain ⟨_, _, rfl⟩ | ⟨_, _, rfl⟩ | ⟨_, _, rfl⟩ | ⟨_, w, ops, r, _, _, _, rfl⟩ := hostStep_next h
  · exact hs
  · exact hs
  · exact hs
  · exact writeReg_count_le (s := { s with program := ops }) hs r w

theorem step_count_le {s t : State} (h : step s = .next t) (hs : s.msgCount.toNat ≤ 25) :
    t.msgCount.toNat ≤ 25 := by
  obtain ⟨_, ⟨_, rfl⟩ | ⟨_, hengine⟩ | ⟨_, hhost⟩⟩ := step_next h
  · simp [State.reset]
  · exact engineStep_count_le hengine hs
  · exact hostStep_count_le hhost hs

/-! ### The first byte ASSEMBLE writes (R150) -/

theorem readByte_of_execAssemble_ok {s t : State} (h : exec .assemble s = .next t) (hok : t.code = .ok) :
    readByte t.pbuf s.arg.toNat = some s.msgCmd := by
  obtain ⟨_, rfl⟩ | ⟨_, rfl⟩ := execAssemble_next h
  case inl => simp at hok
  case inr =>
    have hpos : 0 < (payload s).length := by simp [payload]
    simp only [State.complete_pbuf]
    rw [readByte_writeBytes, if_pos (by omega), Nat.sub_self]
    rfl

/-! ### LPM_INSERT's operand check (R173) -/

theorem execLpmInsert_of_illegal {s : State} (h : ¬ RouteLegal s) :
    exec .lpmInsert s = finish s .badArg 0#32 0#32 0#32 0#32 := by
  have hillegal : legalRoute s.rtPrefix s.rtLen s.rtMetric = false := by
    rwa [← Bool.not_eq_true, legalRoute_iff]
  simp [exec, execLpmInsert, hillegal]

end Sys2Proof.Machine
end

section
/-! PROOF. The statements about single registers of 10_state.md. -/

namespace Sys2Proof.Machine

/-- Settles O3: the three cases of a CMD write, and the read that is defined whatever BUSY is. -/
theorem cmdWriteIsAcceptedOnlyWhenIdle : Obligations.CmdWriteIsAcceptedOnlyWhenIdle := by
  unfold Obligations.CmdWriteIsAcceptedOnlyWhenIdle
  intro s w
  refine ⟨fun hidle => ?idle, hostWrites_busy (by decide) (by decide) (w := w),
    hostReads_register .cmd rfl (by decide) (.inr rfl) rfl⟩
  case idle =>
    have haccept : hostWrites s 0x008 w = .next (s.accept w) := hostWrites_register .cmd rfl (by decide) hidle w
    rw [haccept]
    exact ⟨fun i hi => congrArg _ (accept_of_decode_ok s hi), fun e he => congrArg _ (accept_of_decode_error s he)⟩

/-- Settles O18: the five registers at their offsets, and LPM_INSERT's check of the staged route. -/
theorem routeStagingRegisters : Obligations.RouteStagingRegisters := by
  unfold Obligations.RouteStagingRegisters
  refine ⟨fun s w hidle => ?write, fun s hidle => ?read, fun s t ht => ?reset, fun s hout => ?insert⟩
  case write =>
    rw [← writeReg_rtLen, ← writeReg_rtIface, ← writeReg_rtMetric]
    exact ⟨hostWrites_register .rtPrefix rfl (by decide) hidle w, hostWrites_register .rtLen rfl (by decide) hidle w,
      hostWrites_register .rtIface rfl (by decide) hidle w, hostWrites_register .rtNexthop rfl (by decide) hidle w,
      hostWrites_register .rtMetric rfl (by decide) hidle w⟩
  case read =>
    obtain ⟨hlen, hiface, hmetric, _⟩ := readReg_narrow s
    exact ⟨hostReads_register .rtPrefix rfl (by decide) (.inl hidle) rfl,
      hostReads_register .rtLen rfl (by decide) (.inl hidle) hlen,
      hostReads_register .rtIface rfl (by decide) (.inl hidle) hiface,
      hostReads_register .rtNexthop rfl (by decide) (.inl hidle) rfl,
      hostReads_register .rtMetric rfl (by decide) (.inl hidle) hmetric⟩
  case reset =>
    cases ht
    exact ⟨rfl, rfl, rfl, rfl, rfl⟩
  case insert =>
    refine execLpmInsert_of_illegal ?_
    rintro ⟨hlen, _, hmin, hmax⟩
    omega

/-- Settles O19: the register MSG_COUNT, and the bound as an invariant of every kind of step. -/
theorem msgCountStaysInRange : Obligations.MsgCountStaysInRange := by
  unfold Obligations.MsgCountStaysInRange
  refine ⟨fun s w hidle => ?register, fun s t ht => ?reset, fun s t hs hstep => step_count_le hstep hs⟩
  case register =>
    have hwrite : hostWrites s 0x084 w = .next (writeReg s .msgCount w) :=
      hostWrites_register .msgCount rfl (by decide) hidle w
    obtain ⟨_, _, _, _, hcount⟩ := readReg_narrow s
    rw [hwrite]
    exact ⟨fun hle => congrArg _ (writeReg_msgCount_of_le s hle), fun hgt => congrArg _ (writeReg_msgCount_of_gt s hgt),
      hostReads_register .msgCount rfl (by decide) (.inl hidle) hcount⟩
  case reset => cases ht; rfl

/-- Settles O20: one rule for the write and one for the read of a MSG register, at each of the four fields. -/
theorem msgEntryRegistersHoldWords : Obligations.MsgEntryRegistersHoldWords := by
  unfold Obligations.MsgEntryRegistersHoldWords
  refine ⟨fun s i w hidle => ?registers, fun s t i ht => ?reset⟩
  case registers =>
    have haddr : (Reg.msg i .addr).offset = 0x100 + 16 * i.val := rfl
    have hmask : (Reg.msg i .mask).offset = 0x104 + 16 * i.val := by
      simp only [regOffset_msg, MsgField.offset]; omega
    have hnexthop : (Reg.msg i .nexthop).offset = 0x108 + 16 * i.val := by
      simp only [regOffset_msg, MsgField.offset]; omega
    have hmetric : (Reg.msg i .metric).offset = 0x10C + 16 * i.val := by
      simp only [regOffset_msg, MsgField.offset]; omega
    exact ⟨hostWrites_msg hidle i .addr haddr w, hostWrites_msg hidle i .mask hmask w,
      hostWrites_msg hidle i .nexthop hnexthop w, hostWrites_msg hidle i .metric hmetric w,
      hostReads_msg hidle i .addr haddr, hostReads_msg hidle i .mask hmask, hostReads_msg hidle i .nexthop hnexthop,
      hostReads_msg hidle i .metric hmetric⟩
  case reset =>
    cases ht
    exact Vector.get_replicate 25 MsgEntry.zero i

/-- Settles O21: the register MSG_CMD, what DISASSEMBLE stores in it and where ASSEMBLE puts it. -/
theorem msgCmdHoldsAnyByte : Obligations.MsgCmdHoldsAnyByte := by
  unfold Obligations.MsgCmdHoldsAnyByte
  refine ⟨fun s w hidle => ?register, fun s t h => ?disassemble, fun s t => readByte_of_execAssemble_ok,
    fun s t ht => ?reset⟩
  case register =>
    obtain ⟨_, _, _, hcmd, _⟩ := readReg_narrow s
    rw [← writeReg_msgCmd]
    exact ⟨hostWrites_register .msgCmd rfl (by decide) hidle w,
      hostReads_register .msgCmd rfl (by decide) (.inl hidle) hcmd⟩
  case disassemble =>
    obtain ⟨hkept, _⟩ | ⟨hcmd, _⟩ := execDisassemble_msg h
    · exact .inl hkept
    · exact .inr hcmd
  case reset => cases ht; rfl

/-- Settles O14: ID is defined whatever BUSY is, and its read is the same word in every state, those after reset among
them. -/
theorem idRegisterIsConstant : Obligations.IdRegisterIsConstant := by
  unfold Obligations.IdRegisterIsConstant
  have hread (s : State) : hostReads s 0x000 = .next { s with hbRdata := 0x52495032#32 } :=
    hostReads_register .id rfl (by decide) (.inr rfl) rfl
  exact fun s => ⟨hread s, fun hidle w => hostWrites_register .id rfl (by decide) hidle w, fun t _ => hread t⟩

/-- Settles O15: the word PARAMS reads, as the number its three fields make. -/
theorem paramsRegisterReads : Obligations.ParamsRegisterReads := by
  unfold Obligations.ParamsRegisterReads
  refine ⟨fun s hwf => ?read, fun s hidle w => hostWrites_register .params rfl (by decide) hidle w⟩
  case read =>
    refine ⟨Params.word s.params, hostReads_register .params rfl (by decide) (.inr rfl) rfl, paramsWord_toNat hwf,
      fun hentries hbytes => ?_⟩
    rw [Params.word, hentries, hbytes]
    rfl

end Sys2Proof.Machine
end

section
/-! PROOF. The PBUF window on the bus (20_memory.md R61, R62, R65): its offsets, what a host read and a host write of a
word of it do, and writes at any offset while BUSY = 1 (R68). -/

namespace Sys2Proof.Machine

/-! ### The window's offsets (R61, R62, R65) -/

/-- ADDR_BITS is at most 16, so the 14 bits of a bus address carry every offset of a legal port (R7, R62). -/
theorem two_pow_addrBits_le {p : Params} (hwf : p.wf = true) : 2 ^ p.addrBits ≤ 65536 := by
  simp only [Params.wf, Bool.and_eq_true, decide_eq_true_eq] at hwf
  obtain ⟨⟨⟨⟨_, hmin⟩, hmax⟩, _⟩, _⟩ := hwf
  have hlog : Nat.log2 (0x1000 + p.pbufBytes - 1) < 16 := (Nat.log2_lt (by omega)).mpr (by omega)
  have hbits : p.addrBits ≤ 16 := hlog
  exact Nat.pow_le_pow_right (by decide) hbits

/-- A byte offset that a legal port carries names itself. -/
theorem busAddr_offset_of_port {p : Params} {off : Nat} (hwf : p.wf = true) (h4 : off % 4 = 0)
    (hport : off < 2 ^ p.addrBits) : BusAddr.offset (busAddr off) = off :=
  busAddr_offset h4 (hport.trans_le (two_pow_addrBits_le hwf))

theorem pbufWord_lt_two_pow_addrBits {p : Params} {k : Nat} (hk : 4 * k < p.pbufBytes) :
    0x1000 + 4 * k < 2 ^ p.addrBits := by
  have hport : 0x1000 + p.pbufBytes - 1 < 2 ^ p.addrBits := Nat.lt_log2_self
  omega

theorem regAt_pbufWord {p : Params} {k : Nat} (hk : 4 * k < p.pbufBytes) :
    regAt p (0x1000 + 4 * k) = some (.pbufWord k) := by
  have hword : (0x1000 + 4 * k - 0x1000) / 4 = k := by omega
  unfold regAt
  rw [if_neg (by omega), if_neg (by omega), dif_neg (by omega), if_pos (by omega), hword]

/-! ### Four bytes of PBUF as one word (R10, R60) -/

/-- Byte `i` of a 32-bit write, most significant first. -/
theorem readByte_memWrite_four (m : Memory) (a : Nat) (w : Word) {i : Nat} (hi : i < 4) :
    readByte (memWrite m a 4 w) (a + i) = some (w.extractLsb' (8 * (3 - i)) 8) := by
  rw [readByte_memWrite, if_pos (by omega), Nat.add_sub_cancel_left]
  interval_cases i <;> rfl

/-- A written word reads as be32 of its address. -/
theorem memRead_of_written {m : Memory} {a : Nat} (h : Written m a 4) :
    memRead m a 4 = some (BitVec.ofNat 32 (num32 m a)) := by
  obtain ⟨bs, hbs⟩ := readBytes_of_written h
  obtain ⟨hlen, hget⟩ := readBytes_eq_some.mp hbs
  match bs, hlen with
  | [b0, b1, b2, b3], _ =>
    have hbyte {i : Nat} (hi : i < 4) : byteNum m (a + i) = ([b0, b1, b2, b3][i]?.getD 0#8).toNat := by
      rw [byteNum, hget i hi]
    have h0 : byteNum m a = b0.toNat := hbyte (i := 0) (by decide)
    have h1 : byteNum m (a + 1) = b1.toNat := hbyte (i := 1) (by decide)
    have h2 : byteNum m (a + 2) = b2.toNat := hbyte (i := 2) (by decide)
    have h3 : byteNum m (a + 2 + 1) = b3.toNat := hbyte (i := 3) (by decide)
    have hnum : (beWord [b0, b1, b2, b3]).toNat = num32 m a := by
      rw [beWord_four, num32, num16, num16, h0, h1, h2, h3]
      omega
    simp [memRead, hbs, ← hnum]

/-! ### The host's move at a word of the window -/

section
variable {s : State} {k : Nat} (hwf : s.params.wf = true) (hk : 4 * k < s.params.pbufBytes) (hidle : s.busy = false)
include hwf hk hidle

theorem hostReads_pbufWord {v : Word} (hval : memRead s.pbuf (4 * k) 4 = some v) :
    hostReads s (0x1000 + 4 * k) = .next { s with hbRdata := v } := by
  have hport := pbufWord_lt_two_pow_addrBits hk
  rw [hostReads_eq, busAddr_offset_of_port hwf (by omega) hport]
  exact busRead_of_defined hport (regAt_pbufWord hk) (.inl hidle) hval

theorem hostWrites_pbufWord (w : Word) :
    hostWrites s (0x1000 + 4 * k) w = .next { s with pbuf := memWrite s.pbuf (4 * k) 4 w } := by
  have hport := pbufWord_lt_two_pow_addrBits hk
  rw [hostWrites_eq, busAddr_offset_of_port hwf (by omega) hport]
  exact busWrite_of_idle hport (regAt_pbufWord hk) hidle w

end

/-! ### The statements -/

/-- Settles O22: a write is MemWrite(4k, 4, w), and a read returns the four bytes, those just written among them. -/
theorem pbufWordWindow : Obligations.PbufWordWindow := by
  unfold Obligations.PbufWordWindow
  intro s k hwf hk hidle
  refine ⟨fun w => ?write, fun hwritten => hostReads_pbufWord hwf hk hidle (memRead_of_written hwritten)⟩
  case write =>
    have hbyte {i : Nat} (hi : i < 4) := readByte_memWrite_four s.pbuf (4 * k) w hi
    refine ⟨_, hostWrites_pbufWord hwf hk hidle w, rfl, hbyte (i := 0) (by decide), hbyte (i := 1) (by decide),
      hbyte (i := 2) (by decide), hbyte (i := 3) (by decide), fun i hi => ?shadow, fun a ha => ?frame, ?readBack⟩
    case shadow => simp [State.pw, hbyte hi]
    case frame => rw [readByte_memWrite, if_neg ha]
    case readBack =>
      exact hostReads_pbufWord (s := { s with pbuf := memWrite s.pbuf (4 * k) 4 w }) hwf hk hidle
        (memRead_memWrite_four s.pbuf (4 * k) w)

/-- Settles O25: the port carries the offset, and a write while BUSY = 1 is dropped before the register map is
consulted. -/
theorem writesWhileBusyAreDropped : Obligations.WritesWhileBusyAreDropped := by
  unfold Obligations.WritesWhileBusyAreDropped
  intro s off w hwf hbusy h4 hport
  rw [hostWrites_eq, busAddr_offset_of_port hwf h4 hport]
  exact busWrite_of_busy hport hbusy w

end Sys2Proof.Machine
end

section
/-! PROOF. The encoding of 30_encoding.md: the decoder answers exactly the opcode map (R81, R82), and a `pbuf` line of
host assembly writes its words into PBUF (R112). -/

namespace Sys2Proof.Machine

/-! ### The fields of a command word (R80) -/

theorem rsvField_eq_zero_iff (w : Word) : rsvField w = 0#24 ↔ w.toNat < 256 := by
  rw [← BitVec.toNat_inj, rsvField, BitVec.extractLsb'_toNat, Nat.shiftRight_eq_div_pow, BitVec.toNat_zero]
  have := w.isLt
  omega

/-- A word with RSV = 0 is its opcode, zero-extended. -/
theorem setWidth_opcodeField {w : Word} (h : w.toNat < 256) : (opcodeField w).setWidth 32 = w := by
  rw [← BitVec.toNat_inj, opcodeField, BitVec.toNat_setWidth, BitVec.extractLsb'_toNat, Nat.shiftRight_zero]
  omega

theorem encode_toNat_lt (i : Instr) : (encode i).toNat < 256 := by
  rw [encode, BitVec.toNat_setWidth]
  have := i.opcode.isLt
  omega

/-! ### The decoder (R81) -/

/-- Every row of the map pairs a command with its own opcode (R82). -/
theorem opcode_of_mem_opcodeMap : ∀ row ∈ opcodeMap, row.2.opcode = row.1 := by decide

theorem decode_encode (i : Instr) : decode (encode i) = .ok i := by
  cases i <;> rfl

/-- What the decoder answers on a word: RSV is checked first, then the map (R81, R84). -/
theorem decode_cases (w : Word) :
    (256 ≤ w.toNat ∧ decode w = .error .reservedBits)
      ∨ (∃ i, w = encode i ∧ decode w = .ok i)
      ∨ (w.toNat < 256 ∧ decode w = .error .unlistedOpcode) := by
  by_cases hrsv : w.toNat < 256
  · have hzero := (rsvField_eq_zero_iff w).mpr hrsv
    cases hfind : opcodeMap.find? (fun row => row.1 == opcodeField w) with
    | none => exact .inr (.inr ⟨hrsv, by simp [decode, hzero, hfind]⟩)
    | some row =>
      have hrow : row.1 = opcodeField w := by simpa using List.find?_some hfind
      have hword : w = encode row.2 := by
        rw [encode, opcode_of_mem_opcodeMap row (List.mem_of_find?_eq_some hfind), hrow, setWidth_opcodeField hrsv]
      exact .inr (.inl ⟨row.2, hword, by simp [decode, hzero, hfind]⟩)
  · have hnonzero : rsvField w ≠ 0#24 := mt (rsvField_eq_zero_iff w).mp hrsv
    exact .inl ⟨by omega, if_pos hnonzero⟩

theorem decode_eq_ok_iff (w : Word) (i : Instr) : decode w = .ok i ↔ w = encode i := by
  constructor
  · intro h
    obtain ⟨_, herr⟩ | ⟨j, hword, hok⟩ | ⟨_, herr⟩ := decode_cases w
    · simp [herr] at h
    · cases hok.symm.trans h
      exact hword
    · simp [herr] at h
  · rintro rfl
    exact decode_encode i

theorem decode_eq_reservedBits_iff (w : Word) : decode w = .error .reservedBits ↔ 256 ≤ w.toNat := by
  obtain ⟨hge, herr⟩ | ⟨i, rfl, hok⟩ | ⟨hlt, herr⟩ := decode_cases w
  · simp [hge, herr]
  · simp [hok, encode_toNat_lt i]
  · simp [hlt, herr]

theorem decode_eq_unlistedOpcode_iff (w : Word) :
    decode w = .error .unlistedOpcode ↔ w.toNat < 256 ∧ ∀ i : Instr, w ≠ encode i := by
  obtain ⟨hge, herr⟩ | ⟨i, rfl, hok⟩ | ⟨hlt, herr⟩ := decode_cases w
  · simp [Nat.not_lt.mpr hge, herr]
  · simp [hok]
  · have hlisted (i : Instr) : w ≠ encode i := by
      rintro rfl
      simp [decode_encode] at herr
    exact iff_of_true herr ⟨hlt, hlisted⟩

/-- A pending ILLEGAL completes with CODE = ILLEGAL and zero results (R234). -/
theorem engineMoves_illegal {s : State} (h : s.pend = some .illegal) :
    engineMoves s = .next (s.complete .illegal 0#32 0#32 0#32 0#32) := by
  rw [engineMoves_eq, engineStep_eq, h]

/-- Settles O4: the three answers of the decoder exclude each other, and ILLEGAL only completes. -/
theorem decodeIsExactlyTheOpcodeMap : Obligations.DecodeIsExactlyTheOpcodeMap := by
  unfold Obligations.DecodeIsExactlyTheOpcodeMap
  exact ⟨decode_eq_ok_iff, decode_eq_reservedBits_iff, decode_eq_unlistedOpcode_iff, fun _ => engineMoves_illegal⟩

/-! ### A `pbuf` line as one write of PBUF (R112) -/

theorem pbufLine_wf_iff (p : Params) (off : Nat) (ws : List Word) :
    (HostLine.pbuf off ws).wf p = true ↔ off % 4 = 0 ∧ off + 4 * ws.length ≤ p.pbufBytes := by
  simp [HostLine.wf]

/-- PBUF after the words of a `pbuf` line have been written from byte `a` on, in order. -/
def writeWords : Memory → Nat → List Word → Memory
  | m, _, [] => m
  | m, a, w :: ws => writeWords (memWrite m a 4 w) (a + 4) ws

/-- A host write that completes is one of the host's moves. -/
theorem hostMoves_of_hostWrites {s t : State} {off : Nat} {w : Word} (h : hostWrites s off w = .next t) (n : Nat) :
    hostMoves (n + 1) { s with program := .wr (busAddr off) w :: s.program } = hostMoves n t := by
  have hstep : step { s with turns := .host :: s.turns, program := .wr (busAddr off) w :: s.program } = .next t := h
  rw [hostMoves, hstep]
  rfl

theorem hostMoves_pbufOps {s : State} {k : Nat} {ws : List Word} (hwf : s.params.wf = true) (hidle : s.busy = false)
    (hfit : 4 * k + 4 * ws.length ≤ s.params.pbufBytes) :
    hostMoves ws.length { s with program := pbufOps (4 * k) ws ++ s.program }
      = some { s with pbuf := writeWords s.pbuf (4 * k) ws } := by
  induction ws generalizing s k with
  | nil => rfl
  | cons w ws ih =>
    rw [List.length_cons] at hfit
    have hwrite := hostWrites_pbufWord (s := { s with program := pbufOps (4 * (k + 1)) ws ++ s.program }) (k := k)
      hwf (by show 4 * k < s.params.pbufBytes; omega) hidle w
    calc hostMoves (ws.length + 1) { s with program := pbufOps (4 * k) (w :: ws) ++ s.program }
        = hostMoves ws.length { s with pbuf := memWrite s.pbuf (4 * k) 4 w,
                                       program := pbufOps (4 * (k + 1)) ws ++ s.program } :=
          hostMoves_of_hostWrites hwrite _
      _ = some { s with pbuf := writeWords (memWrite s.pbuf (4 * k) 4 w) (4 * (k + 1)) ws } :=
          ih (s := { s with pbuf := memWrite s.pbuf (4 * k) 4 w }) hwf hidle (by show _ ≤ s.params.pbufBytes; omega)

/-! ### What `writeWords` does to every read -/

theorem readByte_writeWords_outside (m : Memory) (a : Nat) (ws : List Word) {i : Nat}
    (h : ¬ (a ≤ i ∧ i < a + 4 * ws.length)) : readByte (writeWords m a ws) i = readByte m i := by
  induction ws generalizing m a with
  | nil => rfl
  | cons w ws ih =>
    rw [List.length_cons] at h
    rw [writeWords, ih _ _ (by omega), readByte_memWrite, if_neg (by omega)]

theorem readBytes_congr {m m' : Memory} {a n : Nat} (h : ∀ i, i < n → readByte m (a + i) = readByte m' (a + i)) :
    readBytes m a n = readBytes m' a n := by
  induction n generalizing a with
  | zero => rfl
  | succ n ih =>
    have hfirst : readByte m a = readByte m' a := h 0 (Nat.succ_pos n)
    have hrest : readBytes m (a + 1) n = readBytes m' (a + 1) n := ih fun i hi => by
      rw [Nat.add_assoc, Nat.add_comm 1 i]
      exact h (i + 1) (Nat.succ_lt_succ hi)
    rw [readBytes, readBytes, hfirst, hrest]

theorem memRead_writeWords (m : Memory) (a : Nat) (ws : List Word) {j : Nat} {w : Word} (h : ws[j]? = some w) :
    memRead (writeWords m a ws) (a + 4 * j) 4 = some w := by
  induction ws generalizing m a j with
  | nil => simp at h
  | cons v ws ih =>
    cases j with
    | zero =>
      obtain rfl : v = w := by simpa using h
      have hkept : readBytes (writeWords (memWrite m a 4 v) (a + 4) ws) a 4 = readBytes (memWrite m a 4 v) a 4 :=
        readBytes_congr fun i hi => readByte_writeWords_outside _ _ _ (by omega)
      calc memRead (writeWords m a (v :: ws)) a 4
          = memRead (memWrite m a 4 v) a 4 := congrArg (Option.map beWord) hkept
        _ = some v := memRead_memWrite_four m a v
    | succ j =>
      have haddr : a + 4 * (j + 1) = a + 4 + 4 * j := by omega
      rw [haddr]
      exact ih _ _ h

/-- Settles O29: the line's moves leave `writeWords`, whose reads are the words inside the line's range and the old
bytes outside it. -/
theorem pbufLineWritesWords : Obligations.PbufLineWritesWords := by
  unfold Obligations.PbufLineWritesWords
  intro s off ws hwf hidle hline
  obtain ⟨halign, hfit⟩ := (pbufLine_wf_iff _ _ _).mp hline
  obtain ⟨k, rfl⟩ := Nat.dvd_of_mod_eq_zero halign
  exact ⟨_, hostMoves_pbufOps hwf hidle hfit, rfl, fun _ _ => memRead_writeWords _ _ _,
    fun _ => readByte_writeWords_outside _ _ _⟩

end Sys2Proof.Machine
end


section
/-! PROOF. The header region of the three header commands (40_checksum.md R120, R121): when they are refused for their
IHL, when they fault, and where the region ends. -/

namespace Sys2Proof.Machine

/-! ### The header region in PBUF (R120) -/

theorem ihlNum_of_readByte {m : Memory} {b : Byte} (h : readByte m 0 = some b) : ihlNum m = ihlOf b := by
  rw [ihlNum, byteNum, h, Option.getD_some, ihlOf_eq]

theorem headerRegion_le (m : Memory) : 4 * ihlNum m ≤ 60 := by rw [ihlNum]; omega

theorem paramsWf_pbufBytes_ge {p : Params} (h : p.wf = true) : 532 ≤ p.pbufBytes := by
  simp only [Params.wf, Bool.and_eq_true, decide_eq_true_eq] at h
  omega

theorem readByte_zero_of_ihlNum_pos {m : Memory} (h : 0 < ihlNum m) : ∃ b, readByte m 0 = some b := by
  cases hbyte : readByte m 0 with
  | none => simp [ihlNum, byteNum, hbyte] at h
  | some b => exact ⟨b, rfl⟩

/-- With a legal IHL, which byte 0 must then have given, a gap in the rest of the region makes the operand unwritten. -/
theorem headerOperand_of_not_written {m : Memory} (hihl : 5 ≤ ihlNum m) (hw : ¬ Written m 0 (4 * ihlNum m)) :
    headerOperand m = .unwritten := by
  obtain ⟨b, hb⟩ := readByte_zero_of_ihlNum_pos (Nat.zero_lt_of_lt hihl)
  rw [ihlNum_of_readByte hb] at hihl hw
  have hread : readBytes m 0 (4 * ihlOf b) = none :=
    Option.eq_none_iff_forall_ne_some.mpr fun _ hbs => hw (written_of_readBytes hbs)
  simp only [headerOperand, hb, if_neg (Nat.not_lt.mpr hihl), hread]

/-! ### What a header command does without a header (R121) -/

theorem exec_of_headerOperand_unwritten {i : Instr} {s : State} (hi : i = .csumCompute ∨ i = .csumVerify ∨ i = .forward)
    (h : headerOperand s.pbuf = .unwritten) : exec i s = .fault .unwrittenPbufRead := by
  obtain rfl | rfl | rfl := hi
  · simp only [exec, execCsumCompute, h]
  · simp only [exec, execCsumVerify, h]
  · simp only [exec, execForward, h]

theorem exec_of_headerOperand_badIhl {i : Instr} {s : State} (hi : i = .csumCompute ∨ i = .csumVerify ∨ i = .forward)
    (h : headerOperand s.pbuf = .badIhl) : exec i s = finishError s .badIhl := by
  obtain rfl | rfl | rfl := hi
  · simp only [exec, execCsumCompute, h]
  · simp only [exec, execCsumVerify, h]
  · simp only [exec, execForward, h]

/-- Settles O33: each clause is a value of the header operand, which decides all three commands alike; the bounds are
those of a 4-bit IHL and of PBUF_BYTES. -/
theorem headerRegionBounds : Obligations.HeaderRegionBounds := by
  unfold Obligations.HeaderRegionBounds
  intro i s hi
  refine ⟨fun b hb hihl => ?badIhl, fun hnone => ?noByteZero, fun hihl hw => ?gap, ?region⟩
  case badIhl =>
    rw [← ihlOf_eq] at hihl
    exact exec_of_headerOperand_badIhl hi (headerOperand_of_badIhl hb hihl)
  case noByteZero => exact exec_of_headerOperand_unwritten hi (headerOperand_of_unwritten hnone)
  case gap => exact exec_of_headerOperand_unwritten hi (headerOperand_of_not_written hihl hw)
  case region =>
    have hregion := headerRegion_le s.pbuf
    exact ⟨hregion, fun hwf => hregion.trans (le_trans (by decide) (paramsWf_pbufBytes_ge hwf))⟩

end Sys2Proof.Machine
end

section
/-! PROOF. The RIP codec (41_codec.md): what DISASSEMBLE commits to MSG (R144) and what ASSEMBLE writes (R150, R152). -/

namespace Sys2Proof.Machine

/-! ### The commit of DISASSEMBLE (R144) -/

theorem length_entries_of_parsePacket {m : Memory} {len : Nat} {bs : List Byte} {cmd : Byte} {es : List MsgEntry}
    (hread : readBytes m 0 len = some bs) (hparse : parsePacket bs = .ok (cmd, es)) : es.length ≤ 25 := by
  have hlen : 20 ≤ len := by
    have := length_of_parsePacket hparse
    have := length_of_readBytes hread
    omega
  obtain ⟨_, ⟨_, _, hmax, _⟩, _, _, rfl⟩ := parsePacket_eq_ok hread hlen hparse
  exact hmax

/-- The three results of DISASSEMBLE, by what happens to MSG: an error keeps it, OK stores as many entries as MSG_COUNT
then says. -/
theorem execDisassemble_commit {s t : State} (h : exec .disassemble s = .next t) :
    ((t.code = .reject ∨ t.code = .range) ∧ SameMsg s t)
      ∨ (t.code = .ok ∧ ∃ es, es.length = t.msgCount.toNat ∧ t.msgE = storeEntries s.msgE 0 es) := by
  obtain ⟨_, rfl⟩ | ⟨_, _, rfl⟩ | ⟨bs, cmd, es, hread, hparse, rfl⟩ := execDisassemble_next h
  case inl => exact .inl ⟨.inr rfl, .complete ..⟩
  case inr.inl => exact .inl ⟨.inl rfl, .complete ..⟩
  case inr.inr =>
    have hmax := length_entries_of_parsePacket hread hparse
    refine .inr ⟨rfl, es, ?_, rfl⟩
    simp only [State.complete_msgCount, BitVec.toNat_ofNat]
    omega

theorem storeEntries_get_of_le (v : Vector MsgEntry 25) {es : List MsgEntry} {j : Fin 25} (h : es.length ≤ j.val) :
    (storeEntries v 0 es).get j = v.get j := by
  have hstored := storeEntries_getElem v 0 es j.val j.isLt
  rwa [dif_neg (by omega)] at hstored

/-- Settles O40: an error commits nothing, and OK commits only below the new MSG_COUNT. -/
theorem disassembleCommitsAtomically : Obligations.DisassembleCommitsAtomically := by
  unfold Obligations.DisassembleCommitsAtomically
  intro s t h
  obtain ⟨hcode, hcmd, hcount, hentries⟩ | ⟨hcode, es, hlen, hentries⟩ := execDisassemble_commit h
  case inl =>
    refine ⟨fun _ => ⟨hcmd, hcount, fun j => by rw [hentries]⟩, fun _ j _ => by rw [hentries], ?_⟩
    exact hcode.imp_right .inl
  case inr =>
    refine ⟨fun herr => by simp [hcode] at herr, fun _ j hj => ?_, .inr (.inr hcode)⟩
    rw [hentries]
    exact storeEntries_get_of_le _ (by omega)

/-! ### Parts of a run of bytes in PBUF -/

theorem readBytes_writeBytes_self (m : Memory) (a : Nat) (bs : List Byte) :
    readBytes (writeBytes m a bs) a bs.length = some bs := by
  refine readBytes_eq_some.mpr ⟨rfl, fun i hi => ?_⟩
  rw [readByte_writeBytes, if_pos (by omega), Nat.add_sub_cancel_left]

theorem readBytes_slice {m : Memory} {a n : Nat} {bs : List Byte} (h : readBytes m a n = some bs) (i : Nat) {k : Nat}
    (hk : i + k ≤ n) : readBytes m (a + i) k = some ((bs.drop i).take k) := by
  obtain ⟨hlen, hget⟩ := readBytes_eq_some.mp h
  refine readBytes_eq_some.mpr ⟨by simp; omega, fun l hl => ?_⟩
  rw [Nat.add_assoc, hget _ (by omega), List.getElem?_take_of_lt hl, List.getElem?_drop]

theorem byteNum_of_readBytes_at {m : Memory} {a n : Nat} {bs : List Byte} (h : readBytes m a n = some bs) {i : Nat}
    (hi : i < n) : byteNum m (a + i) = (bs[i]?.getD 0#8).toNat := by
  obtain ⟨_, hget⟩ := readBytes_eq_some.mp h
  rw [byteNum, hget i hi]

/-- Two bytes of a big-endian value, read as be16 (R10). -/
theorem num16_of_readBytes {m : Memory} {a : Nat} {v : Word} (h : readBytes m a 2 = some (beBytes 2 v)) :
    num16 m a = v.toNat % 65536 := by
  have hhigh : byteNum m a = v.toNat / 256 % 256 := by
    simpa [beBytes, Nat.shiftRight_eq_div_pow] using byteNum_of_readBytes_at h (i := 0) (by decide)
  have hlow : byteNum m (a + 1) = v.toNat % 256 := by
    simpa [beBytes] using byteNum_of_readBytes_at h (i := 1) (by decide)
  rw [num16, hhigh, hlow]
  omega

/-- The four bytes of a word, read as be32 (R10). -/
theorem num32_of_readBytes {m : Memory} {a : Nat} {v : Word} (h : readBytes m a 4 = some (beBytes 4 v)) :
    num32 m a = v.toNat := by
  have hread : memRead m a 4 = some v := by rw [memRead, h, Option.map_some, beWord_beBytes_four]
  rw [memRead_of_written (written_of_readBytes h), Option.some_inj] at hread
  rw [← hread, BitVec.toNat_ofNat, Nat.mod_eq_of_lt (num32_lt m a)]

/-! ### The payload of ASSEMBLE in PBUF (R150, R152) -/

theorem familyOf_toNat (cmd : Byte) : (familyOf cmd).toNat = familyNum cmd.toNat := (familyOf_iff cmd _).mp rfl

theorem familyNum_lt (cmd : Nat) : familyNum cmd < 65536 := by
  unfold familyNum
  split <;> decide

/-- The six fields of an entry on the wire (30_encoding.md R103), as PBUF holds them. -/
theorem fields_of_readBytes_entryWire {m : Memory} {e : Nat} {cmd : Byte} {x : MsgEntry}
    (h : readBytes m e 20 = some (entryWire cmd x)) :
    num16 m e = familyNum cmd.toNat ∧ num16 m (e + 2) = 0 ∧ num32 m (e + 4) = x.addr.toNat
      ∧ num32 m (e + 8) = x.mask.toNat ∧ num32 m (e + 12) = x.nexthop.toNat ∧ num32 m (e + 16) = x.metric.toNat := by
  refine ⟨?family, num16_of_readBytes (v := 0#32) (readBytes_slice h 2 (by decide)),
    num32_of_readBytes (readBytes_slice h 4 (by decide)), num32_of_readBytes (readBytes_slice h 8 (by decide)),
    num32_of_readBytes (readBytes_slice h 12 (by decide)), num32_of_readBytes (readBytes_slice h 16 (by decide))⟩
  case family =>
    have hfamily : readBytes m e 2 = some (beBytes 2 (familyOf cmd)) := readBytes_slice h 0 (by decide)
    rw [num16_of_readBytes hfamily, familyOf_toNat, Nat.mod_eq_of_lt (familyNum_lt _)]

section
variable {s : State} {m : Memory} {off : Nat} (hcount : s.msgCount.toNat ≤ 25)
  (h : readBytes m off (payloadSize s) = some (payload s))
include h

/-- The RIP header of a payload (R102): the command byte as held, version 2 and two zero bytes. -/
theorem header_of_readBytes_payload :
    byteNum m off = s.msgCmd.toNat ∧ byteNum m (off + 1) = 2 ∧ num16 m (off + 2) = 0 := by
  have hheader : readBytes m off 4 = some [s.msgCmd, 2#8, 0#8, 0#8] :=
    readBytes_slice h 0 (by simp only [payloadSize, ripHdrBytes]; omega)
  exact ⟨byteNum_of_readBytes_at hheader (i := 0) (by decide), byteNum_of_readBytes_at hheader (i := 1) (by decide),
    num16_of_readBytes (v := 0#32) (readBytes_slice hheader 2 (by decide))⟩

include hcount

/-- Entry `j` of a payload lies at byte 4 + 20·j (R150). -/
theorem entryWire_of_readBytes_payload {j : Fin 25} (hj : j.val < s.msgCount.toNat) :
    readBytes m (off + 4 + 20 * j.val) 20 = some (entryWire s.msgCmd (s.msgE.get j)) := by
  obtain ⟨_, hget⟩ := readBytes_eq_some.mp h
  refine readBytes_eq_some.mpr ⟨entryWire_length _ _, fun k hk => ?_⟩
  have hin : 4 + 20 * j.val + k < payloadSize s := by simp only [payloadSize, ripHdrBytes, entryBytes]; omega
  rw [← payload_getElem s hcount j hj k hk, ← hget _ hin]
  congr 1
  omega

end

theorem exec_assemble_range {s : State} (h : s.params.pbufBytes < s.arg.toNat + payloadSize s) :
    exec .assemble s = finish s .range 0#32 0#32 0#32 0#32 := if_pos h

theorem exec_assemble_ok {s : State} (h : s.arg.toNat + payloadSize s ≤ s.params.pbufBytes) :
    exec .assemble s = finish { s with pbuf := writeBytes s.pbuf s.arg.toNat (payload s) }
      .ok (BitVec.ofNat 32 (payloadSize s)) 0#32 0#32 0#32 := if_neg (Nat.not_lt.mpr h)

/-- Settles O42: the payload is read back whole from where ASSEMBLE wrote it, and its header and entries are parts of
that run. -/
theorem assembleWritesThePayload : Obligations.AssembleWritesThePayload := by
  unfold Obligations.AssembleWritesThePayload
  intro s hcount
  refine ⟨exec_assemble_range, fun hfits => ⟨_, exec_assemble_ok hfits, rfl, ?_⟩⟩
  have hlen := payload_length s hcount
  have hread := readBytes_writeBytes_self s.pbuf s.arg.toNat (payload s)
  rw [hlen] at hread
  obtain ⟨hcmd, hversion, hzero⟩ := header_of_readBytes_payload hread
  refine ⟨written_of_readBytes hread, hcmd, hversion, hzero, fun j hj => ?entry, fun a ha => ?frame⟩
  case entry => exact fields_of_readBytes_entryWire (entryWire_of_readBytes_payload hcount hread hj)
  case frame =>
    rw [State.complete_pbuf, readByte_writeBytes, hlen]
    exact if_neg ha

end Sys2Proof.Machine
end

section
/-! PROOF. The commands of the route table (42_lpm_table.md): the searches they answer from, LPM_INSERT, LPM_LOOKUP,
LPM_FIND, LPM_READ and LPM_CLEAR. -/

namespace Sys2Proof.Machine

/-! ### The searches (R170, R171, R174, R185) -/

theorem slotAt_of_getElem? {tbl : List Slot} {k : Nat} {t : Slot} (h : tbl[k]? = some t) : slotAt tbl k = t := by
  rw [slotAt, List.getD_eq_getElem?_getD, h, Option.getD_some]

theorem Slot.hasKey_eq_false_iff {t : Slot} {p : Word} {l : BitVec 6} : t.hasKey p l = false ↔ ¬ SlotHolds t p l := by
  rw [← Bool.not_eq_true, Slot.hasKey_iff]

theorem Slot.covers_eq_false_iff {t : Slot} {a : Word} : t.covers a = false ↔ ¬ SlotMatches t a := by
  rw [← Bool.not_eq_true, Slot.covers_iff]

theorem findKey_of_first {tbl : List Slot} {p : Word} {l : BitVec 6} {k : Nat} {t : Slot} (ht : tbl[k]? = some t)
    (hholds : SlotHolds t p l) (hlow : ∀ j u, j < k → tbl[j]? = some u → ¬ SlotHolds u p l) :
    findKey tbl p l = some k :=
  findKey_eq_some.mpr ⟨t, ht, Slot.hasKey_iff.mpr hholds,
    fun j u hj hu => Slot.hasKey_eq_false_iff.mpr (hlow j u hj hu)⟩

theorem findKey_of_absent {tbl : List Slot} {p : Word} {l : BitVec 6} (h : ∀ u ∈ tbl, ¬ SlotHolds u p l) :
    findKey tbl p l = none :=
  findKey_eq_none.mpr fun u hu => Slot.hasKey_eq_false_iff.mpr (h u hu)

/-- By I1 a slot holds legal keys only, so no slot holds an illegal one. -/
theorem not_slotHolds_of_illegal_key {s : State} {p : Word} {l : BitVec 6} (hinv : s.Inv)
    (hillegal : 32 < l.toNat ∨ p &&& ~~~(maskOf l.toNat) ≠ 0#32) : ∀ u ∈ s.table, ¬ SlotHolds u p l := by
  rintro u hu ⟨hvalid, rfl, rfl⟩
  obtain ⟨hlen, hpfx, _⟩ := hinv.table_legal u hu hvalid
  obtain hlong | hhost := hillegal
  · omega
  · exact hhost hpfx

theorem longestMatch_of_absent {tbl : List Slot} {a : Word} (h : ∀ u ∈ tbl, ¬ SlotMatches u a) :
    longestMatch tbl a = none := by
  obtain ⟨hnone, _⟩ | ⟨k, t, _, ht, hcovers, _⟩ := longestMatch_cases tbl a
  · exact hnone
  · exact absurd (Slot.covers_iff.mp hcovers) (h t (List.mem_of_getElem? ht))

theorem longestMatch_of_present {tbl : List Slot} {a : Word} (h : ∃ u ∈ tbl, SlotMatches u a) :
    ∃ k t, longestMatch tbl a = some (k, t) := by
  obtain ⟨u, hu, hmatch⟩ := h
  obtain ⟨_, hnone⟩ | ⟨k, t, hsome, _⟩ := longestMatch_cases tbl a
  · exact absurd hmatch (Slot.covers_eq_false_iff.mp (hnone u hu))
  · exact ⟨k, t, hsome⟩

/-- The scan answers one slot at most: the answer and the longest, lowest match bound each other's length and number. -/
theorem longestMatch_of_longest {tbl : List Slot} {a : Word} {k : Nat} {t : Slot} (ht : tbl[k]? = some t)
    (hmatch : SlotMatches t a)
    (hbest : ∀ j u, tbl[j]? = some u → SlotMatches u a → u.len.toNat < t.len.toNat ∨ (u.len = t.len ∧ k ≤ j)) :
    longestMatch tbl a = some (k, t) := by
  obtain ⟨k', t', hfound, ht', hcovers, hmax, hlow⟩ : ∃ k' t', longestMatch tbl a = some (k', t')
      ∧ IsLongest a tbl k' t' := by
    obtain ⟨_, hnone⟩ | hsome := longestMatch_cases tbl a
    · exact absurd hmatch (Slot.covers_eq_false_iff.mp (hnone t (List.mem_of_getElem? ht)))
    · exact hsome
  have hcovers_t : t.covers a = true := Slot.covers_iff.mpr hmatch
  have hle : t.len.toNat ≤ t'.len.toNat := hmax t (List.mem_of_getElem? ht) hcovers_t
  obtain hshorter | ⟨hlen, hkk'⟩ := hbest k' t' ht' (Slot.covers_iff.mp hcovers)
  · omega
  · have hk : k = k' := by
      by_contra hne
      have hlt : t.len.toNat < t'.len.toNat := hlow k t (by omega) ht hcovers_t
      rw [hlen] at hlt
      omega
    subst hk
    obtain rfl : t' = t := Option.some.inj (ht'.symm.trans ht)
    exact hfound

/-! ### What each command answers, by the outcome of its search -/

theorem exec_lpmInsert_replace {s : State} {k : Nat} (hlegal : RouteLegal s)
    (hkey : findKey s.table s.rtPrefix s.rtLen = some k) :
    exec .lpmInsert s = finish { s with table := s.table.set k (s.replaceIn (slotAt s.table k)) }
      .ok (slotWord k) 1#32 0#32 0#32 := by
  simp [exec, execLpmInsert, (legalRoute_iff s).mpr hlegal, hkey]

theorem exec_lpmInsert_new {s : State} {f : Nat} (hlegal : RouteLegal s)
    (hkey : findKey s.table s.rtPrefix s.rtLen = none) (hfree : freeSlot s.table = some f) :
    exec .lpmInsert s = finish { s with table := s.table.set f s.stagedSlot } .ok (slotWord f) 0#32 0#32 0#32 := by
  simp [exec, execLpmInsert, (legalRoute_iff s).mpr hlegal, hkey, hfree]

theorem exec_lpmInsert_full {s : State} (hlegal : RouteLegal s)
    (hkey : findKey s.table s.rtPrefix s.rtLen = none) (hfree : freeSlot s.table = none) :
    exec .lpmInsert s = finish s .tableFull 0#32 0#32 0#32 0#32 := by
  simp [exec, execLpmInsert, (legalRoute_iff s).mpr hlegal, hkey, hfree]

theorem exec_lpmLookup_found {s : State} {k : Nat} {t : Slot} (h : longestMatch s.table s.arg = some (k, t)) :
    exec .lpmLookup s
      = finish s .ok t.nexthop (BitVec.ofNat 32 t.iface.toNat) (BitVec.ofNat 32 k) (BitVec.ofNat 32 t.len.toNat) := by
  simp [exec, execLpmLookup, h, slotWord]

theorem exec_lpmLookup_missed {s : State} (h : longestMatch s.table s.arg = none) :
    exec .lpmLookup s = finish s .notFound 0#32 0#32 0#32 0#32 := by
  simp [exec, execLpmLookup, h]

theorem exec_lpmFind_found {s : State} {k : Nat} {t : Slot} (hkey : findKey s.table s.rtPrefix s.rtLen = some k)
    (ht : s.table[k]? = some t) :
    exec .lpmFind s
      = finish s .ok t.nexthop (BitVec.ofNat 32 t.iface.toNat) (BitVec.ofNat 32 k) (BitVec.ofNat 32 t.metric.toNat) := by
  simp [exec, execLpmFind, hkey, slotAt_of_getElem? ht, slotWord]

theorem exec_lpmFind_missed {s : State} (h : findKey s.table s.rtPrefix s.rtLen = none) :
    exec .lpmFind s = finish s .notFound 0#32 0#32 0#32 0#32 := by
  simp [exec, execLpmFind, h]

theorem exec_lpmRead_slot {s : State} {t : Slot} (hbound : s.arg.toNat < s.params.lpmEntries)
    (ht : s.table[s.arg.toNat]? = some t) :
    exec .lpmRead s = finish s .ok t.pfx t.nexthop t.packed 0#32 := by
  rw [exec, execLpmRead, if_neg (Nat.not_le.mpr hbound), slotAt_of_getElem? ht]

theorem exec_lpmRead_badArg {s : State} (h : s.params.lpmEntries ≤ s.arg.toNat) :
    exec .lpmRead s = finish s .badArg 0#32 0#32 0#32 0#32 := if_pos h

/-- LPM_CLEAR's map frees each slot and keeps their number. -/
theorem exec_lpmClear (s : State) :
    exec .lpmClear s = finish { s with table := List.replicate s.table.length Slot.free } .ok 0#32 0#32 0#32 0#32 := by
  rw [exec, execLpmClear, List.map_const']

/-- The packed word of LPM_READ as a number (R92). -/
theorem packed_toNat (t : Slot) :
    t.packed.toNat = t.valid.toNat * 2 ^ 31 + t.metric.toNat * 2 ^ 16 + t.iface.toNat * 2 ^ 8 + t.len.toNat := by
  simp only [Slot.packed, flagBit, toNat_append_eq_add, BitVec.toNat_ofNat, BitVec.toNat_ofBool]
  omega

/-! ### The statements -/

/-- Settles O45: an illegal route stops at the check, and each of the three ends of a legal insert has another code. -/
theorem insertChecksLegality : Obligations.InsertChecksLegality := by
  unfold Obligations.InsertChecksLegality
  refine fun s => ⟨execLpmInsert_of_illegal, fun hlegal => ?_⟩
  cases hkey : findKey s.table s.rtPrefix s.rtLen with
  | some k => exact ⟨_, exec_lpmInsert_replace hlegal hkey, by simp⟩
  | none =>
    cases hfree : freeSlot s.table with
    | some f => exact ⟨_, exec_lpmInsert_new hlegal hkey hfree, by simp⟩
    | none => exact ⟨_, exec_lpmInsert_full hlegal hkey hfree, by simp⟩

/-- Settles O46: the key search and the free-slot search answer the slots the statement names. -/
theorem insertReplacesOrTakesLowestFreeSlot : Obligations.InsertReplacesOrTakesLowestFreeSlot := by
  unfold Obligations.InsertReplacesOrTakesLowestFreeSlot
  intro s hlegal
  refine ⟨fun k t ht hholds hlow => ?replace, fun habsent => ⟨fun f t ht hfree hlow => ?new, fun hfull => ?full⟩⟩
  case replace =>
    rw [exec_lpmInsert_replace hlegal (findKey_of_first ht hholds hlow), slotAt_of_getElem? ht]
    rfl
  case new =>
    exact exec_lpmInsert_new hlegal (findKey_of_absent habsent) (freeSlot_eq_some.mpr ⟨t, ht, hfree, hlow⟩)
  case full => exact exec_lpmInsert_full hlegal (findKey_of_absent habsent) (freeSlot_eq_none.mpr hfull)

/-- Settles O48: the scan answers the longest match with the lowest number, or that no slot matches. -/
theorem lookupAnswersTheLongestMatch : Obligations.LookupAnswersTheLongestMatch := by
  unfold Obligations.LookupAnswersTheLongestMatch
  intro s
  refine ⟨fun k t ht hmatch hbest => ?longest, fun habsent => ?missed, fun hpresent => ?ok⟩
  case longest => exact exec_lpmLookup_found (longestMatch_of_longest ht hmatch hbest)
  case missed => exact exec_lpmLookup_missed (longestMatch_of_absent habsent)
  case ok =>
    obtain ⟨k, t, hfound⟩ := longestMatch_of_present hpresent
    exact ⟨_, exec_lpmLookup_found hfound, rfl⟩

/-- Settles O49: the key search answers the first slot with the key, and I1 leaves none with an illegal key. -/
theorem findAnswersTheExactKey : Obligations.FindAnswersTheExactKey := by
  unfold Obligations.FindAnswersTheExactKey
  intro s
  refine ⟨fun k t ht hholds hlow => ?found, fun habsent => ?missed, fun hinv hillegal => ?illegal⟩
  case found => exact exec_lpmFind_found (findKey_of_first ht hholds hlow) ht
  case missed => exact exec_lpmFind_missed (findKey_of_absent habsent)
  case illegal => exact exec_lpmFind_missed (findKey_of_absent (not_slotHolds_of_illegal_key hinv hillegal))

/-- Settles O50: the packed word as a number, and I3 for an invalid slot. -/
theorem readAnswersTheSlot : Obligations.ReadAnswersTheSlot := by
  unfold Obligations.ReadAnswersTheSlot
  intro s
  refine ⟨fun t hbound ht => ⟨t.packed, exec_lpmRead_slot hbound ht, packed_toNat t, fun hinv hinvalid => ?_⟩,
    exec_lpmRead_badArg⟩
  obtain rfl : t = Slot.free := hinv.table_free t (List.mem_of_getElem? ht) hinvalid
  exact ⟨rfl, rfl, by decide⟩

/-- Settles O51: the cleared table is a row of free slots, as many as T had, and a free slot matches no address. -/
theorem clearEmptiesTheTable : Obligations.ClearEmptiesTheTable := by
  unfold Obligations.ClearEmptiesTheTable
  intro s
  refine ⟨_, exec_lpmClear s, rfl, by simp, fun u hu => List.eq_of_mem_replicate hu, fun hinv r hr => ?reset,
    fun a => exec_lpmLookup_missed (longestMatch_of_absent ?missed)⟩
  case reset =>
    rw [resetMoves_eq] at hr
    cases hr
    simp [hinv.table_len]
  case missed =>
    rintro u hu ⟨hvalid, _⟩
    obtain rfl : u = Slot.free := List.eq_of_mem_replicate hu
    simp [Slot.free] at hvalid

end Sys2Proof.Machine
end

section
/-! PROOF. The order of FORWARD's checks (43_forward.md R211): what FORWARD answers by the checksum and the TTL of a
header it has read, and what CSUM_VERIFY's verdict says about that checksum (40_checksum.md R128). -/

namespace Sys2Proof.Machine

/-! ### The verdict of CSUM_VERIFY on a header (R128) -/

theorem boolWord_eq_one_iff (b : Bool) : boolWord b = 1#32 ↔ b = true := by cases b <;> decide

theorem boolWord_eq_zero_iff (b : Bool) : boolWord b = 0#32 ↔ b = false := by cases b <;> decide

section
variable {s : State} {hdr : List Byte} (h : headerOperand s.pbuf = .bytes hdr)
include h

theorem exec_csumVerify_of_bytes :
    exec .csumVerify s = finish s .ok (boolWord (csum .zero hdr == savedCsum hdr)) ((csum .zero hdr).setWidth 32)
      ((savedCsum hdr).setWidth 32) 0#32 := by
  simp only [exec, execCsumVerify, h]

theorem exec_csumVerify_verdict {v : State} (hv : exec .csumVerify s = .next v) :
    v.code = .ok ∧ (v.res0 = 0#32 ↔ csum .zero hdr ≠ savedCsum hdr)
      ∧ (v.res0 = 1#32 ↔ csum .zero hdr = savedCsum hdr) := by
  rw [exec_csumVerify_of_bytes h, finish_eq] at hv
  cases hv
  rw [State.complete_res0, boolWord_eq_zero_iff, boolWord_eq_one_iff, beq_eq_false_iff_ne, beq_iff_eq]
  exact ⟨rfl, Iff.rfl, Iff.rfl⟩

/-! ### The refusals of FORWARD on a header (R211) -/

theorem exec_forward_badCsum (hcsum : csum .zero hdr ≠ savedCsum hdr) :
    exec .forward s = finish s .badCsum 0#32 0#32 0#32 0#32 := by
  simp only [exec, execForward, h, if_pos hcsum, finishError]

theorem exec_forward_ttlExpired (hcsum : csum .zero hdr = savedCsum hdr) (httl : byteNum s.pbuf 8 = 0) :
    exec .forward s = finish s .ttlExpired 0#32 0#32 0#32 0#32 := by
  obtain ⟨hihl, hread⟩ := headerOperand_eq_bytes.mp h
  have hbyte : byteAt hdr 8 = 0#8 := (byteAt_eq_iff hread (by omega) 0 (by decide)).mpr httl
  simp only [exec, execForward, h, if_neg (not_not.mpr hcsum), if_pos hbyte, finishError]

end

/-- Settles O54: both commands read the same header operand. Without a header they fault or are refused alike; with one,
the verdict is the test FORWARD makes before it looks at the TTL. -/
theorem forwardRefusesInOrder : Obligations.ForwardRefusesInOrder := by
  unfold Obligations.ForwardRefusesInOrder
  intro s v hv
  obtain hunwritten | hbadIhl | ⟨hdr, hbytes, _⟩ := headerOperand_cases s.pbuf
  · rw [exec_of_headerOperand_unwritten (.inr (.inl rfl)) hunwritten] at hv
    cases hv
  · have hrefused := exec_of_headerOperand_badIhl (.inr (.inr rfl)) hbadIhl
    rw [exec_of_headerOperand_badIhl (.inr (.inl rfl)) hbadIhl, finishError_eq] at hv
    cases hv
    exact ⟨fun _ => hrefused, by simp, by simp, .inl rfl⟩
  · obtain ⟨hok, hzero, hone⟩ := exec_csumVerify_verdict hbytes hv
    refine ⟨by simp [hok], fun _ hinvalid => ?badCsum, fun _ hvalid httl => ?ttlExpired, .inr ⟨hok, ?verdict⟩⟩
    case badCsum => exact exec_forward_badCsum hbytes (hzero.mp hinvalid)
    case ttlExpired => exact exec_forward_ttlExpired hbytes (hone.mp hvalid) httl
    case verdict =>
      rw [hzero, hone]
      exact ne_or_eq _ _

end Sys2Proof.Machine
end

section
/-! PROOF. The commands that only complete (44_control.md R232, R234): which words make ILLEGAL pending, and what STATUS
reads after a completion. -/

namespace Sys2Proof.Machine

/-! ### The words that make ILLEGAL pending (R81) -/

theorem pendingOf_eq_illegal_iff (w : Word) : pendingOf w = .illegal ↔ ∀ i : Instr, w ≠ encode i := by
  simp only [ne_eq, ← decode_eq_ok_iff]
  cases h : decode w with
  | ok i => simp [pendingOf, h]
  | error e => simp [pendingOf, h]

/-! ### NOP (R232) -/

theorem exec_nop (s : State) : exec .nop s = .next (s.complete .ok 0#32 0#32 0#32 0#32) := rfl

/-! ### STATUS after a completion (R24, R233) -/

section
variable (s : State) (c : Code) (r0 r1 r2 r3 : Word)

/-- After a completion DONE is 1 and BUSY is 0, CODE is the completion's and OVERRUN the one before it. -/
theorem statusWord_complete :
    (s.complete c r0 r1 r2 r3).statusWord = 0#16 ++ c.num ++ 0#5 ++ flagBit s.overrun ++ 1#1 ++ 0#1 := rfl

theorem hostReads_status_complete :
    hostReads (s.complete c r0 r1 r2 r3) 0x00C
      = .next { s.complete c r0 r1 r2 r3 with
                hbRdata := 0#16 ++ c.num ++ 0#5 ++ flagBit s.overrun ++ 1#1 ++ 0#1 } := by
  rw [← statusWord_complete s c r0 r1 r2 r3]
  exact hostReads_register .status rfl (by decide) (.inr rfl) rfl

end

/-! ### The statements -/

/-- Settles O6: the words no command has are those that make ILLEGAL pending, and STATUS after its completion is read from
the completed state. -/
theorem illegalCompletesWithCodeIllegal : Obligations.IllegalCompletesWithCodeIllegal := by
  unfold Obligations.IllegalCompletesWithCodeIllegal
  refine ⟨fun s => engineMoves_illegal, fun w => (pendingOf_eq_illegal_iff w).mpr, ⟨rfl, rfl, rfl⟩,
    fun s t hpend hoverrun ht => ?status⟩
  case status =>
    rw [engineMoves_illegal hpend] at ht
    cases ht
    rw [hostReads_status_complete, hoverrun]
    rfl

/-- Settles O7: NOP is one completion; the read of STATUS after it is split on the OVERRUN it kept. -/
theorem nopOnlyCompletes : Obligations.NopOnlyCompletes := by
  unfold Obligations.NopOnlyCompletes
  refine fun s => ⟨exec_nop s, fun t ht => ?status⟩
  case status =>
    rw [exec_nop] at ht
    cases ht
    rw [hostReads_status_complete]
    cases s.overrun with
    | false => rfl
    | true => rfl

end Sys2Proof.Machine
end

section
/-! PROOF. OVERRUN (60_exceptions.md R255, 10_state.md R24): no command reads or writes it, and which step clears it. -/

namespace Sys2Proof.Machine

/-! ### OVERRUN and the outcome of a command (R255) -/

/-- The same state with another OVERRUN. -/
def State.withOverrun (s : State) (b : Bool) : State := { s with overrun := b }

/-- An outcome with its next state changed; a fault or a refusal stays. -/
def mapNext (f : State → State) (r : Result) : Result :=
  match r with
  | .next t => .next (f t)
  | .fault e => .fault e
  | .refused e => .refused e

/-- A command commutes with a change of OVERRUN: no test it makes and no word it writes depends on OVERRUN. -/
theorem exec_withOverrun (i : Instr) (s : State) (b : Bool) :
    exec i (s.withOverrun b) = mapNext (·.withOverrun b) (exec i s) := by
  cases i with
  | nop => rfl
  | csumCompute =>
    simp only [exec, execCsumCompute, State.withOverrun]
    split <;> rfl
  | csumVerify =>
    simp only [exec, execCsumVerify, State.withOverrun]
    split <;> rfl
  | disassemble =>
    simp only [exec, execDisassemble, State.withOverrun, apply_ite (mapNext _)]
    congr 2
    split
    · rfl
    · split <;> rfl
  | assemble =>
    simp only [exec, execAssemble, apply_ite (mapNext _)]
    rfl
  | lpmInsert =>
    simp only [exec, execLpmInsert, State.withOverrun, apply_ite (mapNext _)]
    congr 1
    split
    · rfl
    · split <;> rfl
  | lpmDelete =>
    simp only [exec, execLpmDelete, State.withOverrun]
    split <;> rfl
  | lpmLookup =>
    simp only [exec, execLpmLookup, State.withOverrun]
    split <;> rfl
  | lpmFind =>
    simp only [exec, execLpmFind, State.withOverrun]
    split <;> rfl
  | lpmRead =>
    simp only [exec, execLpmRead, apply_ite (mapNext _)]
    rfl
  | lpmClear => rfl
  | forward =>
    simp only [exec, execForward, State.withOverrun]
    split
    · rfl
    · rfl
    · simp only [apply_ite (mapNext _)]
      rfl

theorem exec_withOverrun_next {i : Instr} {s t : State} (h : exec i s = .next t) (b : Bool) :
    exec i (s.withOverrun b) = .next (t.withOverrun b) := by
  rw [exec_withOverrun, h, mapNext]

theorem exec_withOverrun_fault {i : Instr} {s : State} {f : Fault} (h : exec i s = .fault f) (b : Bool) :
    exec i (s.withOverrun b) = .fault f := by
  rw [exec_withOverrun, h, mapNext]

/-- A command keeps OVERRUN: started with the OVERRUN its state has, it ends with that OVERRUN. -/
theorem exec_overrun {i : Instr} {s t : State} (h : exec i s = .next t) : t.overrun = s.overrun := by
  have hsame : exec i s = .next (t.withOverrun s.overrun) := exec_withOverrun_next h s.overrun
  have ht : t = t.withOverrun s.overrun := Host.Outcome.next.inj (h.symm.trans hsame)
  rw [ht]
  rfl

theorem engineStep_overrun {s t : State} (h : engineStep s = .next t) : t.overrun = s.overrun := by
  obtain ⟨_, rfl⟩ | ⟨_, rfl⟩ | ⟨i, _, hexec⟩ := engineStep_next h
  · rfl
  · rfl
  · exact exec_overrun hexec

/-! ### What clears OVERRUN (R24) -/

/-- The register map finds a register at its own offset only (R20). -/
theorem offset_of_regAt {p : Params} {off : Nat} {r : Reg} (h : regAt p off = some r) : r.offset = off := by
  unfold regAt at h
  split at h
  case isTrue => cases h
  case isFalse =>
    split at h
    case isTrue =>
      have hcontrol := List.find?_some h
      exact beq_iff_eq.mp hcontrol
    case isFalse hmsgFrom =>
      split at h
      case isTrue hmsgBelow =>
        obtain ⟨f, hfind, rfl⟩ := Option.map_eq_some_iff.mp h
        have hfield := List.find?_some hfind
        rw [beq_iff_eq] at hfield
        simp only [regOffset_msg, hfield]
        omega
      case isFalse =>
        split at h
        case isTrue hwindow =>
          cases h
          simp only [Reg.offset]
          omega
        case isFalse => cases h

theorem writeReg_status_of_clear (s : State) {w : Word} (h : ¬ w.getLsbD 2 = true) : writeReg s .status w = s :=
  if_neg h

theorem writeReg_overrun_other (s : State) {r : Reg} (hr : r ≠ .status) (w : Word) :
    (writeReg s r w).overrun = s.overrun := by
  cases r with
  | status => contradiction
  | msgCount => simp only [writeReg]; split <;> rfl
  | _ => rfl

theorem writeReg_clears_overrun {s : State} {r : Reg} {w : Word} (hset : s.overrun = true)
    (hclear : (writeReg s r w).overrun = false) : r = .status ∧ w.getLsbD 2 = true := by
  by_cases hr : r = .status
  · subst hr
    by_cases hbit : w.getLsbD 2 = true
    · exact ⟨rfl, hbit⟩
    · rw [writeReg_status_of_clear s hbit, hset] at hclear
      contradiction
  · rw [writeReg_overrun_other s hr, hset] at hclear
    contradiction

/-- Of the host's moves only a STATUS write while BUSY = 0 clears OVERRUN. -/
theorem hostStep_clears_overrun {s t : State} (h : hostStep s = .next t) (hset : s.overrun = true)
    (hclear : t.overrun = false) :
    s.busy = false ∧ ∃ a w ops, s.program = .wr a w :: ops ∧ BusAddr.offset a = 0x00C ∧ w.getLsbD 2 = true := by
  obtain ⟨_, _, rfl⟩ | ⟨_, _, rfl⟩ | ⟨_, _, rfl⟩ | ⟨a, w, ops, r, hidle, hprog, hreg, rfl⟩ := hostStep_next h
  · simp [hset] at hclear
  · simp [hset] at hclear
  · simp at hclear
  · obtain ⟨rfl, hbit⟩ := writeReg_clears_overrun (s := { s with program := ops }) hset hclear
    exact ⟨hidle, a, w, ops, hprog, (offset_of_regAt hreg).symm, hbit⟩

/-! ### The statement -/

/-- Settles O17: a write while BUSY = 1 is dropped before the register map is consulted, each kind of move is asked
whether it can clear OVERRUN, and every command commutes with a change of OVERRUN. -/
theorem overrunRecordsDroppedWrites : Obligations.OverrunRecordsDroppedWrites := by
  unfold Obligations.OverrunRecordsDroppedWrites
  refine ⟨fun s off w => writesWhileBusyAreDropped s off w, fun s t h hset hclear => ?cleared, fun i s b =>
    ⟨fun t ht => exec_withOverrun_next ht b, fun f hf => exec_withOverrun_fault hf b⟩⟩
  case cleared =>
    obtain ⟨ts, ⟨hreset, _⟩ | ⟨_, hengine⟩ | ⟨_, hhost⟩⟩ := step_next h
    · exact .inl ⟨ts, hreset⟩
    · have hkept : t.overrun = s.overrun := engineStep_overrun (s := { s with turns := ts }) hengine
      rw [hset, hclear] at hkept
      contradiction
    · exact .inr (hostStep_clears_overrun (s := { s with turns := ts }) hhost hset hclear)

end Sys2Proof.Machine
end

section
/-! PROOF. Everything a command can leave behind (44_control.md R231, R233), said once: one completion of a state in
which at most PBUF, MSG or T has been written; and the frames that follow (R231, 41_codec.md R150, 43_forward.md R210).
-/

namespace Sys2Proof.Machine

/-! ### What a command leaves behind (R233) -/

/-- The completions a command can end in: of the state it started from, or with OK of that state with the command's own
writes. -/
inductive Completes (s : State) : Instr → State → Prop
  /-- No write but the completion's own: every refusal, and every command that only answers. -/
  | only (i : Instr) (c : Code) (r0 r1 r2 r3 : Word) : Completes s i (s.complete c r0 r1 r2 r3)
  /-- DISASSEMBLE of an accepted packet (41_codec.md R144). -/
  | message (bs : List Byte) (cmd : Byte) (es : List MsgEntry) (r0 : Word)
      (hread : readBytes s.pbuf 0 s.arg.toNat = some bs) (hparse : parsePacket bs = .ok (cmd, es)) :
      Completes s .disassemble
        (State.complete { s with msgCmd := cmd, msgCount := BitVec.ofNat 5 es.length,
                                 msgE := storeEntries s.msgE 0 es } .ok r0 0#32 0#32 0#32)
  /-- ASSEMBLE of a payload that fits (R150, R151). -/
  | payload (r0 : Word) (hfits : s.arg.toNat + payloadSize s ≤ s.params.pbufBytes) :
      Completes s .assemble
        (State.complete { s with pbuf := writeBytes s.pbuf s.arg.toNat (payload s) } .ok r0 0#32 0#32 0#32)
  /-- LPM_INSERT of a key that slot `k` holds (42_lpm_table.md R175). -/
  | replaced (k : Nat) (r0 r1 : Word) (hlegal : RouteLegal s) (hkey : findKey s.table s.rtPrefix s.rtLen = some k) :
      Completes s .lpmInsert
        (State.complete { s with table := s.table.set k (s.replaceIn (slotAt s.table k)) } .ok r0 r1 0#32 0#32)
  /-- LPM_INSERT of a new key in the free slot `f` (R174). -/
  | inserted (f : Nat) (r0 : Word) (hlegal : RouteLegal s) (hkey : findKey s.table s.rtPrefix s.rtLen = none)
      (hfree : freeSlot s.table = some f) :
      Completes s .lpmInsert
        (State.complete { s with table := s.table.set f s.stagedSlot } .ok r0 0#32 0#32 0#32)
  /-- LPM_DELETE of the key slot `k` holds (R180). -/
  | deleted (k : Nat) (r0 : Word) (hkey : findKey s.table s.rtPrefix s.rtLen = some k) :
      Completes s .lpmDelete
        (State.complete { s with table := s.table.set k Slot.free } .ok r0 0#32 0#32 0#32)
  /-- LPM_CLEAR (R200). -/
  | cleared :
      Completes s .lpmClear
        (State.complete { s with table := List.replicate s.table.length Slot.free } .ok 0#32 0#32 0#32 0#32)
  /-- FORWARD of an accepted header: bytes 8, 10 and 11 (43_forward.md R210). -/
  | forwarded (hdr : List Byte) (ttl csum r0 r1 r2 : Word) (hhdr : headerOperand s.pbuf = .bytes hdr) :
      Completes s .forward
        (State.complete { s with pbuf := memWrite (memWrite s.pbuf 8 1 ttl) 10 2 csum } .ok r0 r1 r2 0#32)

theorem completes_of_exec {i : Instr} {s t : State} (h : exec i s = .next t) : Completes s i t := by
  cases i with
  | nop => cases h; exact .only ..
  | csumCompute => obtain rfl | ⟨_, _, rfl⟩ := execCsumCompute_next h <;> exact .only ..
  | csumVerify => obtain rfl | ⟨_, _, rfl⟩ := execCsumVerify_next h <;> exact .only ..
  | disassemble =>
    obtain ⟨_, rfl⟩ | ⟨_, _, rfl⟩ | ⟨bs, cmd, es, hread, hparse, rfl⟩ := execDisassemble_next h
    · exact .only ..
    · exact .only ..
    · exact .message bs cmd es _ hread hparse
  | assemble =>
    obtain ⟨_, rfl⟩ | ⟨hfits, rfl⟩ := execAssemble_next h
    · exact .only ..
    · exact .payload _ hfits
  | lpmInsert =>
    obtain ⟨_, rfl⟩ | ⟨_, _, _, rfl⟩ | ⟨k, hlegal, hkey, rfl⟩ | ⟨f, hlegal, hkey, hfree, rfl⟩ := execLpmInsert_next h
    · exact .only ..
    · exact .only ..
    · exact .replaced k _ _ ((legalRoute_iff s).mp hlegal) hkey
    · exact .inserted f _ ((legalRoute_iff s).mp hlegal) hkey hfree
  | lpmDelete =>
    obtain ⟨_, rfl⟩ | ⟨k, hkey, rfl⟩ := execLpmDelete_next h
    · exact .only ..
    · exact .deleted k _ hkey
  | lpmLookup => obtain ⟨_, _, _, _, _, rfl⟩ := execLpmLookup_next h; exact .only ..
  | lpmFind => obtain ⟨_, _, _, _, _, rfl⟩ := execLpmFind_next h; exact .only ..
  | lpmRead => obtain ⟨_, _, _, _, _, rfl⟩ := execLpmRead_next h; exact .only ..
  | lpmClear =>
    rw [exec_lpmClear] at h
    cases h
    exact .cleared
  | forward =>
    obtain ⟨_, _, rfl⟩ | ⟨hdr, hhdr, _, _, rfl⟩ := execForward_next h
    · exact .only ..
    · exact .forwarded hdr _ _ _ _ _ hhdr

/-- Settles O1: `finish` is the whole completion, and each way a command ends is one, of the state it started from
unless the code is OK. -/
theorem everyCommandEndsInOneCompletion : Obligations.EveryCommandEndsInOneCompletion := by
  unfold Obligations.EveryCommandEndsInOneCompletion
  refine ⟨fun _ _ _ _ _ _ => rfl, fun i s t h => ?_⟩
  cases completes_of_exec h with
  | only => exact ⟨s, _, _, _, _, _, rfl, fun _ => rfl, rfl⟩
  | message | payload | replaced | inserted | deleted | cleared | forwarded =>
    exact ⟨_, .ok, _, _, _, _, rfl, fun hcode => absurd rfl hcode, rfl⟩

/-! ### The frame of every command (R231) -/

theorem exec_busy_done {i : Instr} {s t : State} (h : exec i s = .next t) : t.busy = false ∧ t.done = true := by
  obtain ⟨_, _, _, _, _, _, hfinish, _⟩ := everyCommandEndsInOneCompletion.2 i s t h
  cases hfinish
  exact ⟨rfl, rfl⟩

/-- T is written by three commands only (42_lpm_table.md R172, R180, R200). -/
theorem exec_table {i : Instr} {s t : State} (h : exec i s = .next t) (hinsert : i ≠ .lpmInsert)
    (hdelete : i ≠ .lpmDelete) (hclear : i ≠ .lpmClear) : t.table = s.table := by
  cases completes_of_exec h with
  | only | message | payload | forwarded => rfl
  | replaced | inserted | deleted | cleared => contradiction

/-- PBUF is written by two commands only (R150, R210). -/
theorem exec_pbuf {i : Instr} {s t : State} (h : exec i s = .next t) (hassemble : i ≠ .assemble)
    (hforward : i ≠ .forward) : t.pbuf = s.pbuf := by
  cases completes_of_exec h with
  | only | message | replaced | inserted | deleted | cleared => rfl
  | payload | forwarded => contradiction

/-- Settles O8: every completion keeps the operands, OVERRUN, the parameters and the model's own fields as they are,
and MSG, T and PBUF have their own frames. -/
theorem commandsKeepWhatTheyDoNotName : Obligations.CommandsKeepWhatTheyDoNotName := by
  unfold Obligations.CommandsKeepWhatTheyDoNotName
  intro i s t h
  have hframe : (i ≠ .disassemble → SameMsg s t)
      ∧ (i ≠ .lpmInsert → i ≠ .lpmDelete → i ≠ .lpmClear → t.table = s.table)
      ∧ (i ≠ .assemble → i ≠ .forward → ∀ a, readByte t.pbuf a = readByte s.pbuf a) :=
    ⟨fun hi => exec_sameMsg hi h, exec_table h, fun ha hf a => by rw [exec_pbuf h ha hf]⟩
  cases completes_of_exec h with
  | only | message | payload | replaced | inserted | deleted | cleared | forwarded =>
    exact ⟨rfl, rfl, rfl, rfl, rfl, rfl, rfl, rfl, rfl, rfl, rfl, rfl, hframe⟩

theorem readByte_memWrite_outside (m : Memory) {a n i : Nat} (v : Word) (h : ¬ (a ≤ i ∧ i < a + n)) :
    readByte (memWrite m a n v) i = readByte m i := by
  rw [readByte_memWrite, if_neg h]

/-- Settles O9: the two commands' writes to PBUF are one run of payload bytes, and byte 8 with bytes 10 and 11. -/
theorem storingCommandsTouchOnlyTheirBytes : Obligations.StoringCommandsTouchOnlyTheirBytes := by
  unfold Obligations.StoringCommandsTouchOnlyTheirBytes
  refine ⟨fun s t hcount h a ha => ?assemble, fun s t h a h8 h10 h11 => ?forward⟩
  case assemble =>
    cases completes_of_exec h with
    | only => rfl
    | payload =>
      rw [State.complete_pbuf, readByte_writeBytes, payload_length s hcount]
      exact if_neg ha
  case forward =>
    cases completes_of_exec h with
    | only => rfl
    | forwarded hdr ttl csum =>
      rw [State.complete_pbuf, readByte_memWrite_outside _ _ (by omega), readByte_memWrite_outside _ _ (by omega)]

/-! ### Steps that change T (R40) -/

theorem exec_params {i : Instr} {s t : State} (h : exec i s = .next t) : t.params = s.params := by
  obtain ⟨_, _, _, _, _, _, _, hparams, _⟩ := commandsKeepWhatTheyDoNotName i s t h
  exact hparams

theorem writeReg_params (s : State) (r : Reg) (w : Word) : (writeReg s r w).params = s.params := by
  cases r with
  | status | msgCount => simp only [writeReg]; split <;> rfl
  | _ => rfl

theorem writeReg_table (s : State) (r : Reg) (w : Word) : (writeReg s r w).table = s.table := by
  cases r with
  | status | msgCount => simp only [writeReg]; split <;> rfl
  | _ => rfl

/-- No host transaction changes the parameters or T (00_scope.md R7, R40). -/
theorem hostStep_params_table {s t : State} (h : hostStep s = .next t) : t.params = s.params ∧ t.table = s.table := by
  obtain ⟨_, _, rfl⟩ | ⟨_, _, rfl⟩ | ⟨_, _, rfl⟩ | ⟨_, w, ops, r, _, _, _, rfl⟩ := hostStep_next h
  · exact ⟨rfl, rfl⟩
  · exact ⟨rfl, rfl⟩
  · exact ⟨rfl, rfl⟩
  · exact ⟨writeReg_params _ r w, writeReg_table _ r w⟩

theorem engineStep_params {s t : State} (h : engineStep s = .next t) : t.params = s.params := by
  obtain ⟨_, rfl⟩ | ⟨_, rfl⟩ | ⟨i, _, hexec⟩ := engineStep_next h
  · rfl
  · rfl
  · exact exec_params hexec

theorem engineStep_changes_table {s t : State} (h : engineStep s = .next t) (hne : t.table ≠ s.table) :
    s.pend = some (.command .lpmInsert) ∨ s.pend = some (.command .lpmDelete)
      ∨ s.pend = some (.command .lpmClear) := by
  obtain ⟨_, rfl⟩ | ⟨_, rfl⟩ | ⟨i, hpend, hexec⟩ := engineStep_next h
  · contradiction
  · contradiction
  · by_contra hother
    simp only [hpend, Option.some.injEq, Pending.command.injEq, not_or] at hother
    obtain ⟨hinsert, hdelete, hclear⟩ := hother
    exact hne (exec_table hexec hinsert hdelete hclear)

/-- Settles O52: a step is one move, and of the moves only reset and the engine's can change T. -/
theorem onlyTableCommandsChangeTheTable : Obligations.OnlyTableCommandsChangeTheTable := by
  unfold Obligations.OnlyTableCommandsChangeTheTable
  intro s t h
  obtain ⟨ts, ⟨hreset, rfl⟩ | ⟨hturn, hengine⟩ | ⟨_, hhost⟩⟩ := step_next h
  · exact ⟨rfl, fun _ => .inl ⟨ts, hreset⟩⟩
  · refine ⟨engineStep_params (s := { s with turns := ts }) hengine, fun hne =>
      .inr ⟨?turn, engineStep_changes_table (s := { s with turns := ts }) hengine hne⟩⟩
    obtain ⟨hempty, _, _⟩ | hnamed := hturn
    · exact .inl hempty
    · exact .inr ⟨ts, hnamed⟩
  · obtain ⟨hparams, htable⟩ := hostStep_params_table hhost
    exact ⟨hparams, fun hne => absurd htable hne⟩

end Sys2Proof.Machine
end

section
/-! PROOF. The invariants of the state (10_state.md R33, R36, R41): what every command, every register write and reset
keep of PBUF and T, and the state after reset (70_reset_and_hazards.md R280). -/

namespace Sys2Proof.Machine

/-! ### The slots of T after one slot is written (R41) -/

theorem Slot.differs_comm {t u : Slot} : t.differs u ↔ u.differs t := by
  constructor <;> exact fun h hfirst hsecond ⟨hpfx, hlen⟩ => h hsecond hfirst ⟨hpfx.symm, hlen.symm⟩

/-- I2 as a statement about slot numbers. -/
theorem pairwise_differs_iff {tbl : List Slot} :
    tbl.Pairwise Slot.differs
      ↔ ∀ (j k : Nat) (t u : Slot), j ≠ k → tbl[j]? = some t → tbl[k]? = some u → t.differs u := by
  rw [List.pairwise_iff_getElem]
  constructor
  · intro h j k t u hjk ht hu
    obtain ⟨hj, rfl⟩ := List.getElem?_eq_some_iff.mp ht
    obtain ⟨hk, rfl⟩ := List.getElem?_eq_some_iff.mp hu
    obtain hlt | hgt := Nat.lt_or_gt_of_ne hjk
    · exact h j k hj hk hlt
    · exact Slot.differs_comm.mp (h k j hk hj hgt)
  · intro h j k hj hk hjk
    exact h j k _ _ (by omega) (List.getElem?_eq_getElem hj) (List.getElem?_eq_getElem hk)

/-- Writing slot `k` keeps I2 when the new contents share no key with another slot. -/
theorem pairwise_differs_set {tbl : List Slot} {k : Nat} {x : Slot} (h : tbl.Pairwise Slot.differs)
    (hx : ∀ j u, j ≠ k → tbl[j]? = some u → x.differs u) : (tbl.set k x).Pairwise Slot.differs := by
  rw [pairwise_differs_iff] at h ⊢
  intro i j t u hij ht hu
  rw [List.getElem?_set] at ht hu
  split at ht
  case isTrue hki =>
    subst hki
    rw [if_neg hij] at hu
    split at ht
    · cases ht
      exact hx j u (Ne.symm hij) hu
    · cases ht
  case isFalse hki =>
    split at hu
    · next hkj =>
      split at hu
      · cases hu
        exact Slot.differs_comm.mp (hx i t (by omega) ht)
      · cases hu
    · exact h i j t u hij ht hu

/-- T meets R40 and R41 for `n` slots: the invariants of `State.Inv` that speak of T. -/
structure TableInv (n : Nat) (tbl : List Slot) : Prop where
  len : tbl.length = n
  legal : ∀ t ∈ tbl, t.valid = true → t.legal
  unique : tbl.Pairwise Slot.differs
  free : ∀ t ∈ tbl, t.valid = false → t = Slot.free

theorem TableInv.set {n k : Nat} {tbl : List Slot} {x : Slot} (h : TableInv n tbl) (hlegal : x.valid = true → x.legal)
    (hfree : x.valid = false → x = Slot.free) (hkey : ∀ j u, j ≠ k → tbl[j]? = some u → x.differs u) :
    TableInv n (tbl.set k x) where
  len := by rw [List.length_set, h.len]
  legal t ht := by
    obtain hold | rfl := List.mem_or_eq_of_mem_set ht
    · exact h.legal t hold
    · exact hlegal
  unique := pairwise_differs_set h.unique hkey
  free t ht := by
    obtain hold | rfl := List.mem_or_eq_of_mem_set ht
    · exact h.free t hold
    · exact hfree

/-- A row of free slots meets R41: no slot is valid, so there is nothing to check but I3. -/
theorem tableInv_replicate_free (n : Nat) : TableInv n (List.replicate n Slot.free) where
  len := List.length_replicate
  legal t ht hvalid := by
    rw [List.eq_of_mem_replicate ht] at hvalid
    cases hvalid
  unique := List.pairwise_replicate.mpr (.inr fun hvalid => nomatch hvalid)
  free t ht _ := List.eq_of_mem_replicate ht

/-! ### The bytes of PBUF (R36) -/

/-- PBUF is in canonical form, with every listed byte below `n`: the invariants of `State.Inv` that speak of PBUF. -/
structure PbufInv (n : Nat) (m : Memory) : Prop where
  wf : Memory.wf m
  bound : ∀ c ∈ m, c.1 < n

theorem PbufInv.writeBytes {n a : Nat} {m : Memory} {bs : List Byte} (h : PbufInv n m) (hfits : a + bs.length ≤ n) :
    PbufInv n (writeBytes m a bs) where
  wf := writeBytes_wf h.wf a bs
  bound c hc := by
    obtain hin | hold := mem_writeBytes hc
    · omega
    · exact h.bound c hold

theorem PbufInv.memWrite {n a k : Nat} {m : Memory} (h : PbufInv n m) (v : Word) (hfits : a + k ≤ n) :
    PbufInv n (memWrite m a k v) :=
  h.writeBytes (by rwa [beBytes_length])

/-! ### `State.Inv` by its parts -/

theorem State.inv_iff {s : State} :
    s.Inv ↔ s.params.wf = true ∧ s.msgCount.toNat ≤ 25 ∧ PbufInv s.params.pbufBytes s.pbuf
      ∧ TableInv s.params.lpmEntries s.table :=
  ⟨fun h => ⟨h.params_wf, h.count_le, ⟨h.pbuf_wf, h.pbuf_bound⟩,
      ⟨h.table_len, h.table_legal, h.table_unique, h.table_free⟩⟩,
    fun ⟨hwf, hcount, hpbuf, htable⟩ => ⟨hwf, hcount, hpbuf.wf, hpbuf.bound, htable.len, htable.legal, htable.unique,
      htable.free⟩⟩

/-! ### Commands keep the invariants -/

/-- A slot differs from one that does not hold its key. -/
theorem Slot.differs_of_not_holds {x u : Slot} (h : ¬ SlotHolds u x.pfx x.len) : x.differs u :=
  fun _ hvalid hkey => h ⟨hvalid, hkey.1.symm, hkey.2.symm⟩

theorem exec_keeps_tableInv {i : Instr} {s t : State} {n : Nat} (h : exec i s = .next t) (hs : TableInv n s.table) :
    TableInv n t.table := by
  cases completes_of_exec h with
  | only | message | payload | forwarded => exact hs
  | replaced k _ _ hlegal hkey =>
    obtain ⟨old, hold, hhas, _⟩ := findKey_eq_some.mp hkey
    obtain ⟨hvalid, hpfx, hlen⟩ := Slot.hasKey_iff.mp hhas
    rw [State.complete_table, slotAt_of_getElem? hold]
    refine hs.set (fun _ => ?legal) (fun hinvalid => ?free) fun j u hj hu => ?key
    case legal =>
      obtain ⟨hlen_le, hpfx_zero, _⟩ := hs.legal old (List.mem_of_getElem? hold) hvalid
      obtain ⟨_, _, hmetric⟩ := hlegal
      exact ⟨hlen_le, hpfx_zero, hmetric⟩
    case free => exact absurd (hvalid.symm.trans hinvalid) (by decide)
    case key => exact pairwise_differs_iff.mp hs.unique k j old u (Ne.symm hj) hold hu
  | inserted f _ hlegal hkey _ =>
    refine hs.set (fun _ => hlegal) (fun hinvalid => nomatch hinvalid) fun j u _ hu => ?key
    exact Slot.differs_of_not_holds
      (Slot.hasKey_eq_false_iff.mp (findKey_eq_none.mp hkey u (List.mem_of_getElem? hu)))
  | deleted k => exact hs.set (fun hvalid => nomatch hvalid) (fun _ => rfl) fun _ _ _ _ hvalid => nomatch hvalid
  | cleared =>
    rw [State.complete_table, hs.len]
    exact tableInv_replicate_free n

theorem exec_keeps_pbufInv {i : Instr} {s t : State} (h : exec i s = .next t) (hwf : s.params.wf = true)
    (hcount : s.msgCount.toNat ≤ 25) (hs : PbufInv s.params.pbufBytes s.pbuf) :
    PbufInv s.params.pbufBytes t.pbuf := by
  cases completes_of_exec h with
  | only | message | replaced | inserted | deleted | cleared => exact hs
  | payload _ hfits => exact hs.writeBytes (by rwa [payload_length s hcount])
  | forwarded =>
    have hsize := paramsWf_pbufBytes_ge hwf
    exact (hs.memWrite _ (by omega)).memWrite _ (by omega)

theorem exec_keeps_inv {i : Instr} {s t : State} (h : exec i s = .next t) (hs : s.Inv) : t.Inv := by
  obtain ⟨hwf, hcount, hpbuf, htable⟩ := State.inv_iff.mp hs
  rw [State.inv_iff, exec_params h]
  exact ⟨hwf, exec_count_le h hcount, exec_keeps_pbufInv h hwf hcount hpbuf, exec_keeps_tableInv h htable⟩

theorem engineStep_keeps_inv {s t : State} (h : engineStep s = .next t) (hs : s.Inv) : t.Inv := by
  have hparts := State.inv_iff.mp hs
  obtain ⟨_, rfl⟩ | ⟨_, rfl⟩ | ⟨i, _, hexec⟩ := engineStep_next h
  · exact hs
  · exact State.inv_iff.mpr hparts
  · exact exec_keeps_inv hexec hs

/-! ### The host's moves keep the invariants -/

/-- Of the registers only those of the window write PBUF, and they write one word of it (20_memory.md R61). -/
theorem writeReg_pbuf (s : State) (r : Reg) (w : Word) :
    (writeReg s r w).pbuf = s.pbuf ∨ ∃ k, r = .pbufWord k ∧ (writeReg s r w).pbuf = memWrite s.pbuf (4 * k) 4 w := by
  cases r with
  | status | msgCount => simp only [writeReg]; split <;> exact .inl rfl
  | pbufWord k => exact .inr ⟨k, rfl, rfl⟩
  | _ => exact .inl rfl

/-- A word of the window that the register map knows lies inside PBUF (R20, R61). -/
theorem pbufWord_of_regAt {p : Params} {off k : Nat} (h : regAt p off = some (.pbufWord k)) :
    4 * k < p.pbufBytes := by
  have hoff : 0x1000 + 4 * k = off := offset_of_regAt h
  unfold regAt at h
  rw [if_neg (by omega), if_neg (by omega), dif_neg (by omega)] at h
  split at h
  · omega
  · cases h

theorem pbufBytes_mod_four {p : Params} (h : p.wf = true) : p.pbufBytes % 4 = 0 := by
  simp only [Params.wf, Bool.and_eq_true, beq_iff_eq] at h
  obtain ⟨⟨⟨⟨hmod, _⟩, _⟩, _⟩, _⟩ := h
  exact hmod

theorem writeReg_keeps_inv {s : State} {off : Nat} {r : Reg} (hs : s.Inv) (hreg : regAt s.params off = some r)
    (w : Word) : (writeReg s r w).Inv := by
  obtain ⟨hwf, hcount, hpbuf, htable⟩ := State.inv_iff.mp hs
  rw [State.inv_iff, writeReg_params, writeReg_table]
  refine ⟨hwf, writeReg_count_le hcount r w, ?pbuf, htable⟩
  obtain hsame | ⟨k, rfl, hword⟩ := writeReg_pbuf s r w
  · rwa [hsame]
  · rw [hword]
    have hk := pbufWord_of_regAt hreg
    have hmod := pbufBytes_mod_four hwf
    exact hpbuf.memWrite w (by omega)

theorem hostStep_keeps_inv {s t : State} (h : hostStep s = .next t) (hs : s.Inv) : t.Inv := by
  have hparts := State.inv_iff.mp hs
  obtain ⟨_, _, rfl⟩ | ⟨_, _, rfl⟩ | ⟨_, _, rfl⟩ | ⟨_, w, ops, r, _, _, hreg, rfl⟩ := hostStep_next h
  · exact State.inv_iff.mpr hparts
  · exact State.inv_iff.mpr hparts
  · exact State.inv_iff.mpr hparts
  · exact writeReg_keeps_inv (s := { s with program := ops }) (State.inv_iff.mpr hparts) hreg w

/-! ### Reset and the statements -/

theorem resetPin_inv {s : State} (hwf : s.params.wf = true) : s.resetPin.Inv :=
  State.inv_iff.mpr ⟨hwf, Nat.zero_le 25, ⟨.nil, fun _ hc => nomatch hc⟩, tableInv_replicate_free _⟩

/-- Settles O57: each of the three kinds of move keeps the invariants. -/
theorem stepKeepsTheInvariants : Obligations.StepKeepsTheInvariants := by
  unfold Obligations.StepKeepsTheInvariants
  intro s t hs h
  have hparts := State.inv_iff.mp hs
  obtain ⟨ts, ⟨_, rfl⟩ | ⟨_, hengine⟩ | ⟨_, hhost⟩⟩ := step_next h
  · exact resetPin_inv hs.params_wf
  · exact engineStep_keeps_inv hengine (State.inv_iff.mpr hparts)
  · exact hostStep_keeps_inv hhost (State.inv_iff.mpr hparts)

/-- Settles O58: the state after reset is what the reset pin leaves of it. -/
theorem resetMeetsTheInvariants : Obligations.ResetMeetsTheInvariants := by
  unfold Obligations.ResetMeetsTheInvariants
  exact resetPin_inv (s := State.reset) (by decide)

/-- Settles O59: the fields after reset, T a row of free slots and PBUF with no byte listed. -/
theorem resetPinClearsEverything : Obligations.ResetPinClearsEverything := by
  unfold Obligations.ResetPinClearsEverything
  intro s
  have hstatus : s.resetPin.statusWord = 0#32 := show State.reset.statusWord = 0#32 by decide
  refine ⟨_, resetMoves_eq s, rfl, hstatus, rfl, rfl, rfl, rfl, rfl, rfl, rfl, rfl, rfl, rfl, rfl, rfl,
    Vector.get_replicate 25 MsgEntry.zero, List.length_replicate, fun u hu => List.eq_of_mem_replicate hu, fun i => rfl⟩

/-! ### The written-byte shadow (R37) -/

/-- Every byte written in `m` is written in `m'`. -/
def KeepsWritten (m m' : Memory) : Prop := ∀ i, (readByte m i).isSome = true → (readByte m' i).isSome = true

theorem keepsWritten_writeBytes (m : Memory) (a : Nat) (bs : List Byte) : KeepsWritten m (writeBytes m a bs) := by
  intro i hi
  rw [readByte_writeBytes]
  split
  · next hin => rw [List.getElem?_eq_getElem (by omega)]; rfl
  · exact hi

theorem keepsWritten_memWrite (m : Memory) (a n : Nat) (v : Word) : KeepsWritten m (memWrite m a n v) :=
  keepsWritten_writeBytes m a _

theorem exec_keepsWritten {i : Instr} {s t : State} (h : exec i s = .next t) : KeepsWritten s.pbuf t.pbuf := by
  cases completes_of_exec h with
  | only | message | replaced | inserted | deleted | cleared => exact fun _ => id
  | payload => exact keepsWritten_writeBytes _ _ _
  | forwarded => exact fun i hi => keepsWritten_memWrite _ _ _ _ i (keepsWritten_memWrite _ _ _ _ i hi)

theorem engineStep_keepsWritten {s t : State} (h : engineStep s = .next t) : KeepsWritten s.pbuf t.pbuf := by
  obtain ⟨_, rfl⟩ | ⟨_, rfl⟩ | ⟨i, _, hexec⟩ := engineStep_next h
  · exact fun _ => id
  · exact fun _ => id
  · exact exec_keepsWritten hexec

theorem hostStep_keepsWritten {s t : State} (h : hostStep s = .next t) : KeepsWritten s.pbuf t.pbuf := by
  obtain ⟨_, _, rfl⟩ | ⟨_, _, rfl⟩ | ⟨_, _, rfl⟩ | ⟨_, w, ops, r, _, _, _, rfl⟩ := hostStep_next h
  · exact fun _ => id
  · exact fun _ => id
  · exact fun _ => id
  · obtain hsame | ⟨k, _, hword⟩ := writeReg_pbuf { s with program := ops } r w
    · rw [hsame]; exact fun _ => id
    · rw [hword]; exact keepsWritten_memWrite _ _ _ _

/-- Settles O28: commands and host transactions only write bytes, and reset lists none. -/
theorem writtenBytesStayWritten : Obligations.WrittenBytesStayWritten := by
  unfold Obligations.WrittenBytesStayWritten
  refine ⟨fun s t h hnoreset i => ?step, fun s t i h => ?reset⟩
  case step =>
    obtain ⟨ts, ⟨hreset, _⟩ | ⟨_, hengine⟩ | ⟨_, hhost⟩⟩ := step_next h
    · exact absurd hreset (hnoreset ts)
    · exact engineStep_keepsWritten hengine i
    · exact hostStep_keepsWritten hhost i
  case reset =>
    rw [resetMoves_eq] at h
    cases h
    rfl

end Sys2Proof.Machine
end

section
/-! PROOF. The outcome of a command is fixed at acceptance (44_control.md R231, 20_memory.md R67, R68): what the host's
moves can change while BUSY = 1, and that no command depends on it. -/

namespace Sys2Proof.Machine

/-! ### What the host can change while BUSY = 1 (R67, R68) -/

/-- The same state with the four fields the host's moves can change while BUSY = 1: OVERRUN, hb_rdata, its own program
and the draw counter. -/
def State.withHost (s : State) (o : Bool) (v : Word) (ops : List HostOp) (d : Nat) : State :=
  { s with overrun := o, hbRdata := v, program := ops, draws := d }

/-- The host's fields of `u` in place of those of `s`. -/
def State.hostOf (s u : State) : State := s.withHost u.overrun u.hbRdata u.program u.draws

theorem hostStep_busy {s t : State} (h : hostStep s = .next t) (hbusy : s.busy = true) : t = s.hostOf t := by
  obtain ⟨_, _, rfl⟩ | ⟨_, _, rfl⟩ | ⟨_, _, rfl⟩ | ⟨_, _, _, _, hidle, _⟩ := hostStep_next h
  · rfl
  · rfl
  · rfl
  · simp [hbusy] at hidle

theorem hostMoves_succ_eq_some {k : Nat} {s u : State} (h : hostMoves (k + 1) s = some u) :
    ∃ t, hostStep s = .next t ∧ hostMoves k t = some u := by
  have hstep : step { s with turns := .host :: s.turns } = hostStep s := rfl
  rw [hostMoves, hstep] at h
  cases hmove : hostStep s with
  | next t => exact ⟨t, rfl, by simpa [hmove, nextOf] using h⟩
  | fault | refused => simp [hmove, nextOf] at h

/-- However many moves the host makes while a command is pending, only its own fields change. -/
theorem hostMoves_busy {k : Nat} {s u : State} (h : hostMoves k s = some u) (hbusy : s.busy = true) :
    u = s.hostOf u := by
  induction k generalizing s with
  | zero =>
    cases h
    rfl
  | succ k ih =>
    obtain ⟨t, hmove, hrest⟩ := hostMoves_succ_eq_some h
    have ht := hostStep_busy hmove hbusy
    have htbusy : t.busy = true := by rw [ht]; exact hbusy
    calc u = t.hostOf u := ih hrest htbusy
      _ = (s.hostOf t).hostOf u := congrArg (State.hostOf · u) ht
      _ = s.hostOf u := rfl

/-! ### The outcome of a command is fixed at acceptance (R231) -/

section
variable (o : Bool) (v : Word) (ops : List HostOp) (d : Nat)

/-- A command commutes with a change of the host's fields, as it does with one of OVERRUN alone (`exec_withOverrun`):
no test it makes and no word it writes depends on them. -/
theorem exec_withHost (i : Instr) (s : State) :
    exec i (s.withHost o v ops d) = mapNext (·.withHost o v ops d) (exec i s) := by
  cases i with
  | nop | lpmClear => rfl
  | csumCompute | csumVerify | lpmDelete | lpmLookup | lpmFind =>
    simp only [exec, execCsumCompute, execCsumVerify, execLpmDelete, execLpmLookup, execLpmFind, State.withHost]
    split <;> rfl
  | assemble | lpmRead =>
    simp only [exec, execAssemble, execLpmRead, apply_ite (mapNext _)]
    rfl
  | disassemble =>
    simp only [exec, execDisassemble, State.withHost, apply_ite (mapNext _)]
    congr 2
    split
    · rfl
    · split <;> rfl
  | lpmInsert =>
    simp only [exec, execLpmInsert, State.withHost, apply_ite (mapNext _)]
    congr 1
    split
    · rfl
    · split <;> rfl
  | forward =>
    simp only [exec, execForward, State.withHost]
    split
    · rfl
    · rfl
    · simp only [apply_ite (mapNext _)]
      rfl

theorem engineStep_withHost (s : State) :
    engineStep (s.withHost o v ops d) = mapNext (·.withHost o v ops d) (engineStep s) := by
  have hpend : (s.withHost o v ops d).pend = s.pend := rfl
  rw [engineStep_eq, engineStep_eq, hpend]
  split
  · rfl
  · rfl
  · exact exec_withHost o v ops d _ s

end

/-- Settles O10: the host's moves change its own fields only, and the engine's move commutes with a change of them. -/
theorem outcomeIsFixedAtAcceptance : Obligations.OutcomeIsFixedAtAcceptance := by
  unfold Obligations.OutcomeIsFixedAtAcceptance
  intro k s u hbusy h
  have hengine : engineMoves u = mapNext (State.hostOf · u) (engineMoves s) := by
    rw [engineMoves_eq, engineMoves_eq, hostMoves_busy h hbusy]
    exact engineStep_withHost u.overrun u.hbRdata u.program u.draws s
  rw [hengine]
  exact ⟨fun t ht => by rw [ht]; rfl, fun f hf => by rw [hf]; rfl⟩

end Sys2Proof.Machine
end

section
/-! PROOF. Reads of unwritten bytes (20_memory.md R66): a command faults exactly when its read set holds one, and while
BUSY = 0 a host read of a word of the window that holds one faults. -/

namespace Sys2Proof.Machine

/-! ### When a command faults (R66(b)) -/

/-- The header commands have their header, or are refused for its IHL, when their read set is written (R121). -/
theorem headerOperand_of_readSet {m : Memory} :
    (¬ Written m 0 (if ihlNum m < 5 then 1 else 4 * ihlNum m) → headerOperand m = .unwritten)
      ∧ (Written m 0 (if ihlNum m < 5 then 1 else 4 * ihlNum m) → headerOperand m ≠ .unwritten) := by
  by_cases hihl : ihlNum m < 5
  · have hone : Written m 0 1 ↔ (readByte m 0).isSome = true :=
      ⟨fun h => h 0 (by decide), fun h i hi => by simpa [Nat.lt_one_iff.mp hi] using h⟩
    rw [if_pos hihl, hone]
    cases hbyte : readByte m 0 with
    | none => exact ⟨fun _ => headerOperand_of_unwritten hbyte, fun h => nomatch h⟩
    | some b =>
      rw [ihlNum_of_readByte hbyte] at hihl
      rw [headerOperand_of_badIhl hbyte hihl]
      exact ⟨fun h => absurd rfl h, fun _ => nofun⟩
  · rw [if_neg hihl]
    refine ⟨headerOperand_of_not_written (by omega), fun hw => ?_⟩
    obtain ⟨hdr, hbytes, _⟩ := headerOperand_of_ready ⟨by omega, hw⟩
    rw [hbytes]
    exact nofun

theorem exec_next_of_headerOperand {i : Instr} {s : State} (hi : i = .csumCompute ∨ i = .csumVerify ∨ i = .forward)
    (h : headerOperand s.pbuf ≠ .unwritten) : ∃ t, exec i s = .next t := by
  cases hop : headerOperand s.pbuf with
  | unwritten => contradiction
  | badIhl => exact ⟨_, exec_of_headerOperand_badIhl hi hop⟩
  | bytes hdr =>
    obtain rfl | rfl | rfl := hi
    · exact ⟨_, by simp only [exec, execCsumCompute, hop]; rfl⟩
    · exact ⟨_, exec_csumVerify_of_bytes hop⟩
    · simp only [exec, execForward, hop]
      split
      · exact ⟨_, rfl⟩
      · split <;> exact ⟨_, rfl⟩

theorem exec_disassemble_range {s : State} (h : s.params.pbufBytes < s.arg.toNat) :
    exec .disassemble s = finish s .range 0#32 0#32 0#32 0#32 := if_pos h

/-- Below 20 bytes DISASSEMBLE rejects without a read (R140, R141). -/
theorem exec_disassemble_short {s : State} (hle : s.arg.toNat ≤ s.params.pbufBytes) (h : s.arg.toNat < 20) :
    exec .disassemble s = finishReject s .short 0 := by
  rw [exec, execDisassemble, if_neg (by omega), if_pos h]

theorem exec_disassemble_unwritten {s : State} (hle : s.arg.toNat ≤ s.params.pbufBytes) (hge : 20 ≤ s.arg.toNat)
    (h : ¬ Written s.pbuf 0 s.arg.toNat) : exec .disassemble s = .fault .unwrittenPbufRead := by
  have hread : readBytes s.pbuf 0 s.arg.toNat = none :=
    Option.eq_none_iff_forall_ne_some.mpr fun _ hbs => h (written_of_readBytes hbs)
  rw [exec, execDisassemble, if_neg (by omega), if_neg (by omega), hread]

theorem exec_disassemble_next {s : State} (h : Written s.pbuf 0 (readSetSize .disassemble s)) :
    ∃ t, exec .disassemble s = .next t := by
  obtain hrange | hle := Nat.lt_or_ge s.params.pbufBytes s.arg.toNat
  · exact ⟨_, exec_disassemble_range hrange⟩
  obtain hshort | hge := Nat.lt_or_ge s.arg.toNat 20
  · exact ⟨_, exec_disassemble_short hle hshort⟩
  rw [readSetSize, if_pos ⟨hge, hle⟩] at h
  obtain ⟨bs, hread⟩ := readBytes_of_written h
  rw [execDisassemble_read hle hge hread]
  split <;> exact ⟨_, rfl⟩

/-- A command whose read set holds an unwritten byte faults; every other has a next state (R66(b)). -/
theorem exec_of_readSet (i : Instr) (s : State) :
    (¬ Written s.pbuf 0 (readSetSize i s) → exec i s = .fault .unwrittenPbufRead)
      ∧ (Written s.pbuf 0 (readSetSize i s) → ∃ t, exec i s = .next t) := by
  have hempty {n : Nat} (hn : n = 0) : Written s.pbuf 0 n := fun k hk => by omega
  cases i with
  | csumCompute | csumVerify | forward =>
    obtain ⟨hunwritten, hwritten⟩ := headerOperand_of_readSet (m := s.pbuf)
    exact ⟨fun h => exec_of_headerOperand_unwritten (by simp) (hunwritten h),
      fun h => exec_next_of_headerOperand (by simp) (hwritten h)⟩
  | disassemble =>
    refine ⟨fun h => ?_, exec_disassemble_next⟩
    by_cases hsize : 20 ≤ s.arg.toNat ∧ s.arg.toNat ≤ s.params.pbufBytes
    · rw [readSetSize, if_pos hsize] at h
      exact exec_disassemble_unwritten hsize.2 hsize.1 h
    · exact absurd (hempty (if_neg hsize)) h
  | nop | lpmClear => exact ⟨fun h => absurd (hempty rfl) h, fun _ => ⟨_, rfl⟩⟩
  | assemble =>
    refine ⟨fun h => absurd (hempty rfl) h, fun _ => ?_⟩
    obtain hrange | hfits := Nat.lt_or_ge s.params.pbufBytes (s.arg.toNat + payloadSize s)
    · exact ⟨_, exec_assemble_range hrange⟩
    · exact ⟨_, exec_assemble_ok hfits⟩
  | lpmInsert =>
    refine ⟨fun h => absurd (hempty rfl) h, fun _ => ?_⟩
    obtain ⟨hillegal, hlegal⟩ := insertChecksLegality s
    by_cases hroute : RouteLegal s
    · obtain ⟨t, ht, _⟩ := hlegal hroute
      exact ⟨t, ht⟩
    · exact ⟨_, hillegal hroute⟩
  | lpmDelete | lpmLookup | lpmFind | lpmRead =>
    refine ⟨fun h => absurd (hempty rfl) h, fun _ => ?_⟩
    simp only [exec, execLpmDelete, execLpmLookup, execLpmFind, execLpmRead]
    split <;> exact ⟨_, rfl⟩

/-! ### A host read of a word with a gap (R66(a)) -/

theorem memRead_of_gap {m : Memory} {a n i : Nat} (hi : i < n) (h : readByte m (a + i) = none) :
    memRead m a n = none := by
  rw [memRead, readBytes_eq_none.mpr ⟨i, hi, h⟩, Option.map_none]

theorem busRead_of_gap {s : State} {off : Nat} {r : Reg} (hport : off < 2 ^ s.params.addrBits)
    (hreg : regAt s.params off = some r) (hidle : s.busy = false) (hval : readReg s r = none) :
    busRead s off = .fault .unwrittenPbufRead := by
  simp only [busRead, hreg, hval, hidle]
  rw [if_neg (by omega), if_neg (by simp)]

/-- Settles O23: a word of the window with a gap has no value, and a command's operand is missing exactly when its read
set has a gap. -/
theorem unwrittenBytesFault : Obligations.UnwrittenBytesFault := by
  unfold Obligations.UnwrittenBytesFault
  refine ⟨fun s k hwf hk hidle ⟨i, hi, hgap⟩ => ?host, exec_of_readSet⟩
  have hport := pbufWord_lt_two_pow_addrBits hk
  have hnone : readByte s.pbuf (4 * k + i) = none := Option.not_isSome_iff_eq_none.mp (by simpa [State.pw] using hgap)
  rw [hostReads_eq, busAddr_offset_of_port hwf (by omega) hport]
  exact busRead_of_gap hport (regAt_pbufWord hk) hidle (memRead_of_gap hi hnone)

end Sys2Proof.Machine
end

section
/-! PROOF. The life of a command (44_control.md R230, R231, R235): acceptance, the engine's move, progress with no
schedule, and STATUS as a read and `wait` see it (10_state.md R24, 30_encoding.md R111). -/

namespace Sys2Proof.Machine

/-! ### Progress with no schedule (R235) -/

theorem step_of_no_turns {s : State} (hturns : s.turns = []) :
    step s = if s.busy then engineStep s else hostStep s := by
  rw [step_eq, hturns]

theorem engineStep_command {s : State} {i : Instr} (h : s.pend = some (.command i)) : engineStep s = exec i s := by
  rw [engineStep_eq, h]

theorem engineStep_busy_done {s t : State} (h : engineStep s = .next t) (hbusy : s.busy = true) :
    t.busy = false ∧ t.done = true := by
  obtain ⟨hidle, _⟩ | ⟨_, rfl⟩ | ⟨i, _, hexec⟩ := engineStep_next h
  · simp [State.busy, hidle] at hbusy
  · exact ⟨rfl, rfl⟩
  · exact exec_busy_done hexec

/-- Settles O11: with no schedule the engine moves, ILLEGAL completes, and a command completes unless its read set has a
gap. -/
theorem pendingCommandCompletes : Obligations.PendingCommandCompletes := by
  unfold Obligations.PendingCommandCompletes
  intro s hturns hbusy
  rw [step_of_no_turns hturns, if_pos hbusy]
  have hcompletes (h : ∃ t, engineStep s = .next t) : ∃ t, engineStep s = .next t ∧ t.busy = false ∧ t.done = true := by
    obtain ⟨t, ht⟩ := h
    exact ⟨t, ht, engineStep_busy_done ht hbusy⟩
  cases hpend : s.pend with
  | none => simp [State.busy, hpend] at hbusy
  | some p =>
    cases p with
    | illegal => exact .inl (hcompletes ⟨_, by rw [engineStep_eq, hpend]⟩)
    | command i =>
      have hexec := engineStep_command hpend
      obtain ⟨hfault, hnext⟩ := exec_of_readSet i s
      by_cases hw : Written s.pbuf 0 (readSetSize i s)
      · exact .inl (hcompletes (hexec ▸ hnext hw))
      · exact .inr ⟨hexec.trans (hfault hw), i, rfl, hw⟩

/-! ### A step runs the decoded command (R231) -/

/-- Settles O2: acceptance stores what the word decodes to, and the engine runs what is pending. -/
theorem stepRunsDecodedCommand : Obligations.StepRunsDecodedCommand := by
  unfold Obligations.StepRunsDecodedCommand
  intro s w i hdecode
  refine ⟨fun hidle => ?accepted, fun t hpend =>
    ⟨engineStep_command hpend, fun ts hts => ?scheduled, fun hnone => ?free⟩⟩
  case accepted =>
    obtain ⟨hwrite, _, _⟩ := cmdWriteIsAcceptedOnlyWhenIdle s w
    obtain ⟨haccept, _⟩ := hwrite hidle
    exact haccept i hdecode
  case scheduled =>
    rw [step_engine_turn hts]
    exact engineStep_command (s := { t with turns := ts }) hpend
  case free =>
    have hbusy : t.busy = true := by rw [State.busy, hpend]; rfl
    rw [step_of_no_turns hnone, if_pos hbusy]
    exact engineStep_command hpend

/-! ### STATUS and `wait` (R24, R111) -/

/-- STATUS as a number: its fields in their places, the reserved bits 0. -/
theorem statusWord_toNat (s : State) :
    s.statusWord.toNat = s.code.num.toNat * 256 + s.overrun.toNat * 4 + s.done.toNat * 2 + s.busy.toNat := by
  simp only [State.statusWord, flagBit, toNat_append_eq_add, BitVec.toNat_ofNat, BitVec.toNat_ofBool]
  omega

theorem statusWord_bit_zero (s : State) : s.statusWord.getLsbD 0 = s.busy := by
  simp only [State.statusWord, flagBit, BitVec.getLsbD_append]
  cases s.busy <;> simp

theorem statusWord_code (s : State) : s.statusWord.extractLsb' 8 8 = s.code.num := by
  rw [← BitVec.toNat_inj, BitVec.extractLsb'_toNat, Nat.shiftRight_eq_div_pow, statusWord_toNat]
  have hcode := s.code.num.isLt
  have hoverrun := s.overrun.toNat_le
  have hdone := s.done.toNat_le
  have hbusy := s.busy.toNat_le
  omega

/-- Settles O16: STATUS is defined whatever BUSY is, and a write of it is split on the data bit that clears OVERRUN. -/
theorem statusRegisterFields : Obligations.StatusRegisterFields := by
  unfold Obligations.StatusRegisterFields
  refine fun s => ⟨⟨s.statusWord, hostReads_register .status rfl (by decide) (.inr rfl) rfl, statusWord_toNat s⟩,
    fun hidle w => ?write⟩
  have hwrite : hostWrites s 0x00C w = .next (writeReg s .status w) :=
    hostWrites_register .status rfl (by decide) hidle w
  rw [hwrite, writeReg]
  split <;> rfl

section
variable {s : State} {ops : List HostOp} (hprog : s.program = .wait :: ops)
include hprog

theorem hostStep_wait_busy (hbusy : s.busy = true) : hostStep s = .next { s with hbRdata := s.statusWord } := by
  have hmove := hostStep_eq s
  rw [hprog] at hmove
  exact hmove.trans (if_pos hbusy)

theorem hostStep_wait_idle (hidle : s.busy = false) :
    hostStep s = .next { s with hbRdata := s.statusWord, program := ops } := by
  have hmove := hostStep_eq s
  rw [hprog] at hmove
  exact hmove.trans (if_neg (by simp [hidle]))

end

theorem engineStep_host {s t : State} (h : engineStep s = .next t) : t.program = s.program ∧ t.turns = s.turns := by
  obtain ⟨_, rfl⟩ | ⟨_, rfl⟩ | ⟨i, _, hexec⟩ := engineStep_next h
  · exact ⟨rfl, rfl⟩
  · exact ⟨rfl, rfl⟩
  · obtain ⟨_, _, _, _, _, _, _, _, _, hprogram, hturns, _⟩ := commandsKeepWhatTheyDoNotName i s t hexec
    exact ⟨hprogram, hturns⟩

/-- Settles O12: `wait` stays while BUSY = 1; after the completion BUSY is 0, so the host's next move ends it. -/
theorem waitPollsUntilIdle : Obligations.WaitPollsUntilIdle := by
  unfold Obligations.WaitPollsUntilIdle
  intro s ops hprog
  refine ⟨fun hbusy => ⟨hostStep_wait_busy hprog hbusy, (statusWord_bit_zero s).trans hbusy⟩,
    fun hidle => ⟨hostStep_wait_idle hprog hidle, (statusWord_bit_zero s).trans hidle, statusWord_code s⟩,
    fun hbusy hturns t h => ?ends⟩
  rw [step_of_no_turns hturns, if_pos hbusy] at h
  obtain ⟨hidle, _⟩ := engineStep_busy_done h hbusy
  obtain ⟨hprogram, hno⟩ := engineStep_host h
  have hend : step t = .next { t with hbRdata := t.statusWord, program := ops } := by
    rw [step_of_no_turns (hno.trans hturns), if_neg (by simp [hidle])]
    exact hostStep_wait_idle (hprogram.trans hprog) hidle
  exact ⟨_, hend, rfl, statusWord_code t⟩

/-! ### A few command words (R82) -/

/-- Settles O5: the listed words, one by one. -/
theorem opcodeMapWords : Obligations.OpcodeMapWords := by
  unfold Obligations.OpcodeMapWords
  decide

end Sys2Proof.Machine
end

section
/-! PROOF. The register map (10_state.md R20) and the common access rules of the bus (10_state.md R46, 20_memory.md
R64, R65, R67). -/

namespace Sys2Proof.Machine

/-! ### The register map both ways (R20, R65) -/

/-- The registers the parameters admit are those below the window and the words inside it. -/
theorem targetReg_wf_iff (p : Params) (r : Reg) :
    (Target.reg r).wf p = true ↔ r.offset < 0x1000 ∨ ∃ k, r = .pbufWord k ∧ 4 * k < p.pbufBytes := by
  cases r with
  | pbufWord k =>
    have hwindow : ¬ (Reg.pbufWord k).offset < 0x1000 := by simp [Reg.offset]
    simp [Target.wf, hwindow]
  | msg i f =>
    obtain ⟨_, hlt⟩ := regOffset_msg_bounds i f
    exact iff_of_true rfl (.inl (by omega))
  | _ => exact iff_of_true rfl (.inl (by decide))

section
variable {p : Params} {r : Reg} (h : (Target.reg r).wf p = true)
include h

theorem regAt_offset_of_wf : regAt p r.offset = some r := by
  obtain hlow | ⟨k, rfl, hk⟩ := (targetReg_wf_iff p r).mp h
  · exact regAt_offset_of_low p hlow
  · exact regAt_pbufWord hk

theorem regOffset_lt_of_wf : r.offset < 2 ^ p.addrBits := by
  obtain hlow | ⟨k, rfl, hk⟩ := (targetReg_wf_iff p r).mp h
  · exact lt_two_pow_addrBits p hlow
  · exact pbufWord_lt_two_pow_addrBits hk

end

theorem targetReg_wf_of_regAt {p : Params} {off : Nat} {r : Reg} (h : regAt p off = some r) :
    (Target.reg r).wf p = true := by
  cases r with
  | pbufWord k => exact (targetReg_wf_iff p _).mpr (.inr ⟨k, rfl, pbufWord_of_regAt h⟩)
  | _ => rfl

/-- Settles O13: a register the parameters admit lies below the window or is a word inside it, and the map answers no
other. -/
theorem registerMapRoundTrip : Obligations.RegisterMapRoundTrip := by
  unfold Obligations.RegisterMapRoundTrip
  refine fun p hwf => ⟨fun r hr => ?found, fun off r hreg => ⟨targetReg_wf_of_regAt hreg, offset_of_regAt hreg⟩⟩
  have hport := regOffset_lt_of_wf hr
  have halign := regOffset_mod_four r
  exact ⟨regAt_offset_of_wf hr, halign, hport, busAddr_offset_of_port hwf halign hport⟩

/-! ### Transactions at an unmapped offset (R46(c), R65) -/

section
variable {s : State} {off : Nat} (hwf : s.params.wf = true) (h4 : off % 4 = 0) (hport : off < 2 ^ s.params.addrBits)
  (hnone : regAt s.params off = none)
include hwf h4 hport hnone

theorem hostReads_unmapped : hostReads s off = .next { s with hbRdata := 0#32 } := by
  rw [hostReads_eq, busAddr_offset_of_port hwf h4 hport]
  simp only [busRead, hnone, if_neg (Nat.not_le.mpr hport)]
  rfl

theorem hostWrites_unmapped (hidle : s.busy = false) (w : Word) : hostWrites s off w = .next s := by
  rw [hostWrites_eq, busAddr_offset_of_port hwf h4 hport]
  simp only [busWrite, hnone, hidle, if_neg (Nat.not_le.mpr hport)]
  rfl

end

/-! ### Reads while BUSY = 1 (R67) -/

theorem definedWhileBusy_eq_true {r : Reg} (h : definedWhileBusy r = true) :
    r = .id ∨ r = .params ∨ r = .cmd ∨ r = .status := by
  cases r with
  | id | params | cmd | status => simp
  | _ => cases h

theorem busRead_of_drawn {s : State} {off : Nat} {r : Reg} (hport : off < 2 ^ s.params.addrBits)
    (hreg : regAt s.params off = some r) (hbusy : s.busy = true) (hfree : definedWhileBusy r = false) :
    busRead s off = .next s.drawn := by
  simp only [busRead, hreg, hbusy, hfree, if_neg (Nat.not_le.mpr hport)]
  rfl

/-- Settles O24: the four registers that are defined while BUSY = 1 are read as ever; every other one draws. -/
theorem readsWhileBusy : Obligations.ReadsWhileBusy := by
  unfold Obligations.ReadsWhileBusy
  intro s hwf hbusy
  refine ⟨hostReads_register .id rfl (by decide) (.inr rfl) rfl,
    hostReads_register .params rfl (by decide) (.inr rfl) rfl, hostReads_register .cmd rfl (by decide) (.inr rfl) rfl,
    hostReads_register .status rfl (by decide) (.inr rfl) rfl,
    fun off h4 hport hnone => hostReads_unmapped hwf h4 hport hnone, fun r hr hid hparams hcmd hstatus => ?drawn⟩
  have hfree : definedWhileBusy r = false := by
    by_contra hdefined
    obtain rfl | rfl | rfl | rfl := definedWhileBusy_eq_true (by simpa using hdefined) <;> contradiction
  have hport := regOffset_lt_of_wf hr
  refine ⟨Config.busyRead s.draws, ?_⟩
  rw [hostReads_eq, busAddr_offset_of_port hwf (regOffset_mod_four r) hport]
  exact busRead_of_drawn hport (regAt_offset_of_wf hr) hbusy hfree

/-! ### Accesses while BUSY = 0 (R46, R64) -/

/-- Settles O26: one rule for a register below the window and one for an unmapped offset, at each offset named. -/
theorem commonAccessRules : Obligations.CommonAccessRules := by
  unfold Obligations.CommonAccessRules
  intro s hwf hidle
  refine ⟨fun w => ?readOnly, fun off h4 hport hnone => ⟨hostReads_unmapped hwf h4 hport hnone,
    hostWrites_unmapped hwf h4 hport hnone hidle⟩, ?results, fun w => ?arg⟩
  case readOnly =>
    exact ⟨hostWrites_register .id rfl (by decide) hidle w, hostWrites_register .params rfl (by decide) hidle w,
      hostWrites_register .res0 rfl (by decide) hidle w, hostWrites_register .res1 rfl (by decide) hidle w,
      hostWrites_register .res2 rfl (by decide) hidle w, hostWrites_register .res3 rfl (by decide) hidle w⟩
  case results =>
    exact ⟨hostReads_register .res0 rfl (by decide) (.inl hidle) rfl,
      hostReads_register .res1 rfl (by decide) (.inl hidle) rfl,
      hostReads_register .res2 rfl (by decide) (.inl hidle) rfl,
      hostReads_register .res3 rfl (by decide) (.inl hidle) rfl⟩
  case arg =>
    exact ⟨hostWrites_register .arg rfl (by decide) hidle w,
      hostReads_register (s := { s with arg := w }) .arg rfl (by decide) (.inl hidle) rfl⟩

theorem readReg_returns (s : State) (v : Word) (r : Reg) : readReg (s.returns v) r = readReg s r := by
  cases r <;> rfl

theorem State.returns_returns (s : State) (v w : Word) : (s.returns v).returns w = s.returns w := rfl

/-- While BUSY = 0 a read does not depend on what the last one returned, nor does its next state. -/
theorem busRead_returns {s : State} (hidle : s.busy = false) (v : Word) (off : Nat) :
    busRead (s.returns v) off = busRead s off := by
  simp only [busRead, State.returns_params, State.returns_busy, hidle, readReg_returns, State.returns_returns,
    Bool.false_and, Bool.false_eq_true, if_false]

/-- Settles O27: a read while BUSY = 0 only returns a value, and the next read of the offset is the same. -/
theorem readsHaveNoSideEffects : Obligations.ReadsHaveNoSideEffects := by
  unfold Obligations.ReadsHaveNoSideEffects
  intro s t off hidle h
  rw [hostReads_eq] at h ⊢
  obtain ⟨v, rfl⟩ | ⟨hbusy, _⟩ := busRead_next h
  · exact ⟨rfl, (busRead_returns hidle v _).trans h⟩
  · simp [hidle] at hbusy

end Sys2Proof.Machine
end

section
/-! PROOF. LPM_DELETE (42_lpm_table.md R180). -/

namespace Sys2Proof.Machine

theorem exec_lpmDelete_freed {s : State} {k : Nat} (h : findKey s.table s.rtPrefix s.rtLen = some k) :
    exec .lpmDelete s = finish { s with table := s.table.set k Slot.free } .ok (slotWord k) 0#32 0#32 0#32 := by
  simp [exec, execLpmDelete, h]

theorem exec_lpmDelete_missed {s : State} (h : findKey s.table s.rtPrefix s.rtLen = none) :
    exec .lpmDelete s = finish s .deleteMiss 0#32 0#32 0#32 0#32 := by
  simp [exec, execLpmDelete, h]

/-- Where keys are unique, freeing the slot with a key leaves no slot with it. -/
theorem not_slotHolds_set_free {tbl : List Slot} {p : Word} {l : BitVec 6} {k : Nat}
    (hunique : tbl.Pairwise Slot.differs) (hkey : findKey tbl p l = some k) :
    ∀ u ∈ tbl.set k Slot.free, ¬ SlotHolds u p l := by
  rintro u hu ⟨hvalid, rfl, rfl⟩
  obtain ⟨t, ht, hhas, _⟩ := findKey_eq_some.mp hkey
  obtain ⟨htvalid, hpfx, hlen⟩ := Slot.hasKey_iff.mp hhas
  obtain ⟨j, hj⟩ := List.mem_iff_getElem?.mp hu
  rw [List.getElem?_set] at hj
  split at hj
  · split at hj
    · cases hj
      cases hvalid
    · cases hj
  · next hkj => exact pairwise_differs_iff.mp hunique k j t u hkj ht hj htvalid hvalid ⟨hpfx, hlen⟩

/-- Settles O47: the key search answers the slot to free, and I1 leaves none with an illegal key. -/
theorem deleteFreesTheSlot : Obligations.DeleteFreesTheSlot := by
  unfold Obligations.DeleteFreesTheSlot
  intro s
  refine ⟨fun k t ht hholds hlow => exec_lpmDelete_freed (findKey_of_first ht hholds hlow),
    fun habsent => exec_lpmDelete_missed (findKey_of_absent habsent), fun hunique t h => ?gone, fun hinv hillegal =>
    exec_lpmDelete_missed (findKey_of_absent (not_slotHolds_of_illegal_key hinv hillegal))⟩
  obtain ⟨hmiss, rfl⟩ | ⟨k, hkey, rfl⟩ := execLpmDelete_next h
  · exact fun u hu => Slot.hasKey_eq_false_iff.mp (findKey_eq_none.mp hmiss u hu)
  · exact not_slotHolds_set_free hunique hkey

end Sys2Proof.Machine
end

section
/-! PROOF. The one's-complement checksum (40_checksum.md R122, R123): the fold as a residue, what CSUM_COMPUTE and
CSUM_VERIFY answer on a ready header, and how one changed word moves the sum of a header (R130). -/

namespace Sys2Proof.Machine

/-! ### The fold (R123) -/

/-- Each turn of the loop keeps the value modulo 0xFFFF, and keeps it from 0. -/
theorem fold16_residue (n : Nat) : (fold16 n = 0 ↔ n = 0) ∧ fold16 n % 65535 = n % 65535 := by
  induction n using Nat.strong_induction_on with
  | _ n ih =>
    by_cases hn : n ≤ 0xFFFF
    · rw [fold16_of_le hn]
      exact ⟨Iff.rfl, rfl⟩
    · rw [fold16_of_gt (by omega)]
      obtain ⟨hzero, hmod⟩ := ih (n % 0x10000 + n / 0x10000) (by omega)
      rw [hzero, hmod]
      omega

/-- Settles O30: the residue of the loop, and the bound at its end. -/
theorem carryFoldIsTheResidue : Obligations.CarryFoldIsTheResidue := by
  unfold Obligations.CarryFoldIsTheResidue
  intro n
  obtain ⟨hzero, hmod⟩ := fold16_residue n
  exact ⟨hzero, fold16_le n, hmod⟩

/-! ### The checksum as a number (R122) -/

theorem csum_toNat (z : CsumField) (hdr : List Byte) : (csum z hdr).toNat = 65535 - fold16 (rawSum z hdr) := by
  have hle := fold16_le (rawSum z hdr)
  rw [csum, hsum, BitVec.toNat_not, BitVec.toNat_ofNat, Nat.mod_eq_of_lt (by omega)]

/-- The checksum of a sum that is not 0 is the value below 0xFFFF that completes it to 0 modulo 0xFFFF. -/
theorem csum_completes {z : CsumField} {hdr : List Byte} (h : 0 < rawSum z hdr) :
    (csum z hdr).toNat < 65535 ∧ (rawSum z hdr + (csum z hdr).toNat) % 65535 = 0 := by
  obtain ⟨hzero, hmod⟩ := fold16_residue (rawSum z hdr)
  have hle := fold16_le (rawSum z hdr)
  have hpos : fold16 (rawSum z hdr) ≠ 0 := fun hz => by have := hzero.mp hz; omega
  rw [csum_toNat]
  omega

/-! ### The sum of a header's words (R122) -/

theorem wordSum_mono (m : Memory) {n k : Nat} (h : n ≤ k) : wordSum m n ≤ wordSum m k := by
  induction h with
  | refl => exact le_refl _
  | step _ ih => exact ih.trans (Nat.le_add_right _ _)

/-- Words 0 and 5 are words of every header. -/
theorem num16_add_le_headerSum {m : Memory} (h5 : 5 ≤ ihlNum m) : num16 m 0 + num16 m 10 ≤ headerSum m := by
  have hsix : wordSum m 6 ≤ headerSum m := wordSum_mono m (by omega)
  have hwords : num16 m 0 + num16 m 10 ≤ wordSum m 6 := by
    simp only [wordSum, Nat.reduceMul]
    omega
  exact hwords.trans hsix

/-- Byte 0 holds the IHL, so word 0 is not 0. -/
theorem num16_zero_pos {m : Memory} (h5 : 5 ≤ ihlNum m) : 0 < num16 m 0 := by
  rw [ihlNum] at h5
  rw [num16]
  omega

section
variable {m : Memory} {hdr : List Byte} (h : headerOperand m = .bytes hdr)
include h

/-- The checksum over the words as stored completes the header's sum. -/
theorem csum_keep_spec : (csum .keep hdr).toNat < 65535 ∧ (headerSum m + (csum .keep hdr).toNat) % 65535 = 0 := by
  obtain ⟨h5, hread⟩ := headerOperand_eq_bytes.mp h
  have hle := num16_add_le_headerSum h5
  have hpos := num16_zero_pos h5
  rw [← rawSum_keep hread] at hle ⊢
  exact csum_completes (by omega)

/-- The checksum with bytes 10–11 as 0 completes the sum of the other words. -/
theorem csum_zero_spec :
    (csum .zero hdr).toNat < 65535 ∧ (headerSum m - num16 m 10 + (csum .zero hdr).toNat) % 65535 = 0 := by
  obtain ⟨h5, hread⟩ := headerOperand_eq_bytes.mp h
  have hle := num16_add_le_headerSum h5
  have hpos := num16_zero_pos h5
  have hrest : rawSum .zero hdr = headerSum m - num16 m 10 := by
    have := rawSum_zero h5 hread
    omega
  rw [← hrest]
  exact csum_completes (by omega)

theorem csum_zero_eq_saved_iff_toNat : csum .zero hdr = savedCsum hdr ↔ (csum .zero hdr).toNat = num16 m 10 := by
  obtain ⟨h5, hread⟩ := headerOperand_eq_bytes.mp h
  rw [← savedCsum_toNat h5 hread, BitVec.toNat_inj]

/-- The comparison of CSUM_VERIFY and FORWARD in numbers (R128). -/
theorem csum_zero_eq_saved_iff :
    csum .zero hdr = savedCsum hdr ↔ num16 m 10 < 65535 ∧ headerSum m % 65535 = 0 := by
  obtain ⟨h5, _⟩ := headerOperand_eq_bytes.mp h
  obtain ⟨hlt, hsum⟩ := csum_zero_spec h
  have hle := num16_add_le_headerSum h5
  rw [csum_zero_eq_saved_iff_toNat h]
  omega

end

/-! ### What the two commands answer on a ready header (R125, R128) -/

theorem setWidth_eq_ofNat (x : Half) : x.setWidth 32 = BitVec.ofNat 32 x.toNat :=
  BitVec.eq_of_toNat_eq (by simp)

/-- Settles O31: the answer is the checksum over the words as stored. -/
theorem csumComputeResult : Obligations.CsumComputeResult := by
  unfold Obligations.CsumComputeResult
  intro s hready
  obtain ⟨hdr, hbytes, _⟩ := headerOperand_of_ready hready
  obtain ⟨hlt, hsum⟩ := csum_keep_spec hbytes
  refine ⟨(csum .keep hdr).toNat, hlt, hsum, ?_⟩
  rw [← setWidth_eq_ofNat]
  simp only [exec, execCsumCompute, hbytes]

theorem boolWord_eq_ite {b : Bool} {p : Prop} [Decidable p] (h : b = true ↔ p) :
    boolWord b = if p then 1#32 else 0#32 := if_congr h rfl rfl

/-- Settles O32: the answers are the checksum with bytes 10–11 as 0, the stored field, and whether the two are equal. -/
theorem csumVerifyResult : Obligations.CsumVerifyResult := by
  unfold Obligations.CsumVerifyResult
  intro s hready
  obtain ⟨hdr, hbytes, hread⟩ := headerOperand_of_ready hready
  obtain ⟨hlt, hsum⟩ := csum_zero_spec hbytes
  refine ⟨(csum .zero hdr).toNat, hlt, hsum, ?_⟩
  have hequal : (csum .zero hdr == savedCsum hdr) = true ↔ (csum .zero hdr).toNat = num16 s.pbuf 10 :=
    beq_iff_eq.trans (csum_zero_eq_saved_iff_toNat hbytes)
  rw [exec_csumVerify_of_bytes hbytes, boolWord_eq_ite hequal, setWidth_eq_ofNat, setWidth_eq_ofNat,
    savedCsum_toNat hready.1 hread]

/-! ### A header with one word changed -/

theorem byteNum_congr {m m' : Memory} {a : Nat} (h : readByte m' a = readByte m a) : byteNum m' a = byteNum m a := by
  rw [byteNum, byteNum, h]

theorem ihlNum_congr {m m' : Memory} (h : readByte m' 0 = readByte m 0) : ihlNum m' = ihlNum m := by
  rw [ihlNum, ihlNum, byteNum_congr h]

theorem num16_congr {m m' : Memory} {a : Nat} (hhigh : readByte m' a = readByte m a)
    (hlow : readByte m' (a + 1) = readByte m (a + 1)) : num16 m' a = num16 m a := by
  rw [num16, num16, byteNum_congr hhigh, byteNum_congr hlow]

theorem wordSum_congr {m m' : Memory} {n : Nat} (h : ∀ j, j < n → num16 m' (2 * j) = num16 m (2 * j)) :
    wordSum m' n = wordSum m n := by
  induction n with
  | zero => rfl
  | succ n ih => rw [wordSum, wordSum, ih fun j hj => h j (by omega), h n (Nat.lt_succ_self n)]

theorem wordSum_change {m m' : Memory} {n k : Nat} (hk : k < n)
    (hother : ∀ j, j ≠ k → num16 m' (2 * j) = num16 m (2 * j)) :
    wordSum m' n + num16 m (2 * k) = wordSum m n + num16 m' (2 * k) := by
  induction n with
  | zero => omega
  | succ n ih =>
    rw [wordSum, wordSum]
    obtain rfl | hlt := Nat.eq_or_lt_of_le (Nat.le_of_lt_succ hk)
    · rw [wordSum_congr fun j hj => hother j (by omega)]
      omega
    · have hrest := ih hlt
      have hlast := hother n (by omega)
      omega

/-- A header with one byte changed, its IHL kept: the sum moves by the change of the byte's word. -/
theorem headerSum_writeByte {m : Memory} {a : Nat} {v : Byte} (ha : a < 4 * ihlNum m)
    (hihl : ihlNum (writeByte m a v) = ihlNum m) :
    headerSum (writeByte m a v) + num16 m (2 * (a / 2)) = headerSum m + num16 (writeByte m a v) (2 * (a / 2)) := by
  rw [headerSum, headerSum, hihl]
  refine wordSum_change (by omega) fun j hj => ?_
  exact num16_congr (readByte_writeByte_other m a _ v (by omega)) (readByte_writeByte_other m a _ v (by omega))

theorem num16_memWrite (m : Memory) (a : Nat) (v : Word) : num16 (memWrite m a 2 v) a = v.toNat % 65536 :=
  num16_of_readBytes (readBytes_writeBytes_self m a (beBytes 2 v))

theorem ihlNum_memWrite_csum (m : Memory) (v : Word) : ihlNum (memWrite m 10 2 v) = ihlNum m :=
  ihlNum_congr (readByte_memWrite_outside m v (by omega))

/-- A header with another checksum field. -/
theorem headerSum_memWrite_csum {m : Memory} (h5 : 5 ≤ ihlNum m) (v : Word) :
    headerSum (memWrite m 10 2 v) + num16 m 10 = headerSum m + v.toNat % 65536 := by
  rw [headerSum, headerSum, ihlNum_memWrite_csum, ← num16_memWrite m 10 v]
  refine wordSum_change (k := 5) (by omega) fun j hj => ?_
  exact num16_congr (readByte_memWrite_outside m v (by omega)) (readByte_memWrite_outside m v (by omega))

theorem headerReady_of_keepsWritten {m m' : Memory} (h : HeaderReady m) (hihl : ihlNum m' = ihlNum m)
    (hkeeps : KeepsWritten m m') : HeaderReady m' := by
  obtain ⟨h5, hwritten⟩ := h
  rw [HeaderReady, hihl]
  exact ⟨h5, fun i hi => hkeeps _ (hwritten i hi)⟩

theorem headerReady_memWrite_csum {m : Memory} (h : HeaderReady m) (v : Word) : HeaderReady (memWrite m 10 2 v) :=
  headerReady_of_keepsWritten h (ihlNum_memWrite_csum m v) (keepsWritten_memWrite m 10 2 v)

/-! ### A computed checksum verifies, a corrupted byte does not (R130) -/

/-- CSUM_VERIFY on a header that verifies. -/
theorem exec_csumVerify_of_valid {s : State} (h : HeaderValid s.pbuf) :
    exec .csumVerify s = finish s .ok 1#32 (BitVec.ofNat 32 (num16 s.pbuf 10)) (BitVec.ofNat 32 (num16 s.pbuf 10))
      0#32 := by
  obtain ⟨hready, hlt, hsum⟩ := h
  obtain ⟨c, hc, hcsum, hexec⟩ := csumVerifyResult s hready
  have hle := num16_add_le_headerSum hready.1
  obtain rfl : c = num16 s.pbuf 10 := by omega
  rw [hexec, if_pos rfl]

/-- CSUM_VERIFY on a ready header whose words do not sum to 0 modulo 0xFFFF. -/
theorem exec_csumVerify_of_invalid {s : State} (hready : HeaderReady s.pbuf) (hsum : headerSum s.pbuf % 65535 ≠ 0) :
    ∃ t, exec .csumVerify s = .next t ∧ t.code = .ok ∧ t.res0 = 0#32 := by
  obtain ⟨c, hc, hcsum, hexec⟩ := csumVerifyResult s hready
  have hle := num16_add_le_headerSum hready.1
  have hne : c ≠ num16 s.pbuf 10 := by rintro rfl; omega
  exact ⟨_, hexec, rfl, if_neg hne⟩

/-- Settles O34: with the field 0 the computed value completes the sum of the other words, and it is then stored beside
them. -/
theorem computedChecksumVerifies : Obligations.ComputedChecksumVerifies := by
  unfold Obligations.ComputedChecksumVerifies
  intro s hready
  obtain ⟨c, hc, hsum, hexec⟩ := csumComputeResult { s with pbuf := memWrite s.pbuf 10 2 0#32 }
    (headerReady_memWrite_csum hready _)
  have hvalid : HeaderValid (memWrite s.pbuf 10 2 (BitVec.ofNat 32 c)) := by
    have hcomplete : (headerSum (memWrite s.pbuf 10 2 0#32) + c) % 65535 = 0 := hsum
    have hzeroed := headerSum_memWrite_csum hready.1 0#32
    have hstored := headerSum_memWrite_csum hready.1 (BitVec.ofNat 32 c)
    have hfield := num16_memWrite s.pbuf 10 (BitVec.ofNat 32 c)
    simp only [BitVec.toNat_ofNat] at hzeroed hstored hfield
    exact ⟨headerReady_memWrite_csum hready _, by omega, by omega⟩
  have hverify := exec_csumVerify_of_valid (s := { s with pbuf := memWrite s.pbuf 10 2 (BitVec.ofNat 32 c) }) hvalid
  exact ⟨_, _, hexec, hverify, rfl, rfl, rfl⟩

theorem byteNum_writeByte_same (m : Memory) (a : Nat) (v : Byte) : byteNum (writeByte m a v) a = v.toNat := by
  rw [byteNum, readByte_writeByte_same, Option.getD_some]

theorem byteNum_writeByte_other (m : Memory) {a i : Nat} (v : Byte) (h : i ≠ a) :
    byteNum (writeByte m a v) i = byteNum m i :=
  byteNum_congr (readByte_writeByte_other m a i v h)

theorem keepsWritten_writeByte (m : Memory) (a : Nat) (v : Byte) : KeepsWritten m (writeByte m a v) :=
  keepsWritten_writeBytes m a [v]

/-- A changed byte changes its word modulo 0xFFFF: by less than 0x100, or by a multiple of 0x100 below 0xFFFF. -/
theorem num16_writeByte_ne {m : Memory} {a : Nat} {v : Byte} (h : byteNum m a ≠ v.toNat) :
    num16 (writeByte m a v) (2 * (a / 2)) % 65535 ≠ num16 m (2 * (a / 2)) % 65535 := by
  have hv := v.isLt
  have hold := byteNum_lt m a
  have hnew := byteNum_writeByte_same m a v
  rw [num16, num16]
  obtain ⟨k, rfl | rfl⟩ := Nat.even_or_odd' a
  · have hlow := byteNum_writeByte_other m v (a := 2 * k) (i := 2 * k + 1) (by omega)
    have hlt := byteNum_lt m (2 * k + 1)
    rw [show 2 * (2 * k / 2) = 2 * k by omega, hnew, hlow]
    omega
  · have hhigh := byteNum_writeByte_other m v (a := 2 * k + 1) (i := 2 * k) (by omega)
    have hlt := byteNum_lt m (2 * k)
    rw [show 2 * ((2 * k + 1) / 2) = 2 * k by omega, hnew, hhigh]
    omega

/-- Settles O35: the changed byte moves the header's sum off 0 modulo 0xFFFF. -/
theorem corruptedByteFailsVerify : Obligations.CorruptedByteFailsVerify := by
  unfold Obligations.CorruptedByteFailsVerify
  intro s a v ⟨hready, _, hsum⟩ ha h10 h11 hne hzero
  have hihl : ihlNum (writeByte s.pbuf a v) = ihlNum s.pbuf := by
    by_cases ha0 : a = 0
    · subst ha0
      rw [ihlNum, byteNum_writeByte_same, hzero rfl]
    · exact ihlNum_congr (readByte_writeByte_other _ _ _ _ (Ne.symm ha0))
  have hbyte : byteNum s.pbuf a ≠ v.toNat := by
    obtain ⟨b, hb⟩ := Option.isSome_iff_exists.mp (hready.2 a ha)
    rw [Nat.zero_add] at hb
    rw [hb] at hne
    rw [byteNum, hb, Option.getD_some]
    exact fun heq => hne (congrArg some (BitVec.eq_of_toNat_eq heq))
  have hchange := headerSum_writeByte (v := v) ha hihl
  have hword := num16_writeByte_ne hbyte
  exact exec_csumVerify_of_invalid (s := { s with pbuf := writeByte s.pbuf a v })
    (headerReady_of_keepsWritten hready hihl (keepsWritten_writeByte _ _ _)) (by simp only; omega)

end Sys2Proof.Machine
end

section
/-! PROOF. FORWARD on a header it accepts (43_forward.md R210 to R214): the bytes it writes, the sum of the new header,
and the recomputed checksum against the incremental one. -/

namespace Sys2Proof.Machine

/-! ### PBUF after FORWARD (R210, R213) -/

/-- PBUF with this TTL in byte 8 and this checksum in bytes 10–11. -/
def forwardedPbuf (m : Memory) (ttl c : Nat) : Memory :=
  memWrite (writeByte m 8 (BitVec.ofNat 8 ttl)) 10 2 (BitVec.ofNat 32 c)

/-- A one-byte MemWrite is a byte write. -/
theorem memWrite_one (m : Memory) (a : Nat) (b : Byte) : memWrite m a 1 (b.setWidth 32) = writeByte m a b := by
  have hbyte : (b.setWidth 32).extractLsb' 0 8 = b := by
    rw [← BitVec.toNat_inj, BitVec.extractLsb'_toNat, BitVec.toNat_setWidth, Nat.shiftRight_zero]
    have := b.isLt
    omega
  simp only [memWrite, beBytes, writeBytes, Nat.mul_zero, hbyte]

section
variable (m : Memory) (ttl c : Nat)

theorem readByte_forwardedPbuf_ttl : readByte (forwardedPbuf m ttl c) 8 = some (BitVec.ofNat 8 ttl) := by
  rw [forwardedPbuf, readByte_memWrite_outside _ _ (by omega), readByte_writeByte_same]

theorem readByte_forwardedPbuf_other {a : Nat} (h8 : a ≠ 8) (h10 : a ≠ 10) (h11 : a ≠ 11) :
    readByte (forwardedPbuf m ttl c) a = readByte m a := by
  rw [forwardedPbuf, readByte_memWrite_outside _ _ (by omega), readByte_writeByte_other _ _ _ _ h8]

theorem readByte_forwardedPbuf_csum {c : Nat} (hc : c < 65536) :
    readByte (forwardedPbuf m ttl c) 10 = some (BitVec.ofNat 8 (c / 256))
      ∧ readByte (forwardedPbuf m ttl c) 11 = some (BitVec.ofNat 8 (c % 256)) := by
  simp only [forwardedPbuf, readByte_memWrite, beBytes]
  constructor <;> refine congrArg some (BitVec.eq_of_toNat_eq ?_) <;>
    simp only [BitVec.extractLsb'_toNat, BitVec.toNat_ofNat, Nat.shiftRight_eq_div_pow] <;> omega

theorem ihlNum_writeTtl (b : Byte) : ihlNum (writeByte m 8 b) = ihlNum m :=
  ihlNum_congr (readByte_writeByte_other m 8 0 b (by decide))

theorem headerReady_forwardedPbuf {m : Memory} (h : HeaderReady m) : HeaderReady (forwardedPbuf m ttl c) :=
  headerReady_memWrite_csum
    (headerReady_of_keepsWritten h (ihlNum_writeTtl m _) (keepsWritten_writeByte m 8 _)) _

theorem num16_writeTtl_csum (b : Byte) : num16 (writeByte m 8 b) 10 = num16 m 10 :=
  num16_congr (readByte_writeByte_other m 8 10 b (by decide)) (readByte_writeByte_other m 8 11 b (by decide))

end

/-- The new TTL is the high byte of word 4 of the header. -/
theorem headerSum_writeTtl {m : Memory} (h5 : 5 ≤ ihlNum m) (b : Byte) :
    headerSum (writeByte m 8 b) + byteNum m 8 * 256 = headerSum m + b.toNat * 256 := by
  have hchange := headerSum_writeByte (a := 8) (by omega) (ihlNum_writeTtl m b)
  simp only [Nat.reduceDiv, Nat.reduceMul, Nat.reduceAdd, num16, byteNum_writeByte_same,
    byteNum_writeByte_other m b (show 9 ≠ 8 by decide)] at hchange
  linarith

/-- The sum of the new header: words 4 and 5 have changed. -/
theorem headerSum_forwardedPbuf {m : Memory} (h5 : 5 ≤ ihlNum m) {ttl c : Nat} (httl : ttl < 256) (hc : c < 65536) :
    headerSum (forwardedPbuf m ttl c) + byteNum m 8 * 256 + num16 m 10 = headerSum m + ttl * 256 + c := by
  have hword4 := headerSum_writeTtl h5 (BitVec.ofNat 8 ttl)
  have hword5 := headerSum_memWrite_csum (m := writeByte m 8 (BitVec.ofNat 8 ttl)) (by rwa [ihlNum_writeTtl])
    (BitVec.ofNat 32 c)
  rw [num16_writeTtl_csum] at hword5
  simp only [BitVec.toNat_ofNat] at hword4 hword5
  rw [forwardedPbuf]
  omega

/-! ### The header FORWARD recomputes over (R212) -/

theorem headerOperand_writeTtl {m : Memory} {hdr : List Byte} (h : headerOperand m = .bytes hdr) (b : Byte) :
    headerOperand (writeByte m 8 b) = .bytes (hdr.set 8 b) := by
  obtain ⟨h5, hread⟩ := headerOperand_eq_bytes.mp h
  obtain ⟨hlen, hget⟩ := readBytes_eq_some.mp hread
  refine headerOperand_eq_bytes.mpr ⟨by rwa [ihlNum_writeTtl], readBytes_eq_some.mpr ⟨?_, fun i hi => ?_⟩⟩
  · rw [ihlNum_writeTtl, List.length_set, hlen]
  · rw [ihlNum_writeTtl] at hi
    rw [readByte_writeByte, List.getElem?_set, hget i hi, Nat.zero_add]
    by_cases h8 : i = 8
    · rw [if_pos h8, if_pos h8.symm, if_pos (by omega)]
    · rw [if_neg h8, if_neg (Ne.symm h8)]

section
variable {s : State} {hdr : List Byte} (hbytes : headerOperand s.pbuf = .bytes hdr)
include hbytes

theorem byteAt_ttl_toNat : (byteAt hdr 8).toNat = byteNum s.pbuf 8 := by
  obtain ⟨h5, hread⟩ := headerOperand_eq_bytes.mp hbytes
  rw [byteNum_of_readBytes hread (by omega)]

/-- The TTL FORWARD stores, as a number. -/
theorem byteAt_ttl_pred (httl : byteNum s.pbuf 8 ≠ 0) : byteAt hdr 8 - 1#8 = BitVec.ofNat 8 (byteNum s.pbuf 8 - 1) := by
  have hlt := byteNum_lt s.pbuf 8
  rw [← BitVec.toNat_inj, BitVec.toNat_sub, byteAt_ttl_toNat hbytes, BitVec.toNat_ofNat, BitVec.toNat_ofNat]
  omega

theorem exec_forward_of_bytes (hcsum : csum .zero hdr = savedCsum hdr) (httl : byteAt hdr 8 ≠ 0#8) :
    exec .forward s
      = finish { s with pbuf := memWrite (memWrite s.pbuf 8 1 ((byteAt hdr 8 - 1#8).setWidth 32)) 10 2
                                  ((csum .zero (hdr.set 8 (byteAt hdr 8 - 1#8))).setWidth 32) }
          .ok ((byteAt hdr 8 - 1#8).setWidth 32) ((csum .zero (hdr.set 8 (byteAt hdr 8 - 1#8))).setWidth 32)
          (boolWord (byteAt hdr 8 - 1#8 == 0#8)) 0#32 := by
  simp only [exec, execForward, hbytes, if_neg (not_not.mpr hcsum), if_neg httl]

end

/-! ### FORWARD in numbers -/

/-- The checksum recomputed over the header with the new TTL completes the sum of the words it is stored beside. -/
theorem headerSum_of_recomputed {m : Memory} {hdr : List Byte} (h : headerOperand m = .bytes hdr) (ttl : Nat) :
    (csum .zero (hdr.set 8 (BitVec.ofNat 8 ttl))).toNat < 65535
      ∧ headerSum (forwardedPbuf m ttl (csum .zero (hdr.set 8 (BitVec.ofNat 8 ttl))).toNat) % 65535 = 0 := by
  have hnew := headerOperand_writeTtl h (BitVec.ofNat 8 ttl)
  obtain ⟨h5, _⟩ := headerOperand_eq_bytes.mp hnew
  obtain ⟨hc, hsum⟩ := csum_zero_spec hnew
  have hle := num16_add_le_headerSum h5
  have hstored := headerSum_memWrite_csum h5 (BitVec.ofNat 32 (csum .zero (hdr.set 8 (BitVec.ofNat 8 ttl))).toNat)
  rw [BitVec.toNat_ofNat] at hstored
  rw [forwardedPbuf]
  omega

/-- FORWARD on a header that verifies, with a TTL that is not 0: the stored checksum completes the new header's sum. -/
theorem exec_forward_accepted {s : State} (hvalid : HeaderValid s.pbuf) (httl : byteNum s.pbuf 8 ≠ 0) :
    ∃ c, c < 65535 ∧ headerSum (forwardedPbuf s.pbuf (byteNum s.pbuf 8 - 1) c) % 65535 = 0
      ∧ exec .forward s
        = finish { s with pbuf := forwardedPbuf s.pbuf (byteNum s.pbuf 8 - 1) c }
            .ok (BitVec.ofNat 32 (byteNum s.pbuf 8 - 1)) (BitVec.ofNat 32 c)
            (if byteNum s.pbuf 8 = 1 then 1#32 else 0#32) 0#32 := by
  obtain ⟨hready, hfield⟩ := hvalid
  obtain ⟨hdr, hbytes, _⟩ := headerOperand_of_ready hready
  have hlt := byteNum_lt s.pbuf 8
  have hold : byteAt hdr 8 ≠ 0#8 := by
    rw [ne_eq, ← BitVec.toNat_inj, byteAt_ttl_toNat hbytes]
    exact httl
  have hexec := exec_forward_of_bytes hbytes ((csum_zero_eq_saved_iff hbytes).mpr hfield) hold
  rw [byteAt_ttl_pred hbytes httl] at hexec
  obtain ⟨hc, hsum⟩ := headerSum_of_recomputed hbytes (byteNum s.pbuf 8 - 1)
  refine ⟨_, hc, hsum, ?_⟩
  have hzero : (BitVec.ofNat 8 (byteNum s.pbuf 8 - 1) == 0#8) = true ↔ byteNum s.pbuf 8 = 1 := by
    rw [beq_iff_eq, ← BitVec.toNat_inj, BitVec.toNat_ofNat, BitVec.toNat_ofNat]
    omega
  have httl32 : (BitVec.ofNat 8 (byteNum s.pbuf 8 - 1)).setWidth 32 = BitVec.ofNat 32 (byteNum s.pbuf 8 - 1) := by
    rw [← BitVec.toNat_inj, BitVec.toNat_setWidth, BitVec.toNat_ofNat, BitVec.toNat_ofNat]
    omega
  rw [hexec, memWrite_one, boolWord_eq_ite hzero, setWidth_eq_ofNat, httl32, forwardedPbuf]

/-- Settles O53: the new bytes are read back from where they were written. -/
theorem forwardRewritesTtlAndChecksum : Obligations.ForwardRewritesTtlAndChecksum := by
  unfold Obligations.ForwardRewritesTtlAndChecksum
  intro s hvalid httl
  obtain ⟨c, hc, hsum, hexec⟩ := exec_forward_accepted hvalid httl
  obtain ⟨h10, h11⟩ := readByte_forwardedPbuf_csum s.pbuf (byteNum s.pbuf 8 - 1) (c := c) (by omega)
  exact ⟨_, c, hexec, hc, rfl, readByte_forwardedPbuf_ttl _ _ _, h10, h11,
    fun a h8 h10 h11 => readByte_forwardedPbuf_other _ _ _ h8 h10 h11, hsum⟩

/-! ### What an OK FORWARD leaves (R212, R214) -/

/-- FORWARD answers OK only on a header that verifies, with a TTL that is not 0 (R211). -/
theorem valid_of_exec_forward_ok {s t : State} (h : exec .forward s = .next t) (hok : t.code = .ok) :
    HeaderValid s.pbuf ∧ byteNum s.pbuf 8 ≠ 0 := by
  obtain ⟨c, hc, rfl⟩ | ⟨hdr, hbytes, hcsum, httl, _⟩ := execForward_next h
  · exact absurd hok hc
  · obtain ⟨h5, hread⟩ := headerOperand_eq_bytes.mp hbytes
    refine ⟨⟨⟨h5, written_of_readBytes hread⟩, (csum_zero_eq_saved_iff hbytes).mp hcsum⟩, ?_⟩
    rwa [ne_eq, ← byteAt_ttl_toNat hbytes, ← BitVec.toNat_zero, BitVec.toNat_inj]

/-- The whole of an OK FORWARD, with its checksum as a number. -/
theorem exec_forward_ok_cases {s t : State} (h : exec .forward s = .next t) (hok : t.code = .ok) :
    HeaderValid s.pbuf ∧ byteNum s.pbuf 8 ≠ 0 ∧ ∃ c, c < 65535 ∧ t.res1 = BitVec.ofNat 32 c
      ∧ t.pbuf = forwardedPbuf s.pbuf (byteNum s.pbuf 8 - 1) c ∧ headerSum t.pbuf % 65535 = 0 := by
  obtain ⟨hvalid, httl⟩ := valid_of_exec_forward_ok h hok
  obtain ⟨c, hc, hsum, hexec⟩ := exec_forward_accepted hvalid httl
  rw [hexec, finish_eq] at h
  cases h
  exact ⟨hvalid, httl, c, hc, rfl, rfl, hsum⟩

/-- Settles O55: the stored checksum completes the sum of the new header, which is what verifying means. -/
theorem forwardedHeaderVerifies : Obligations.ForwardedHeaderVerifies := by
  unfold Obligations.ForwardedHeaderVerifies
  intro s t h hok
  obtain ⟨⟨hready, _⟩, httl, c, hc, hres, hpbuf, hsum⟩ := exec_forward_ok_cases h hok
  have hlt := byteNum_lt s.pbuf 8
  have hfield : num16 t.pbuf 10 = c := by
    rw [hpbuf, forwardedPbuf, num16_memWrite, BitVec.toNat_ofNat]
    omega
  refine ⟨?newTtl, ?verifies⟩
  case newTtl =>
    rw [hpbuf, byteNum, readByte_forwardedPbuf_ttl, Option.getD_some, BitVec.toNat_ofNat]
    omega
  case verifies =>
    have hvalid : HeaderValid t.pbuf :=
      ⟨by rw [hpbuf]; exact headerReady_forwardedPbuf _ _ hready, by rwa [hfield], hsum⟩
    refine ⟨_, exec_csumVerify_of_valid hvalid, rfl, rfl, ?_⟩
    rw [State.complete_res1, hfield, hres]

/-- The recomputed checksum is the saved one plus 0x0100 modulo 0xFFFF, since the TTL is the high byte of its word. -/
theorem forwarded_csum_mod {m : Memory} {c : Nat} (hvalid : HeaderValid m) (httl : byteNum m 8 ≠ 0) (hc : c < 65536)
    (hsum : headerSum (forwardedPbuf m (byteNum m 8 - 1) c) % 65535 = 0) :
    c % 65535 = (num16 m 10 + 0x0100) % 65535 := by
  obtain ⟨⟨h5, _⟩, _, hold⟩ := hvalid
  have hlt := byteNum_lt m 8
  have hnew := headerSum_forwardedPbuf h5 (ttl := byteNum m 8 - 1) (by omega) hc
  omega

/-- Settles O56: both are the residue of saved + 0x0100; the fold answers 0xFFFF for the residue 0, the recomputation
0. -/
theorem fullRecomputationAgainstIncremental : Obligations.FullRecomputationAgainstIncremental := by
  unfold Obligations.FullRecomputationAgainstIncremental
  intro s t h hok
  obtain ⟨hvalid, httl, c, hc, hres, hpbuf, hsum⟩ := exec_forward_ok_cases h hok
  rw [hpbuf] at hsum
  have hmod := forwarded_csum_mod hvalid httl (by omega) hsum
  obtain ⟨_, hsaved, _⟩ := hvalid
  obtain ⟨hzero, hle, hfold⟩ := carryFoldIsTheResidue (num16 s.pbuf 10 + 0x0100)
  have hres_toNat : t.res1.toNat = c := by rw [hres, BitVec.toNat_ofNat]; omega
  refine ⟨fun hne => by omega, fun heq => by omega, ?_⟩
  rw [← BitVec.toNat_inj, hres_toNat, BitVec.toNat_ofNat]
  omega

end Sys2Proof.Machine
end

section
/-! PROOF. DISASSEMBLE (41_codec.md R140 to R146): its verdicts in their order, and that it accepts and decodes exactly
the legal packets. -/

namespace Sys2Proof.Machine

/-! ### From the parser's answer to the command's (R141, R144) -/

section
variable {s : State} {bs : List Byte} (hle : s.arg.toNat ≤ s.params.pbufBytes) (hge : 20 ≤ s.arg.toNat)
  (hread : readBytes s.pbuf 0 s.arg.toNat = some bs)
include hle hge hread

theorem exec_disassemble_of_error {r : RejectReason} {j : Nat} (h : parsePacket bs = .error (r, j)) :
    exec .disassemble s = finish s .reject r.num (BitVec.ofNat 32 j) 0#32 0#32 := by
  rw [execDisassemble_read hle hge hread, h]
  rfl

theorem exec_disassemble_of_ok {cmd : Byte} {es : List MsgEntry} (h : parsePacket bs = .ok (cmd, es)) :
    exec .disassemble s
      = finish { s with msgCmd := cmd, msgCount := BitVec.ofNat 5 es.length, msgE := storeEntries s.msgE 0 es } .ok
          (BitVec.ofNat 32 es.length) 0#32 0#32 0#32 := by
  rw [execDisassemble_read hle hge hread, h]

end

theorem ripStart_eq (m : Memory) : ripStart m = 4 * ihlNum m + 8 := rfl

/-- A legal frame has its IPv4, UDP and RIP headers. -/
theorem frameLegal_length_ge {m : Memory} {len cmd n : Nat} (h : FrameLegal m len cmd n) : 32 ≤ len := by
  obtain ⟨h5, hlen, _⟩ := h
  rw [ripStart_eq] at hlen
  omega

/-- A packet with a legal frame is decided by its entries alone. -/
theorem parsePacket_of_frame {m : Memory} {len cmd n : Nat} {bs : List Byte} (hread : readBytes m 0 len = some bs)
    (hframe : FrameLegal m len cmd n) :
    parsePacket bs
      = withCommand (BitVec.ofNat 8 cmd) (parseEntries (BitVec.ofNat 8 cmd) bs n 0 (ripStart m + 4)) := by
  have hge := frameLegal_length_ge hframe
  obtain ⟨h5, hlen, hn, _, hcmd, hcommand, hversion, hzero2, hzero3⟩ := hframe
  have hsize : len - (ripStart m + 4) = 20 * n := by omega
  have hcount : 20 * n / 20 = n := by omega
  have hbyte : byteAt bs (ripStart m) = BitVec.ofNat 8 cmd :=
    (byteAt_eq_iff hread (by omega) cmd (by omega)).mpr hcmd
  have hbody : ripStart m + 4 ≤ len := by omega
  have hwhole : 20 * n % 20 = 0 := by omega
  obtain ⟨_, hverdict⟩ := parsePacket_verdict hread (Nat.le_trans (by decide) hge)
  obtain ⟨_, hverdict⟩ := hverdict h5
  obtain ⟨_, hverdict⟩ := hverdict hbody
  rw [hsize, hcount, hbyte] at hverdict
  obtain ⟨_, hverdict⟩ := hverdict hwhole
  obtain ⟨_, hverdict⟩ := hverdict hn
  obtain ⟨_, hverdict⟩ := hverdict (by rwa [hcmd])
  obtain ⟨_, hentries⟩ := hverdict hversion
  exact hentries ⟨hzero2, hzero3⟩

/-! ### Packets that are accepted (R140, R143) -/

/-- The message a packet with `n` entries decodes to. -/
def decodedEntries (m : Memory) (n : Nat) : List MsgEntry := (List.range n).map fun j => entryOf m (entryStart m j)

theorem length_decodedEntries (m : Memory) (n : Nat) : (decodedEntries m n).length = n := by simp [decodedEntries]

theorem parsePacket_of_legal {m : Memory} {len cmd n : Nat} {bs : List Byte} (hread : readBytes m 0 len = some bs)
    (hframe : FrameLegal m len cmd n) (hentries : ∀ j, j < n → EntryLegal m cmd (entryStart m j)) :
    parsePacket bs = .ok (BitVec.ofNat 8 cmd, decodedEntries m n) := by
  rw [parsePacket_of_frame hread hframe]
  obtain ⟨_, hlen, _, _, hcmd, hcommand, _⟩ := hframe
  have hcmd8 : (BitVec.ofNat 8 cmd).toNat = cmd := by rw [BitVec.toNat_ofNat]; omega
  have hparse : parseEntries (BitVec.ofNat 8 cmd) bs n 0 (ripStart m + 4) = .ok (decodedEntries m n) := by
    refine (parseEntries_eq_ok hread _ _ _ _ (by omega) _).mpr ⟨?_, rfl⟩
    rw [hcmd8]
    exact hentries
  rw [hparse]
  rfl

theorem exec_disassemble_of_legal {s : State} {cmd n : Nat} (hle : s.arg.toNat ≤ s.params.pbufBytes)
    (hframe : FrameLegal s.pbuf s.arg.toNat cmd n)
    (hentries : ∀ j, j < n → EntryLegal s.pbuf cmd (entryStart s.pbuf j)) :
    exec .disassemble s
      = finish { s with msgCmd := BitVec.ofNat 8 cmd, msgCount := BitVec.ofNat 5 n,
                        msgE := storeEntries s.msgE 0 (decodedEntries s.pbuf n) } .ok
          (BitVec.ofNat 32 n) 0#32 0#32 0#32 := by
  have hge := frameLegal_length_ge hframe
  have ⟨_, _, _, hwritten, _⟩ := hframe
  obtain ⟨bs, hread⟩ := readBytes_of_written hwritten
  have hexec := exec_disassemble_of_ok hle (by omega) hread (parsePacket_of_legal hread hframe hentries)
  rwa [length_decodedEntries] at hexec

/-- Settles O36: the parser answers the decoded entries, which are stored from entry 0 on. -/
theorem disassembleDecodesLegalPackets : Obligations.DisassembleDecodesLegalPackets := by
  unfold Obligations.DisassembleDecodesLegalPackets
  intro s cmd n hle hframe hentries
  exact ⟨_, exec_disassemble_of_legal hle hframe hentries, rfl, fun j => storeEntries_get _ _ _ j⟩

/-- What an OK DISASSEMBLE has read, and what it stores. -/
theorem exec_disassemble_ok {s t : State} (h : exec .disassemble s = .next t) (hok : t.code = .ok) :
    ∃ cmd n, FrameLegal s.pbuf s.arg.toNat cmd n ∧ s.arg.toNat ≤ s.params.pbufBytes
      ∧ (∀ j, j < n → EntryLegal s.pbuf cmd (entryStart s.pbuf j))
      ∧ t.msgCmd.toNat = cmd ∧ t.msgCount.toNat = n ∧ t.res0.toNat = n
      ∧ t.msgE = storeEntries s.msgE 0 (decodedEntries s.pbuf n) := by
  obtain hrange | hle := Nat.lt_or_ge s.params.pbufBytes s.arg.toNat
  · rw [exec_disassemble_range hrange, finish_eq] at h
    cases h
    cases hok
  obtain ⟨_, rfl⟩ | ⟨_, _, rfl⟩ | ⟨bs, cmd, es, hread, hparse, rfl⟩ := execDisassemble_next h
  · cases hok
  · cases hok
  · have hge : 20 ≤ s.arg.toNat := by
      have := length_of_parsePacket hparse
      have := length_of_readBytes hread
      omega
    obtain ⟨n, hframe, hentries, rfl, hcount⟩ := parsePacket_eq_ok hread hge hparse
    refine ⟨cmd.toNat, n, hframe, hle, hentries, rfl, ?count, ?res0, rfl⟩
    all_goals
      obtain ⟨_, _, hn, _⟩ := hframe
      simp only [State.complete_msgCount, State.complete_res0, hcount, BitVec.toNat_ofNat]
      omega

/-- Settles O37: an OK answer comes from a packet that passed every check, and stores its command and count. -/
theorem disassembleAcceptsOnlyLegalPackets : Obligations.DisassembleAcceptsOnlyLegalPackets := by
  unfold Obligations.DisassembleAcceptsOnlyLegalPackets
  intro s t h hok
  obtain ⟨cmd, n, hframe, hle, hentries, hcmd, hcount, hres, _⟩ := exec_disassemble_ok h hok
  exact ⟨cmd, n, hframe, hle, hentries, hcmd, hcount, hres⟩

/-- Settles O41: a stored entry is the decoded one, which is masked. -/
theorem decodedEntriesAreNormalized : Obligations.DecodedEntriesAreNormalized := by
  unfold Obligations.DecodedEntriesAreNormalized
  intro s t h hok j hj
  obtain ⟨_, _, _, _, _, _, rfl, _, hstored⟩ := exec_disassemble_ok h hok
  have hentry : t.msgE.get j = entryOf s.pbuf (entryStart s.pbuf j.val) := by
    rw [hstored, decodedEntries, storeEntries_get, if_pos hj]
  rw [hentry]
  exact ⟨rfl, rfl, rfl, rfl⟩

/-! ### Packets that are rejected (R140, R142) -/

/-- Settles O38: the bound and the least length are checked before any byte is read; the checks of the header are the
parser's, in its order. -/
theorem disassembleHeaderVerdicts : Obligations.DisassembleHeaderVerdicts := by
  unfold Obligations.DisassembleHeaderVerdicts
  intro s
  refine ⟨exec_disassemble_range, fun hle => ⟨exec_disassemble_short hle, fun hge hwritten => ?_⟩⟩
  obtain ⟨bs, hread⟩ := readBytes_of_written hwritten
  have hreject {r : RejectReason} (h : parsePacket bs = .error (r, 0)) :
      exec .disassemble s = finish s .reject r.num 0#32 0#32 0#32 := exec_disassemble_of_error hle hge hread h
  obtain ⟨hihl, hverdict⟩ := parsePacket_verdict hread hge
  refine ⟨fun h => hreject (hihl h), fun h => ?_⟩
  obtain ⟨hshort, hverdict⟩ := hverdict h
  refine ⟨fun h => hreject (hshort h), fun h => ?_⟩
  obtain ⟨hsize, hverdict⟩ := hverdict h
  refine ⟨fun h => hreject (hsize h), fun h => ?_⟩
  obtain ⟨hoversize, hverdict⟩ := hverdict h
  refine ⟨fun h => hreject (hoversize h), fun h => ?_⟩
  obtain ⟨hcommand, hverdict⟩ := hverdict h
  refine ⟨fun h => hreject (hcommand h), fun h => ?_⟩
  obtain ⟨hversion, hverdict⟩ := hverdict h
  refine ⟨fun h => hreject (hversion h), fun h => ?_⟩
  obtain ⟨hreserved, _⟩ := hverdict h
  exact fun h => hreject (hreserved h)

/-- Settles O39: the entries before `j` are legal, so the parser's answer is the first failing check of entry `j`. -/
theorem disassembleEntryVerdicts : Obligations.DisassembleEntryVerdicts := by
  unfold Obligations.DisassembleEntryVerdicts
  intro s cmd n j hle hframe hj hbefore
  have hge := frameLegal_length_ge hframe
  have ⟨_, hlen, _, hwritten, _, hcommand, _⟩ := hframe
  obtain ⟨bs, hread⟩ := readBytes_of_written hwritten
  have hcmd8 : (BitVec.ofNat 8 cmd).toNat = cmd := by rw [BitVec.toNat_ofNat]; omega
  have hreject {r : RejectReason} (h : parseEntry (BitVec.ofNat 8 cmd) bs (entryStart s.pbuf j) = .error r) :
      exec .disassemble s = finish s .reject r.num (BitVec.ofNat 32 j) 0#32 0#32 := by
    have hfirst := parseEntries_eq_error hread (BitVec.ofNat 8 cmd) n 0 (ripStart s.pbuf + 4) j r (by omega) hj
      (by rw [hcmd8]; exact hbefore) h
    refine exec_disassemble_of_error hle (by omega) hread ?_
    rw [parsePacket_of_frame hread hframe, hfirst, Nat.zero_add]
    rfl
  have hverdict := parseEntry_verdict hread (BitVec.ofNat 8 cmd) (e := entryStart s.pbuf j)
    (by rw [entryStart]; rw [ripStart_eq] at hlen; omega)
  rw [hcmd8] at hverdict
  obtain ⟨hfamily, hverdict⟩ := hverdict
  refine ⟨fun h => hreject (hfamily h), fun h => ?_⟩
  obtain ⟨htag, hverdict⟩ := hverdict h
  refine ⟨fun h => hreject (htag h), fun h => ?_⟩
  obtain ⟨hmask, hverdict⟩ := hverdict h
  refine ⟨fun h => hreject (hmask h), fun h => ?_⟩
  obtain ⟨hmetric, _⟩ := hverdict h
  exact fun h => hreject (hmetric h)

end Sys2Proof.Machine
end

section
/-! PROOF. The two round trips of the codec (41_codec.md R155): the fields of a packet fix its bytes, and the fields of
an entry fix what it decodes to. -/

namespace Sys2Proof.Machine

/-! ### Bytes from fields (00_scope.md R10) -/

/-- The `n` bytes from address `a` are the same numbers in both memories. -/
def SameBytes (m m' : Memory) (a n : Nat) : Prop := ∀ i, i < n → byteNum m (a + i) = byteNum m' (a + i)

theorem SameBytes.append {m m' : Memory} {a n k : Nat} (hfirst : SameBytes m m' a n)
    (hrest : SameBytes m m' (a + n) k) : SameBytes m m' a (n + k) := by
  intro i hi
  by_cases hin : i < n
  · exact hfirst i hin
  · have hbyte := hrest (i - n) (by omega)
    rwa [show a + n + (i - n) = a + i by omega] at hbyte

theorem sameBytes_of_num16 {m m' : Memory} {a : Nat} (h : num16 m a = num16 m' a) : SameBytes m m' a 2 := by
  intro i hi
  have hlow := byteNum_lt m (a + 1)
  have hlow' := byteNum_lt m' (a + 1)
  rw [num16, num16] at h
  interval_cases i
  · rw [Nat.add_zero]
    omega
  · omega

theorem sameBytes_of_num32 {m m' : Memory} {a : Nat} (h : num32 m a = num32 m' a) : SameBytes m m' a 4 := by
  have hlow := num16_lt m (a + 2)
  have hlow' := num16_lt m' (a + 2)
  rw [num32, num32] at h
  exact (sameBytes_of_num16 (by omega)).append (sameBytes_of_num16 (by omega))

/-- The six fields of the wire entry at `e` are the same numbers in both memories (30_encoding.md R103). -/
def SameEntry (m m' : Memory) (e : Nat) : Prop :=
  num16 m e = num16 m' e ∧ num16 m (e + 2) = num16 m' (e + 2) ∧ num32 m (e + 4) = num32 m' (e + 4)
    ∧ num32 m (e + 8) = num32 m' (e + 8) ∧ num32 m (e + 12) = num32 m' (e + 12) ∧ num32 m (e + 16) = num32 m' (e + 16)

/-- The fields of an entry lie side by side, so they fix its 20 bytes. -/
theorem SameEntry.sameBytes {m m' : Memory} {e : Nat} (h : SameEntry m m' e) : SameBytes m m' e 20 := by
  obtain ⟨hfamily, htag, haddr, hmask, hnexthop, hmetric⟩ := h
  have hhead : SameBytes m m' e 4 := (sameBytes_of_num16 hfamily).append (sameBytes_of_num16 htag)
  exact (((hhead.append (sameBytes_of_num32 haddr)).append (sameBytes_of_num32 hmask)).append
    (sameBytes_of_num32 hnexthop)).append (sameBytes_of_num32 hmetric)

/-- A RIP header and `n` entries fix all bytes of a payload. -/
theorem sameBytes_of_payload {m m' : Memory} {h n : Nat} (hheader : SameBytes m m' h 4)
    (hentries : ∀ j, j < n → SameEntry m m' (h + 4 + 20 * j)) : SameBytes m m' h (4 + 20 * n) := by
  induction n with
  | zero => exact hheader
  | succ n ih =>
    have hlast := (hentries n (Nat.lt_succ_self n)).sameBytes
    rw [Nat.add_assoc] at hlast
    exact (ih fun j hj => hentries j (by omega)).append hlast

theorem readByte_eq_of_byteNum {m m' : Memory} {a : Nat} (hm : (readByte m a).isSome = true)
    (hm' : (readByte m' a).isSome = true) (h : byteNum m a = byteNum m' a) : readByte m a = readByte m' a := by
  obtain ⟨b, hb⟩ := Option.isSome_iff_exists.mp hm
  obtain ⟨b', hb'⟩ := Option.isSome_iff_exists.mp hm'
  rw [byteNum, byteNum, hb, hb'] at h
  obtain rfl : b = b' := BitVec.eq_of_toNat_eq h
  rw [hb, hb']

/-! ### Masked fields (R143) -/

/-- Masking a value with no bits outside the mask changes nothing. -/
theorem and_mask_of_clean {x m : Word} (h : x &&& ~~~m = 0#32) : x &&& m = x := by
  have hsplit : x &&& (m ||| ~~~m) = (x &&& m) ||| (x &&& ~~~m) := BitVec.and_or_distrib_left ..
  rw [h, BitVec.or_not_self, BitVec.and_allOnes, BitVec.or_zero] at hsplit
  exact hsplit.symm

theorem ofNat_num32_toNat (m : Memory) (a : Nat) : (BitVec.ofNat 32 (num32 m a)).toNat = num32 m a := by
  rw [BitVec.toNat_ofNat, Nat.mod_eq_of_lt (num32_lt m a)]

/-- An entry on the wire with no address or next-hop bit outside its mask. -/
def EntryClean (m : Memory) (e : Nat) : Prop :=
  BitVec.ofNat 32 (num32 m (e + 4)) &&& ~~~(BitVec.ofNat 32 (num32 m (e + 8))) = 0#32
    ∧ BitVec.ofNat 32 (num32 m (e + 12)) &&& ~~~(BitVec.ofNat 32 (num32 m (e + 8))) = 0#32

/-- A clean entry decodes to its fields as they are on the wire. -/
theorem entryOf_of_clean {m : Memory} {e : Nat} (h : EntryClean m e) :
    (entryOf m e).addr.toNat = num32 m (e + 4) ∧ (entryOf m e).mask.toNat = num32 m (e + 8)
      ∧ (entryOf m e).nexthop.toNat = num32 m (e + 12) ∧ (entryOf m e).metric.toNat = num32 m (e + 16) := by
  obtain ⟨haddr, hnexthop⟩ := h
  simp only [entryOf, and_mask_of_clean haddr, and_mask_of_clean hnexthop, ofNat_num32_toNat, and_self]

/-! ### ASSEMBLE after DISASSEMBLE -/

/-- What ASSEMBLE does after an OK DISASSEMBLE, with ARG at the RIP header: every field of the packet is written back.
-/
theorem assemble_of_decoded {s t : State} {cmd n : Nat} (hframe : FrameLegal s.pbuf s.arg.toNat cmd n)
    (hle : s.arg.toNat ≤ s.params.pbufBytes)
    (hentries : ∀ j, j < n → EntryLegal s.pbuf cmd (entryStart s.pbuf j) ∧ EntryClean s.pbuf (entryStart s.pbuf j))
    (hparams : t.params = s.params) (hpbuf : t.pbuf = s.pbuf) (harg : t.arg.toNat = ripStart s.pbuf)
    (hcmd : t.msgCmd.toNat = cmd) (hcount : t.msgCount.toNat = n)
    (hmsg : ∀ j : Fin 25, j.val < n → t.msgE.get j = entryOf s.pbuf (entryStart s.pbuf j.val)) :
    ∃ u, exec .assemble t = .next u ∧ u.code = .ok ∧ ∀ a, readByte u.pbuf a = readByte s.pbuf a := by
  obtain ⟨_, hlen, hn, hwritten, hcommand, _, hversion, hzero2, hzero3⟩ := hframe
  obtain ⟨_, hfits⟩ := assembleWritesThePayload t (by omega)
  rw [harg, hcount, hparams, hpbuf, hcmd] at hfits
  obtain ⟨u, hexec, hfinish, hnew, hcmdByte, hversionByte, hzero, hfields, hother⟩ := hfits (by omega)
  refine ⟨u, hexec, congrArg State.code (Host.Outcome.next.inj hfinish).symm, fun a => ?_⟩
  by_cases ha : ripStart s.pbuf ≤ a ∧ a < ripStart s.pbuf + (4 + 20 * n)
  swap
  · exact hother a ha
  have hheader : SameBytes u.pbuf s.pbuf (ripStart s.pbuf) 4 := by
    have hzeroed : num16 u.pbuf (ripStart s.pbuf + 2) = num16 s.pbuf (ripStart s.pbuf + 2) := by
      rw [hzero, num16, hzero2, hzero3]
    have hstart : SameBytes u.pbuf s.pbuf (ripStart s.pbuf) 2 :=
      sameBytes_of_num16 (by rw [num16, num16, hcmdByte, hversionByte, hcommand, hversion])
    exact hstart.append (sameBytes_of_num16 hzeroed)
  have hpayload : SameBytes u.pbuf s.pbuf (ripStart s.pbuf) (4 + 20 * n) := by
    refine sameBytes_of_payload hheader fun j hj => ?_
    obtain ⟨⟨hfamily, htag, _⟩, hclean⟩ := hentries j hj
    obtain ⟨haddr, hmask, hnexthop, hmetric⟩ := entryOf_of_clean hclean
    have hwire := hfields ⟨j, by omega⟩ hj
    rw [hmsg ⟨j, by omega⟩ hj, haddr, hmask, hnexthop, hmetric, ← hfamily, ← htag] at hwire
    exact hwire
  obtain ⟨i, rfl⟩ := Nat.exists_eq_add_of_le ha.1
  have hold := hwritten (ripStart s.pbuf + i) (by omega)
  rw [Nat.zero_add] at hold
  exact readByte_eq_of_byteNum (hnew i (by omega)) hold (hpayload i (by omega))

/-- Settles O43: DISASSEMBLE stores the fields of the packet, and ASSEMBLE writes them back where they came from. -/
theorem assembleOfDisassembleIsIdentity : Obligations.AssembleOfDisassembleIsIdentity := by
  unfold Obligations.AssembleOfDisassembleIsIdentity
  intro s cmd n hwf hle hframe hentries
  have ⟨_, hlen, hn, _, _, hcommand, _⟩ := hframe
  have hregion := headerRegion_le s.pbuf
  obtain ⟨t, ht, hfinish, hmsg⟩ := disassembleDecodesLegalPackets s cmd n hle hframe fun j hj => (hentries j hj).1
  have hstate := (Host.Outcome.next.inj hfinish).symm
  have hcmd : t.msgCmd = BitVec.ofNat 8 cmd := congrArg State.msgCmd hstate
  have hcount : t.msgCount = BitVec.ofNat 5 n := congrArg State.msgCount hstate
  have hcmd_toNat : t.msgCmd.toNat = cmd := by rw [hcmd, BitVec.toNat_ofNat]; omega
  have hcount_toNat : t.msgCount.toNat = n := by rw [hcount, BitVec.toNat_ofNat]; omega
  have harg : (BitVec.ofNat 32 (ripStart s.pbuf)).toNat = ripStart s.pbuf := by
    rw [BitVec.toNat_ofNat, ripStart_eq]; omega
  obtain ⟨u, hu, hok, hsame⟩ := assemble_of_decoded (t := { t with arg := BitVec.ofNat 32 (ripStart s.pbuf) })
    hframe hle hentries (exec_params (t := t) ht) (exec_pbuf (t := t) ht (by decide) (by decide)) harg hcmd_toNat
    hcount_toNat fun j hj => (hmsg j).trans (if_pos hj)
  exact ⟨t, u, ht, hu, congrArg State.code hstate, hok, hsame⟩

/-! ### DISASSEMBLE after ASSEMBLE -/

theorem ofNat_toNat_eq {w : Nat} {x : BitVec w} {n : Nat} (h : n = x.toNat) : BitVec.ofNat w n = x := by
  rw [h, BitVec.ofNat_toNat, BitVec.setWidth_eq]

/-- A wire entry that holds the fields of a well-formed MSG entry is legal and decodes to that entry. -/
theorem entry_of_wireFields {m : Memory} {e cmd : Nat} {x : MsgEntry} (hx : MsgEntryLegal cmd x)
    (hfields : num16 m e = familyNum cmd ∧ num16 m (e + 2) = 0 ∧ num32 m (e + 4) = x.addr.toNat
      ∧ num32 m (e + 8) = x.mask.toNat ∧ num32 m (e + 12) = x.nexthop.toNat ∧ num32 m (e + 16) = x.metric.toNat) :
    EntryLegal m cmd e ∧ entryOf m e = x := by
  obtain ⟨hcidr, haddr_clean, hnexthop_clean, hlegal⟩ := hx
  obtain ⟨hfamily, htag, haddr, hmask, hnexthop, hmetric⟩ := hfields
  refine ⟨⟨hfamily, htag, ?mask, ?metric⟩, ?decoded⟩
  case mask => rwa [ofNat_toNat_eq hmask]
  case metric => rwa [hmetric]
  case decoded =>
    rw [entryOf, ofNat_toNat_eq haddr, ofNat_toNat_eq hmask, ofNat_toNat_eq hnexthop, ofNat_toNat_eq hmetric,
      and_mask_of_clean haddr_clean, and_mask_of_clean hnexthop_clean]

/-- PBUF after an ASSEMBLE behind a written header: a legal frame whose entries are those of MSG. -/
theorem assembled_frame {s : State} (hcmd : s.msgCmd = 1#8 ∨ s.msgCmd = 2#8) (hcount : s.msgCount.toNat ≤ 25)
    (h5 : 5 ≤ ihlNum s.pbuf) (hwritten : Written s.pbuf 0 (ripStart s.pbuf)) (harg : s.arg.toNat = ripStart s.pbuf)
    (hfits : ripStart s.pbuf + 4 + 20 * s.msgCount.toNat ≤ s.params.pbufBytes) :
    ∃ t, exec .assemble s = .next t ∧ t.code = .ok ∧ t.params = s.params ∧ ihlNum t.pbuf = ihlNum s.pbuf
      ∧ FrameLegal t.pbuf (ripStart s.pbuf + 4 + 20 * s.msgCount.toNat) s.msgCmd.toNat s.msgCount.toNat
      ∧ ∀ j : Fin 25, j.val < s.msgCount.toNat → MsgEntryLegal s.msgCmd.toNat (s.msgE.get j) →
        EntryLegal t.pbuf s.msgCmd.toNat (entryStart t.pbuf j.val)
          ∧ entryOf t.pbuf (entryStart t.pbuf j.val) = s.msgE.get j := by
  obtain ⟨_, hassemble⟩ := assembleWritesThePayload s hcount
  rw [harg] at hassemble
  obtain ⟨t, ht, hfinish, hnew, hcmdByte, hversion, hzero, hfields, hother⟩ := hassemble (by omega)
  have hstate := (Host.Outcome.next.inj hfinish).symm
  have hihl : ihlNum t.pbuf = ihlNum s.pbuf := ihlNum_congr (hother 0 (by rw [ripStart_eq]; omega))
  have hrip : ripStart t.pbuf = ripStart s.pbuf := by rw [ripStart_eq, hihl]
  refine ⟨t, ht, congrArg State.code hstate, exec_params ht, hihl, ?frame, fun j hj hlegal => ?entry⟩
  case frame =>
    have hall : Written t.pbuf 0 (ripStart s.pbuf + 4 + 20 * s.msgCount.toNat) := by
      intro i hi
      rw [Nat.zero_add]
      by_cases hold : i < ripStart s.pbuf
      · rw [hother i (by omega), ← Nat.zero_add i]
        exact hwritten i hold
      · obtain ⟨k, rfl⟩ := Nat.exists_eq_add_of_le (Nat.le_of_not_lt hold)
        exact hnew k (by omega)
    have hbytes : byteNum t.pbuf (ripStart s.pbuf + 2) = 0 ∧ byteNum t.pbuf (ripStart s.pbuf + 2 + 1) = 0 := by
      rw [num16] at hzero
      omega
    rw [FrameLegal, hrip, hihl]
    refine ⟨h5, rfl, hcount, hall, hcmdByte, ?_, hversion, hbytes⟩
    exact hcmd.imp (congrArg BitVec.toNat) (congrArg BitVec.toNat)
  case entry =>
    have hstart : entryStart t.pbuf j.val = ripStart s.pbuf + 4 + 20 * j.val := by rw [entryStart, hihl]
    rw [hstart]
    exact entry_of_wireFields hlegal (hfields j hj)

/-- Settles O44: the assembled packet is legal, and each of its entries decodes to the MSG entry it was written from. -/
theorem disassembleOfAssembleIsIdentity : Obligations.DisassembleOfAssembleIsIdentity := by
  unfold Obligations.DisassembleOfAssembleIsIdentity
  intro s hwf hcmd hcount hlegal h5 hwritten harg hfits
  obtain ⟨t, ht, htcode, hparams, hihl, hframe, hentries⟩ := assembled_frame hcmd hcount h5 hwritten harg hfits
  have hregion := headerRegion_le s.pbuf
  have hlen : (BitVec.ofNat 32 (ripStart s.pbuf + 4 + 20 * s.msgCount.toNat)).toNat
      = ripStart s.pbuf + 4 + 20 * s.msgCount.toNat := by
    rw [BitVec.toNat_ofNat, ripStart_eq]; omega
  obtain ⟨u, hu, hfinish, hmsg⟩ := disassembleDecodesLegalPackets
    { t with arg := BitVec.ofNat 32 (ripStart s.pbuf + 4 + 20 * s.msgCount.toNat) } s.msgCmd.toNat s.msgCount.toNat
    (by rw [hlen, hparams]; exact hfits) (by rw [hlen]; exact hframe)
    fun j hj => (hentries ⟨j, by omega⟩ hj (hlegal _ hj)).1
  have hstate := (Host.Outcome.next.inj hfinish).symm
  have hucmd : u.msgCmd = BitVec.ofNat 8 s.msgCmd.toNat := congrArg State.msgCmd hstate
  have hucount : u.msgCount = BitVec.ofNat 5 s.msgCount.toNat := congrArg State.msgCount hstate
  refine ⟨t, u, ht, hu, htcode, congrArg State.code hstate, hucmd.trans (ofNat_toNat_eq rfl),
    hucount.trans (ofNat_toNat_eq rfl), fun j => ?entry⟩
  obtain ⟨_, _, htmsg⟩ := exec_sameMsg (by decide) ht
  rw [hmsg j]
  split
  · next hj => exact (hentries j hj (hlegal j hj)).2
  · exact congrArg (Vector.get · j) htmsg

end Sys2Proof.Machine
end
